-- ==== Sys2Proof/Word.lean ====
section
/-! DEFINITION. The word types of the block (00_scope.md R8, R11; 10_state.md R20): a byte, the 32-bit
size word (`SIZE_W`), the 34-bit position (`POS_W`). All quantities are unsigned (R11). -/

namespace Sys2Proof

/-- One byte of SRC, DST, HIST or GBUF (00_scope.md R11). -/
abbrev Byte := BitVec 8

/-- A 32-bit quantity: `UNPACKED_SIZE`, `OUT_LEN`, `P`, `ACC` (00_scope.md R8, `SIZE_W`). -/
abbrev Word := BitVec 32

/-- A 34-bit position: `SPOS`, `SRC_LEN`, `DPOS` (00_scope.md R8, `POS_W`). -/
abbrev Pos := BitVec 34

end Sys2Proof
end

