-- ==== Sys2Proof/Config.lean ====
section
/-! DEFINITION. The configuration: the document's constants as one record of named values (00_scope.md R6, R8;
70_reset_and_hazards.md R274), the four parameters the document leaves open (00_scope.md R7), and the free
values of the bytes that nothing has written. -/

namespace Sys2Proof

/-- `FLAG_ORDER` (00_scope.md R7, decision D1): which end of a flag byte is consumed first. -/
inductive FlagOrder where
  | lsbFirst
  | msbFirst
  deriving DecidableEq, Repr

/-- The two bijections raw byte to logical 1..256 that `DIST_MAP` and `LEN_MAP` choose between
(00_scope.md R7, decision D2). -/
inductive FieldMap where
  | bias1
  | zeroIs256
  deriving DecidableEq, Repr

/-- `OVERSHOOT` (00_scope.md R7, decision D3): what a Copy past `unpacked_size` does. -/
inductive Overshoot where
  | truncate
  | fault
  deriving DecidableEq, Repr

/-- The four parameters of one built block (00_scope.md R7). -/
structure Params where
  flagOrder : FlagOrder
  distMap   : FieldMap
  lenMap    : FieldMap
  overshoot : Overshoot
  deriving DecidableEq, Repr

/-- The decided defaults of 00_scope.md R7. -/
def Params.default : Params :=
  { flagOrder := .lsbFirst, distMap := .bias1, lenMap := .bias1, overshoot := .truncate }

/-- The named constants of 00_scope.md R6 and R8, one record. -/
structure Constants where
  magic       : Word
  headerSize  : Nat
  magicOffset : Nat
  sizeOffset  : Nat
  padOffset   : Nat
  bodyOffset  : Nat
  minDist     : Nat
  maxDist     : Nat
  minLen      : Nat
  maxLen      : Nat
  minMatch    : Nat
  groupSize   : Nat
  flagRaw     : Bool
  flagLz      : Bool
  histSize    : Nat
  gbufSize    : Nat
  cmdUnpack   : BitVec 2
  cmdPack     : BitVec 2
  deriving DecidableEq, Repr

/-- The document's values (00_scope.md R6; `histSize`, `gbufSize` R8; the command codes 10_state.md R46). -/
abbrev Config.doc : Constants :=
  { magic := 0x80000001, headerSize := 0x80, magicOffset := 0, sizeOffset := 4, padOffset := 8,
    bodyOffset := 0x80, minDist := 1, maxDist := 256, minLen := 1, maxLen := 256, minMatch := 2,
    groupSize := 8, flagRaw := false, flagLz := true, histSize := 256, gbufSize := 16,
    cmdUnpack := 1, cmdPack := 2 }

/-- The two byte stores inside the block (10_state.md R36, R43). -/
inductive ByteStore where
  | hist
  | gbuf
  deriving DecidableEq, Repr

/-- FREE VALUE. What a cell of HIST or GBUF holds that nothing has written since the `epoch`-th reset:
"unspecified (each cell any byte)" (10_state.md R50; 93_implementation_defined.md U11). Log entry 2. -/
opaque Config.unwrittenByte (store : ByteStore) (epoch index : Nat) : Byte

/-- FREE VALUE. What a byte of SRC holds that the host never placed: "whatever the host holds"
(10_state.md R50). Log entry 3. -/
opaque Config.hostByte (index : Nat) : Byte

end Sys2Proof
end

