-- ==== Sys2Proof/Syntax.lean ====
section
/-! DEFINITION. The instructions of the block: the four items of the container and the two host commands, one
constructor for each row of spec/opcode_table.json (30_encoding.md R90, R102), and the logical tokens of the
function level (30_encoding.md R94, R108). -/

namespace Sys2Proof

/-- One item of a container, or one host command, with the operands its encoding holds. -/
inductive Instr where
  /-- Format H (30_encoding.md R91): `unpacked_size` and the 120 padding bytes; the magic is fixed. -/
  | header (unpackedSize : Word) (pad : List Byte)
  /-- Format F (R92): the byte of eight selectors. -/
  | flag (selectors : Byte)
  /-- Format L (R93): the one payload byte. -/
  | literal (byte : Byte)
  /-- Format C (R94): the two raw payload bytes, distance first. -/
  | copy (distanceByte lengthByte : Byte)
  /-- A write of 1 to `CMD` (43_container.md R221). -/
  | unpack
  /-- A write of 2 to `CMD` (43_container.md R222). -/
  | pack
  deriving DecidableEq, Repr

/-- What tells the kind of the next item: its position, the selector bit of its flag byte, or that it is a value
the host writes to `CMD` (30_encoding.md R90, R95). -/
inductive Slot where
  | header
  | flag
  | token (selector : Bool)
  | command
  deriving DecidableEq, Repr

/-- A decoded token with logical operand values (30_encoding.md R94, R108; 00_scope.md R2, Token Model). -/
inductive Token where
  | literal (byte : Byte)
  | copy (distance length : Nat)
  deriving DecidableEq, Repr

end Sys2Proof
end

