-- ==== Sys2Proof/WellFormed.lean ====
section
/-! DEFINITION. Which instructions and tokens are well formed. Every value of every typed field is legal
(30_encoding.md R102, R105: "There are no reserved encodings"), so what is left to check is the number of padding
bytes of a header (R91) and the ranges of a token's logical operands (R97, R98). -/

namespace Sys2Proof

/-- The number of padding bytes of a header record, offsets 0x08 to 0x7F (00_scope.md R6, 90_conflicts.md C5). -/
def padLength : Nat := Config.doc.bodyOffset - Config.doc.padOffset

/-- An instruction that some container or some `CMD` write spells. -/
def Instr.wf : Instr → Bool
  | .header _ pad => pad.length == padLength
  | .flag _ => true
  | .literal _ => true
  | .copy _ _ => true
  | .unpack => true
  | .pack => true

/-- A token whose logical operands lie in `MIN_DIST .. MAX_DIST` and `MIN_LEN .. MAX_LEN` (00_scope.md R6). -/
def Token.wf : Token → Bool
  | .literal _ => true
  | .copy d l =>
    decide (Config.doc.minDist ≤ d) && decide (d ≤ Config.doc.maxDist) &&
      decide (Config.doc.minLen ≤ l) && decide (l ≤ Config.doc.maxLen)

end Sys2Proof
end

