-- ==== Sys2Proof/Decode.lean ====
section
/-! DEFINITION. From bytes to instructions and back (30_encoding.md R90 to R100). An item's kind is never told by
its own bits (R90), so the decoder takes the slot beside the bytes; it is total and rejects by name. The encoder
after it is written from the same formats. -/

namespace Sys2Proof

/-- The little-endian value of four bytes, first byte lowest (20_memory.md R66; 30_encoding.md R99, R100). -/
def leWord (b0 b1 b2 b3 : Byte) : Word :=
  BitVec.ofNat 32 (b0.toNat + 2 ^ 8 * b1.toNat + 2 ^ 16 * b2.toNat + 2 ^ 24 * b3.toNat)

/-- The little-endian value of the four bytes at an offset (20_memory.md R66). -/
def leWordAt (bytes : List Byte) (offset : Nat) : Word :=
  leWord (bytes.getD offset 0) (bytes.getD (offset + 1) 0) (bytes.getD (offset + 2) 0) (bytes.getD (offset + 3) 0)

/-- Byte `k` of a 32-bit value, `(w >> 8k) mod 256` (30_encoding.md R99; 40_header_codec.md R125). -/
def wordByte (w : Word) (k : Nat) : Byte := BitVec.ofNat 8 (w.toNat >>> (8 * k))

/-- The four little-endian bytes of a 32-bit value (20_memory.md R66). -/
def leBytes (w : Word) : List Byte := [wordByte w 0, wordByte w 1, wordByte w 2, wordByte w 3]

/-- Why bytes spell no instruction in a slot. -/
inductive Reject where
  /-- Fewer bytes than the item has (30_encoding.md R103 (c)). -/
  | truncated
  /-- The first four bytes are not the magic (30_encoding.md R103 (a)). -/
  | badMagic
  /-- A `CMD` value that starts nothing: 0, 3, or one the 2-bit register cannot hold (10_state.md R46). -/
  | notACommand
  deriving DecidableEq, Repr

/-- The header record (30_encoding.md R91, R99, R100), its checks in the order of 40_header_codec.md R124. -/
def decodeHeaderItem (bytes : List Byte) : Except Reject (Instr × List Byte) :=
  if bytes.length < Config.doc.sizeOffset then .error .truncated
  else if leWordAt bytes Config.doc.magicOffset ≠ Config.doc.magic then .error .badMagic
  else if bytes.length < Config.doc.headerSize then .error .truncated
  else
    .ok (.header (leWordAt bytes Config.doc.sizeOffset) ((bytes.drop Config.doc.padOffset).take padLength),
      bytes.drop Config.doc.bodyOffset)

/-- The instruction that the bytes begin with in a slot, and the bytes after it (30_encoding.md R90, R95;
the two commands 10_state.md R46). -/
def decode (slot : Slot) (bytes : List Byte) : Except Reject (Instr × List Byte) :=
  match slot with
  | .header => decodeHeaderItem bytes
  | .flag =>
    match bytes with
    | f :: rest => .ok (.flag f, rest)
    | [] => .error .truncated
  | .token selector =>
    if selector = Config.doc.flagRaw then
      match bytes with
      | b :: rest => .ok (.literal b, rest)
      | [] => .error .truncated
    else
      match bytes with
      | x :: y :: rest => .ok (.copy x y, rest)
      | _ => .error .truncated
  | .command =>
    match bytes with
    | c :: rest =>
      if c.toNat = Config.doc.cmdUnpack.toNat then .ok (.unpack, rest)
      else if c.toNat = Config.doc.cmdPack.toNat then .ok (.pack, rest)
      else .error .notACommand
    | [] => .error .truncated

/-- The slot an instruction stands in (30_encoding.md R90). -/
def slotOf : Instr → Slot
  | .header _ _ => .header
  | .flag _ => .flag
  | .literal _ => .token Config.doc.flagRaw
  | .copy _ _ => .token Config.doc.flagLz
  | .unpack => .command
  | .pack => .command

/-- The number of bytes an instruction takes in a slot (30_encoding.md R90; one byte holds a `CMD` value). -/
def slotLength : Slot → Nat
  | .header => Config.doc.headerSize
  | .flag => 1
  | .token selector => if selector = Config.doc.flagLz then 2 else 1
  | .command => 1

/-- The bytes of an instruction, in stream order (30_encoding.md R91 to R94; 20_memory.md R67). -/
def encode : Instr → List Byte
  | .header size pad => leBytes Config.doc.magic ++ leBytes size ++ pad
  | .flag f => [f]
  | .literal b => [b]
  | .copy x y => [x, y]
  | .unpack => [BitVec.ofNat 8 Config.doc.cmdUnpack.toNat]
  | .pack => [BitVec.ofNat 8 Config.doc.cmdPack.toNat]

/-- Byte `k` of an instruction's encoding. -/
def itemByte (i : Instr) (k : Nat) : Byte := (encode i).getD k 0

/-- The command a value written to `CMD` gives, if it gives one (10_state.md R46). -/
def commandOf (v : BitVec 2) : Option Instr :=
  match decode .command [BitVec.ofNat 8 v.toNat] with
  | .ok (i, _) => some i
  | .error _ => none

/-- The `n` bytes of a number, least significant first. -/
def natBytes : Nat → Nat → List Byte
  | 0, _ => []
  | n + 1, w => BitVec.ofNat 8 w :: natBytes n (w / 256)

/-- What is left of a number above its `n` lowest bytes. -/
def natAbove : Nat → Nat → Nat
  | 0, w => w
  | n + 1, w => natAbove n (w / 256)

/-- The slot and the bytes that a word of spec/opcode_table.json stands for, as the table numbers its bits: the
32 magic bits of HEADER little-endian, the zero bits above them the rest of the record; `(selector, byte 0)` for
LITERAL and `(selector, byte 0, byte 1)` for COPY, the first named most significant; the `CMD` value for UNPACK and
PACK; the byte itself for FLAG. In 8 bits or fewer the words 1 and 2 are read as the commands (log entry 8). -/
def tableItem (nbits w : Nat) : Option (Slot × List Byte) :=
  if nbits ≤ 8 then
    if w = Config.doc.cmdUnpack.toNat ∨ w = Config.doc.cmdPack.toNat then
      some (.command, [BitVec.ofNat 8 w])
    else if w < 2 ^ 8 then some (.flag, [BitVec.ofNat 8 w]) else none
  else if nbits ≤ 24 then
    if w < 2 ^ 8 ∧ nbits ≤ 16 then some (.token Config.doc.flagRaw, [BitVec.ofNat 8 w])
    else if 2 ^ 16 ≤ w ∧ w < 2 ^ 17 then
      some (.token Config.doc.flagLz, [BitVec.ofNat 8 (w / 2 ^ 8), BitVec.ofNat 8 w])
    else none
  else if natAbove Config.doc.headerSize w = 0 then
    some (.header, natBytes Config.doc.headerSize w)
  else none

/-- The instruction the decoder reads from a word of spec/opcode_table.json. -/
def decodeTableWord (nbits w : Nat) : Option Instr :=
  match tableItem nbits w with
  | some (slot, bytes) =>
    match decode slot bytes with
    | .ok (i, _) => some i
    | .error _ => none
  | none => none

end Sys2Proof
end

