-- ==== Sys2Proof/Machine/State.lean ====
section
/-! DEFINITION. The state of one block (10_state.md R20), the memories it touches (20_memory.md R60), what the host
is about to do (43_container.md R220), the state after reset (10_state.md R50), and the reasons a step can stop. -/

namespace Sys2Proof.Machine

/-- `ST` (10_state.md R22). Code 13 is never held, so no value stands for it. -/
inductive St where
  | idle | uMagic | uSize | uPad | dFlag | dTok | dLen | dCopy
  | pHdr | pNext | pScan | pEmit | pFlush | done | failed
  deriving DecidableEq, Repr

/-- `OP` (10_state.md R21). Value 3 is never held. -/
inductive Op where
  | none | unpack | pack
  deriving DecidableEq, Repr

/-- `ERR`, the four error kinds and `None` (10_state.md R23; 60_exceptions.md R240). -/
inductive Err where
  | none | invalidMagic | truncatedInput | invalidOffset | sizeMismatch
  deriving DecidableEq, Repr

/-- A byte store as address and byte pairs in canonical form: addresses strictly rising (`Mem.wf`). An address that
is not listed holds no written byte. -/
abbrev Mem := List Host.Cell

/-- The host registers whose writes are ignored (10_state.md R45). -/
inductive RoReg where
  | status | err | unpackedSize | outLen | spos | dpos
  deriving DecidableEq, Repr

/-- One thing that happens next, as the host decides (43_container.md R220, R230; 70_reset_and_hazards.md R270).
`tick` lets the block take one step. -/
inductive HostEvent where
  /-- Places the input bytes in SRC, from index 0. -/
  | load (bytes : List Byte)
  /-- Writes the 2-bit register `CMD`. -/
  | writeCmd (v : BitVec 2)
  /-- Writes `SRC_LEN`. -/
  | writeSrcLen (v : Pos)
  /-- Writes a read-only register. -/
  | writeReadOnly (r : RoReg) (v : Pos)
  /-- Asserts the reset input. -/
  | reset
  /-- Does nothing while the block takes one step. -/
  | tick
  deriving DecidableEq, Repr

/-- The state. The first group is the configuration of the instance, which no step writes (10_state.md R48 (a)); the
next is the tuple of 10_state.md R20 in its order; `src` and `dst` are the buffers of 20_memory.md R60; `host` and
`epoch` are the model's own (log entries 4 and 2). -/
structure State where
  /-- `FLAG_ORDER`, `DIST_MAP`, `LEN_MAP`, `OVERSHOOT` of this instance (00_scope.md R7). -/
  cfg : Params
  /-- `OP` (R21). -/
  op : Op
  /-- `ST` (R22). -/
  st : St
  /-- `ERR` (R23). -/
  err : Err
  /-- `SRC_LEN` (R28). -/
  srcLen : Pos
  /-- `SPOS`, the program counter (R26). -/
  spos : Pos
  /-- `UNPACKED_SIZE` (R24). -/
  unpackedSize : Word
  /-- `ACC` (R29). -/
  acc : Word
  /-- `OUT_LEN` (R25). -/
  outLen : Word
  /-- `FLAGS` (R30). -/
  flags : Byte
  /-- `FCNT` (R31). -/
  fcnt : BitVec 4
  /-- `DISTB` (R32). -/
  distb : Byte
  /-- `DIST` (R33). -/
  dist : BitVec 9
  /-- `REM` (R34). -/
  rem : BitVec 9
  /-- `HIST[0..255]` (R36). -/
  hist : Mem
  /-- `HCNT` (R39). -/
  hcnt : BitVec 8
  /-- `P` (R38). -/
  p : Word
  /-- `CD` (R40). -/
  cd : BitVec 9
  /-- `CL` (R40). -/
  cl : BitVec 9
  /-- `BD` (R41). -/
  bd : BitVec 9
  /-- `BL` (R41). -/
  bl : BitVec 9
  /-- `GFLAGS` (R42). -/
  gflags : Byte
  /-- `GCNT` (R42). -/
  gcnt : BitVec 4
  /-- `GBUF[0..15]` (R43). -/
  gbuf : Mem
  /-- `GLEN` (R43). -/
  glen : BitVec 5
  /-- `GIDX` (R43). -/
  gidx : BitVec 5
  /-- `DPOS` (R44). -/
  dpos : Pos
  /-- SRC, the input buffer (20_memory.md R61). -/
  src : Mem
  /-- DST, the output buffer (20_memory.md R63). -/
  dst : Mem
  /-- What happens next, oldest first; empty: the block steps on (log entry 4). -/
  host : List HostEvent
  /-- How many resets the block has had; selects the free contents of HIST and GBUF (log entry 2). -/
  epoch : Nat
  deriving DecidableEq, Repr

/-- Why the machine stops with a fault. -/
inductive Fault where
  /-- Raised by an item's meaning run in a state that does not select the item: `ST` is none of the item's states, or
  the selector bit at the consumption end tells the other token kind (30_encoding.md R90, R95). `step` never raises it.
  Safe. -/
  | itemNotSelected
  /-- Raised by a step taken while a register holds a value that the step's rule excludes in its Operands clause; such a
  state is unreachable and the spec has it `stuck` (93_implementation_defined.md U16; 00_scope.md R14). Safe. -/
  | valueNeverHeld
  deriving DecidableEq, Repr

/-- Why the model gives no meaning. -/
inductive Refusal where
  /-- An instruction that has no meaning yet, by its mnemonic in spec/opcode_table.json. Raised by `exec`. Safe. -/
  | notModelled (mnemonic : String)
  /-- The host places bytes in SRC during a run: "the spec gives such a run no meaning" (20_memory.md R80;
  93_implementation_defined.md U12). Raised by the host event `load`. Safe. -/
  | srcWrittenDuringRun
  deriving DecidableEq, Repr

/-- The state after reset (10_state.md R50; 70_reset_and_hazards.md R270): `IDLE`, every scalar register 0, HIST and
GBUF unspecified, so nothing listed in them; SRC and DST are the host's and list nothing; nothing is pending. -/
def State.reset : State :=
  { cfg := Params.default, op := .none, st := .idle, err := .none, srcLen := 0, spos := 0, unpackedSize := 0,
    acc := 0, outLen := 0, flags := 0, fcnt := 0, distb := 0, dist := 0, rem := 0, hist := [], hcnt := 0, p := 0,
    cd := 0, cl := 0, bd := 0, bl := 0, gflags := 0, gcnt := 0, gbuf := [], glen := 0, gidx := 0, dpos := 0,
    src := [], dst := [], host := [], epoch := 0 }

end Sys2Proof.Machine
end

