-- ==== Sys2Proof/Machine/Operands.lean ====
section
/-! DEFINITION. Operand forms: the raw and logical values of the distance and length bytes (30_encoding.md R97, R98),
the place of a selector in a flag byte (R101), and the numeric codes of `ST`, `OP`, `ERR` (10_state.md R21 to R23). -/

namespace Sys2Proof.Machine

/-- `map(raw)`: the logical value, in `least .. greatest`, of a raw byte (30_encoding.md R97, R98). -/
def mapRaw (m : FieldMap) (least greatest : Nat) (raw : Byte) : Nat :=
  match m with
  | .bias1 => raw.toNat + least
  | .zeroIs256 => if raw.toNat = 0 then greatest else raw.toNat

/-- `unmap(v)`: the raw byte of a logical value in `least .. greatest` (30_encoding.md R97, R98). -/
def unmapLogical (m : FieldMap) (least greatest v : Nat) : Byte :=
  match m with
  | .bias1 => BitVec.ofNat 8 (v - least)
  | .zeroIs256 => BitVec.ofNat 8 (v % greatest)

/-- `map_D(raw)` (30_encoding.md R97). -/
def mapD (c : Params) (raw : Byte) : Nat := mapRaw c.distMap Config.doc.minDist Config.doc.maxDist raw

/-- `map_L(raw)` (30_encoding.md R98). -/
def mapL (c : Params) (raw : Byte) : Nat := mapRaw c.lenMap Config.doc.minLen Config.doc.maxLen raw

/-- `unmap_D(v)` (30_encoding.md R97). -/
def unmapD (c : Params) (v : Nat) : Byte := unmapLogical c.distMap Config.doc.minDist Config.doc.maxDist v

/-- `unmap_L(v)` (30_encoding.md R98). -/
def unmapL (c : Params) (v : Nat) : Byte := unmapLogical c.lenMap Config.doc.minLen Config.doc.maxLen v

/-- `flagpos(k)`: the bit of a flag byte that classifies the group's `k`-th token (30_encoding.md R101). -/
def flagpos (o : FlagOrder) (k : Nat) : Nat :=
  match o with
  | .lsbFirst => k
  | .msbFirst => Config.doc.groupSize - 1 - k

/-- The selector of a group's `k`-th token, at its place in the flag byte, every other bit 0 (30_encoding.md R101). -/
def selectorBit (o : FlagOrder) (k : Nat) (sel : Bool) : Byte :=
  ((BitVec.ofBool sel).setWidth 8) <<< flagpos o k

/-- The numeric code of `ST` (10_state.md R22). -/
def stCode : St → Nat
  | .idle => 0 | .uMagic => 1 | .uSize => 2 | .uPad => 3 | .dFlag => 4 | .dTok => 5 | .dLen => 6 | .dCopy => 7
  | .pHdr => 8 | .pNext => 9 | .pScan => 10 | .pEmit => 11 | .pFlush => 12 | .done => 14 | .failed => 15

/-- The numeric code of `OP` (10_state.md R21). -/
def opCode : Op → Nat
  | .none => 0 | .unpack => 1 | .pack => 2

/-- The numeric code of `ERR` (10_state.md R23; 60_exceptions.md R240). -/
def errCode : Err → Nat
  | .none => 0 | .invalidMagic => 1 | .truncatedInput => 2 | .invalidOffset => 3 | .sizeMismatch => 4

end Sys2Proof.Machine
end

