-- ==== Sys2Proof/Machine/Flags.lean ====
section
/-! DEFINITION. Flags: the status flags derived from `ST` and the `STATUS` word (10_state.md R35, R47), the decoder's
queue of flag bits (10_state.md R30, R31; 41_decoder.md R142), and the packer's flag accumulator (10_state.md R42). -/

namespace Sys2Proof.Machine

/-- `DONE` (10_state.md R35). -/
def State.isDone (s : State) : Bool := s.st == .done

/-- `FAILED` (10_state.md R35). -/
def State.isFailed (s : State) : Bool := s.st == .failed

/-- `BUSY`: `ST` is none of `IDLE`, `Done`, `Failed` (10_state.md R35). -/
def State.busy (s : State) : Bool := !(s.st == .idle || s.st == .done || s.st == .failed)

/-- The `STATUS` register (10_state.md R47): `ST` in bits 3:0, `BUSY` bit 4, `DONE` bit 5, `FAILED` bit 6, `OP` in
bits 9:8, the rest 0. -/
def State.status (s : State) : BitVec 32 :=
  BitVec.ofNat 32
    (stCode s.st + 2 ^ 4 * s.busy.toNat + 2 ^ 5 * s.isDone.toNat + 2 ^ 6 * s.isFailed.toNat + 2 ^ 8 * opCode s.op)

/-- The bit at the consumption end of a flag queue (10_state.md R30): the place of a group's first selector. -/
def headSelector (o : FlagOrder) (flags : Byte) : Bool := flags.getLsbD (flagpos o 0)

/-- The queue after its head is taken, a 0 shifted in (10_state.md R30). -/
def shiftFlags (o : FlagOrder) (flags : Byte) : Byte :=
  match o with
  | .lsbFirst => flags >>> 1
  | .msbFirst => flags <<< 1

/-- The selector that classifies the next token (41_decoder.md R142). -/
def State.selector (s : State) : Bool := headSelector s.cfg.flagOrder s.flags

/-- `load(b)` (41_decoder.md R142). -/
def State.loadFlags (s : State) (b : Byte) : State :=
  { s with flags := b, fcnt := BitVec.ofNat 4 Config.doc.groupSize }

/-- The register writes of `pop()` (41_decoder.md R142). -/
def State.popFlag (s : State) : State :=
  { s with flags := shiftFlags s.cfg.flagOrder s.flags, fcnt := s.fcnt - 1 }

/-- `GFLAGS` with the given selector at the place of the next token of the group being assembled (42_encoder.md R189:
`GFLAGS | (1 << flagpos(GCNT))` for `FLAG_LZ`; for `FLAG_RAW` the bit stays 0). -/
def State.withSelector (s : State) (sel : Bool) : Byte :=
  s.gflags ||| selectorBit s.cfg.flagOrder s.gcnt.toNat sel

end Sys2Proof.Machine
end

