-- ==== Sys2Proof/Machine/Ops.lean ====
section
/-! DEFINITION. The shared operations: byte stores, reads of SRC, HIST and GBUF, failure entry (60_exceptions.md R246),
`Append` and `TokenDone` (41_decoder.md R148, R149), output by PACK, and the Operands clauses of the step rules. -/

namespace Sys2Proof.Machine

/-- The byte written at an address, if one has been. -/
def Mem.cell? : Mem → Nat → Option Byte
  | [], _ => none
  | (k, b) :: m, a => if a = k then some b else Mem.cell? m a

/-- Writes one byte, keeping the addresses strictly rising. -/
def Mem.put : Mem → Nat → Byte → Mem
  | [], a, v => [(a, v)]
  | (k, b) :: m, a, v =>
    if a < k then (a, v) :: (k, b) :: m
    else if a = k then (a, v) :: m
    else (k, b) :: Mem.put m a v

/-- Writes bytes at rising addresses from `a`. -/
def Mem.putBytes : Mem → Nat → List Byte → Mem
  | m, _, [] => m
  | m, a, b :: bs => Mem.putBytes (Mem.put m a b) (a + 1) bs

/-- The store that holds exactly the given bytes from address `a` on. -/
def Mem.ofBytes : Nat → List Byte → Mem
  | _, [] => []
  | a, b :: bs => (a, b) :: Mem.ofBytes (a + 1) bs

/-- All addresses of a store are at least `a` and strictly rising. -/
def Mem.risingFrom : Nat → Mem → Bool
  | _, [] => true
  | a, (k, _) :: m => decide (a ≤ k) && Mem.risingFrom (k + 1) m

/-- The canonical form: addresses strictly rising. An unlisted address holds no written byte, so no entry equals what
an unlisted address reads as. -/
def Mem.wf (m : Mem) : Bool := Mem.risingFrom 0 m

/-- The written bytes among the first `n` addresses, in order. -/
def Mem.firstBytes (m : Mem) (n : Nat) : List Byte := (List.range n).filterMap (Mem.cell? m)

/-- `MemRead(SRC, a, 1)` (20_memory.md R62, R72); a byte the host never placed is a free value (log entry 3). -/
def State.srcByte (s : State) (a : Nat) : Byte := (Mem.cell? s.src a).getD (Config.hostByte a)

/-- `HIST[i]` (10_state.md R36); an unwritten cell is a free value (log entry 2). -/
def State.histByte (s : State) (i : Nat) : Byte := (Mem.cell? s.hist i).getD (Config.unwrittenByte .hist s.epoch i)

/-- `GBUF[j]` (10_state.md R43); an unwritten cell is a free value (log entry 2). -/
def State.gbufByte (s : State) (j : Nat) : Byte := (Mem.cell? s.gbuf j).getD (Config.unwrittenByte .gbuf s.epoch j)

/-- `SrcExhausted`: `SPOS = SRC_LEN` (00_scope.md R12). -/
def State.srcExhausted (s : State) : Bool := s.spos == s.srcLen

/-- `SPOS <- SPOS + 1` (10_state.md R26). -/
def State.advance (s : State) : State := { s with spos := s.spos + 1 }

/-- Failure entry, `raise kind` (60_exceptions.md R246): `ST <- Failed`, `ERR <- code(kind)`, nothing else. -/
def State.raise (s : State) (kind : Err) : State := { s with st := .failed, err := kind }

/-- Leaving the state of a step for another. -/
def State.goto (s : State) (st : St) : State := { s with st := st }

/-- `Append(v)` (41_decoder.md R148): the byte goes to DST and to HIST at `OUT_LEN`, then `OUT_LEN` advances. -/
def State.append (s : State) (v : Byte) : State :=
  { s with dst := Mem.put s.dst s.outLen.toNat v,
           hist := Mem.put s.hist (s.outLen.toNat % Config.doc.histSize) v,
           outLen := s.outLen + 1 }

/-- The state that follows a completed token (41_decoder.md R149). -/
def State.afterToken (s : State) : St :=
  if s.outLen = s.unpackedSize then .done else if s.fcnt = 0 then .dFlag else .dTok

/-- `TokenDone` (41_decoder.md R149). -/
def State.tokenDone (s : State) : State := { s with st := s.afterToken }

/-- `MemWrite(DST, DPOS, 1, v); DPOS <- DPOS + 1` (40_header_codec.md R126; 42_encoder.md R190). -/
def State.emit (s : State) (v : Byte) : State :=
  { s with dst := Mem.put s.dst s.dpos.toNat v, dpos := s.dpos + 1 }

/-- The register values that the Operands clause of the step rule of `ST` admits. They hold in every state a run
reaches (00_scope.md R14; 41_decoder.md R156); elsewhere the spec has the machine `stuck` (93_implementation_defined.md
U16; log entry 6). -/
def State.operandsHeld (s : State) : Bool :=
  match s.st with
  | .idle => true
  | .uMagic => decide (s.spos.toNat < Config.doc.sizeOffset) && decide (s.spos.toNat ≤ s.srcLen.toNat)
  | .uSize =>
    decide (Config.doc.sizeOffset ≤ s.spos.toNat) && decide (s.spos.toNat < Config.doc.padOffset) &&
      decide (s.spos.toNat ≤ s.srcLen.toNat)
  | .uPad =>
    decide (Config.doc.padOffset ≤ s.spos.toNat) && decide (s.spos.toNat < Config.doc.bodyOffset) &&
      decide (s.spos.toNat ≤ s.srcLen.toNat)
  | .dFlag => decide (s.spos.toNat ≤ s.srcLen.toNat)
  | .dTok =>
    decide (1 ≤ s.fcnt.toNat) && decide (s.fcnt.toNat ≤ Config.doc.groupSize) &&
      decide (s.outLen.toNat < s.unpackedSize.toNat) && decide (s.spos.toNat ≤ s.srcLen.toNat)
  | .dLen => decide (s.spos.toNat ≤ s.srcLen.toNat)
  | .dCopy =>
    decide (Config.doc.minDist ≤ s.dist.toNat) && decide (s.dist.toNat ≤ s.outLen.toNat) && decide (Config.doc.minLen ≤ s.rem.toNat) &&
      decide (s.rem.toNat ≤ Config.doc.maxLen) && decide (s.outLen.toNat < s.unpackedSize.toNat)
  | .pHdr => decide (s.hcnt.toNat < Config.doc.headerSize) && decide (s.dpos.toNat < 2 ^ 33)
  | .pNext => decide (s.p.toNat ≤ s.srcLen.toNat)
  | .pScan => decide (s.p.toNat < s.srcLen.toNat)
  | .pEmit =>
    decide (s.p.toNat < s.srcLen.toNat) && decide (s.gcnt.toNat < Config.doc.groupSize) &&
      decide (s.glen.toNat + 2 ≤ Config.doc.gbufSize) && decide (s.p.toNat + s.bl.toNat ≤ s.srcLen.toNat) &&
      decide (s.srcLen.toNat < 2 ^ 32) && decide (s.bl.toNat ≤ Config.doc.maxLen) &&
      (decide (s.bl.toNat < Config.doc.minMatch) ||
        (decide (Config.doc.minDist ≤ s.bd.toNat) && decide (s.bd.toNat ≤ Config.doc.maxDist)))
  | .pFlush =>
    decide (1 ≤ s.gcnt.toNat) && decide (1 ≤ s.glen.toNat) && decide (s.glen.toNat ≤ Config.doc.gbufSize) &&
      decide (s.gidx.toNat ≤ s.glen.toNat) && decide (s.dpos.toNat < 2 ^ 33)
  | .done => true
  | .failed => true

/-- A step's outcome: its next state where the registers hold values its rule admits. -/
def State.guarded (s t : State) : Host.Outcome State Fault Refusal :=
  if s.operandsHeld then .next t else .fault .valueNeverHeld

end Sys2Proof.Machine
end

