-- ==== Sys2Proof/Machine/Commands.lean ====
section
/-! DEFINITION. The host contract (43_container.md R220 to R230; 10_state.md R45 to R47): the two commands and START,
the other host writes, reset, and what the host reads. -/

namespace Sys2Proof.Machine

/-- START of an operation (43_container.md R223; 10_state.md R51): every scalar register but `SRC_LEN` is written, DST
is empty, HIST and GBUF keep what they held. -/
def State.start (s : State) (op : Op) (st : St) (size : Word) : State :=
  { s with op := op, st := st, err := .none, spos := 0, unpackedSize := size, acc := 0, outLen := 0, flags := 0,
           fcnt := 0, distb := 0, dist := 0, rem := 0, hcnt := 0, p := 0, cd := 0, cl := 0, bd := 0, bl := 0,
           gflags := 0, gcnt := 0, glen := 0, gidx := 0, dpos := 0, dst := [] }

/-- UNPACK: START where the block is not busy, ignored otherwise (43_container.md R221, R230). -/
def execUnpack (s : State) : Host.Outcome State Fault Refusal :=
  .next (if s.busy then s else s.start .unpack .uMagic 0)

/-- PACK: START where the block is not busy and `SRC_LEN < 2^32`, ignored otherwise (43_container.md R222, R230;
decision D12). -/
def execPack (s : State) : Host.Outcome State Fault Refusal :=
  .next
    (if s.busy then s
     else if s.srcLen.toNat < 2 ^ 32 then s.start .pack .pHdr (s.srcLen.setWidth 32)
     else s)

/-- A host write of `SRC_LEN`, which takes effect only while `BUSY = 0` (10_state.md R28, R45). -/
def hostWriteSrcLen (v : Pos) (s : State) : State := if s.busy then s else { s with srcLen := v }

/-- The host places the input bytes in SRC (43_container.md R220; 70_reset_and_hazards.md R273). During a run the
contract excludes it (20_memory.md R80). -/
def hostLoad (bytes : List Byte) (s : State) : Host.Outcome State Fault Refusal :=
  if s.busy then .refused .srcWrittenDuringRun else .next { s with src := Mem.ofBytes 0 bytes }

/-- Reset at any moment (70_reset_and_hazards.md R270; 10_state.md R50): the values of `State.reset`, but for the
configuration, the buffers SRC and DST and the host's own list; HIST and GBUF are unspecified anew. -/
def hostReset (s : State) : State :=
  { State.reset with cfg := s.cfg, src := s.src, dst := s.dst, host := s.host, epoch := s.epoch + 1 }

/-- A host register, by name (10_state.md R45). -/
inductive HostReg where
  | cmd
  | srcLen
  | readOnly (r : RoReg)
  deriving DecidableEq, Repr

/-- What a host read of a register gives, zero-extended (10_state.md R45; `CMD` reads as 0, R46). -/
def hostRead (s : State) : HostReg → Pos
  | .cmd => 0
  | .srcLen => s.srcLen
  | .readOnly .status => s.status.setWidth 34
  | .readOnly .err => BitVec.ofNat 34 (errCode s.err)
  | .readOnly .unpackedSize => s.unpackedSize.setWidth 34
  | .readOnly .outLen => s.outLen.setWidth 34
  | .readOnly .spos => s.spos
  | .readOnly .dpos => s.dpos

/-- The result the host takes from DST after the run (43_container.md R220, R229): `DST[0 .. OUT_LEN-1]` after UNPACK,
`DST[0 .. DPOS-1]` after PACK, nothing unless `DONE`. -/
def hostResult (s : State) : Option (List Byte) :=
  match s.st, s.op with
  | .done, .unpack => some (Mem.firstBytes s.dst s.outLen.toNat)
  | .done, .pack => some (Mem.firstBytes s.dst s.dpos.toNat)
  | _, _ => none

end Sys2Proof.Machine
end

