-- ==== Sys2Proof/Machine/Header.lean ====
section
/-! DEFINITION. The Header Codec at step level (40_header_codec.md): the magic validator, the size extractor and the
padding skip, which are the meaning of HEADER, and the header emitter of PACK. -/

namespace Sys2Proof.Machine

/-- P-R121, the `U_MAGIC` step, given the byte it reads (40_header_codec.md R121). -/
def magicStep (b : Byte) (s : State) : State :=
  if s.srcExhausted then s.raise .truncatedInput
  else
    let acc := s.acc ||| (b.setWidth 32 <<< (8 * (s.spos.toNat - Config.doc.magicOffset)))
    let t := { s.advance with acc := acc }
    if s.spos.toNat + 1 = Config.doc.sizeOffset then
      if acc = Config.doc.magic then t.goto .uSize else t.raise .invalidMagic
    else t

/-- P-R122, the `U_SIZE` step, given the byte it reads (40_header_codec.md R122). -/
def sizeStep (b : Byte) (s : State) : State :=
  if s.srcExhausted then s.raise .truncatedInput
  else
    let size := s.unpackedSize ||| (b.setWidth 32 <<< (8 * (s.spos.toNat - Config.doc.sizeOffset)))
    let t := { s.advance with unpackedSize := size }
    if s.spos.toNat + 1 = Config.doc.padOffset then t.goto .uPad else t

/-- P-R123, the `U_PAD` step; the byte is not inspected (40_header_codec.md R123). -/
def padStep (s : State) : State :=
  if s.srcExhausted then s.raise .truncatedInput
  else if s.spos.toNat + 1 = Config.doc.bodyOffset then s.advance.goto .dFlag else s.advance

/-- HEADER: the step of the header record that `ST` and `SPOS` are at, byte `SPOS` of the record being the one it
takes (40_header_codec.md R121, R122, R123; run 128 times, R124). -/
def execHeader (unpackedSize : Word) (pad : List Byte) (s : State) : Host.Outcome State Fault Refusal :=
  match s.st with
  | .uMagic => s.guarded (magicStep (itemByte (.header unpackedSize pad) s.spos.toNat) s)
  | .uSize => s.guarded (sizeStep (itemByte (.header unpackedSize pad) s.spos.toNat) s)
  | .uPad => s.guarded (padStep s)
  | _ => .fault .itemNotSelected

/-- The header byte that PACK emits at `HCNT` (40_header_codec.md R126). -/
def emittedHeaderByte (s : State) : Byte :=
  if s.hcnt.toNat < Config.doc.sizeOffset then wordByte Config.doc.magic (s.hcnt.toNat - Config.doc.magicOffset)
  else if s.hcnt.toNat < Config.doc.padOffset then wordByte s.unpackedSize (s.hcnt.toNat - Config.doc.sizeOffset)
  else 0

/-- P-R126, the `P_HDR` step (40_header_codec.md R126). -/
def hdrStep (s : State) : State :=
  let t := { s.emit (emittedHeaderByte s) with hcnt := s.hcnt + 1 }
  if s.hcnt.toNat + 1 = Config.doc.headerSize then t.goto .pNext else t

end Sys2Proof.Machine
end

