-- ==== Sys2Proof/Machine/Decoder.lean ====
section
/-! DEFINITION. The Decoder at step level (41_decoder.md): the flag group consumer, the token parser, the history
lookback, which are the meanings of FLAG, LITERAL and COPY. -/

namespace Sys2Proof.Machine

/-- P-R141, the `D_FLAG` step, given the byte it reads: the Done check stands first (41_decoder.md R141). -/
def flagStep (b : Byte) (s : State) : State :=
  if s.outLen = s.unpackedSize then s.goto .done
  else if s.srcExhausted then s.raise .truncatedInput
  else (s.loadFlags b).advance.goto .dTok

/-- P-R143, the `D_TOK` step, given the byte it reads (41_decoder.md R143, R144). -/
def tokStep (x : Byte) (s : State) : State :=
  if s.srcExhausted then s.raise .truncatedInput
  else if s.selector = Config.doc.flagRaw then (s.popFlag.advance.append x).tokenDone
  else { s.popFlag.advance with distb := x, st := .dLen }

/-- P-R145, the `D_LEN` step, given the byte it reads (41_decoder.md R145). -/
def lenStep (y : Byte) (s : State) : State :=
  if s.srcExhausted then s.raise .truncatedInput
  else
    let d := mapD s.cfg s.distb
    let l := mapL s.cfg y
    let t := { s.advance with dist := BitVec.ofNat 9 d, rem := BitVec.ofNat 9 l }
    if s.outLen.toNat < d then t.raise .invalidOffset
    else if s.cfg.overshoot = .fault ∧ s.unpackedSize.toNat < s.outLen.toNat + l then t.raise .sizeMismatch
    else t.goto .dCopy

/-- The HIST index a `D_COPY` step reads (41_decoder.md R151). -/
def lookbackIndex (s : State) : Nat := (s.outLen.toNat - s.dist.toNat) % Config.doc.histSize

/-- The state after a copied byte (41_decoder.md R146): the Done check is tested first. -/
def State.afterCopiedByte (s : State) : St :=
  if s.outLen = s.unpackedSize then .done
  else if s.rem = 0 then (if s.fcnt = 0 then .dFlag else .dTok)
  else .dCopy

/-- P-R146, the `D_COPY` step: the HIST read precedes the write (41_decoder.md R146, R150;
70_reset_and_hazards.md R276). -/
def copyStep (s : State) : State :=
  let t := { s.append (s.histByte (lookbackIndex s)) with rem := s.rem - 1 }
  t.goto t.afterCopiedByte

/-- FLAG: the `D_FLAG` step on this flag byte (41_decoder.md R141, R142). -/
def execFlag (selectors : Byte) (s : State) : Host.Outcome State Fault Refusal :=
  match s.st with
  | .dFlag => s.guarded (flagStep selectors s)
  | _ => .fault .itemNotSelected

/-- LITERAL: the `D_TOK` step on this payload byte, selected by a 0 bit (41_decoder.md R143, R144). -/
def execLiteral (byte : Byte) (s : State) : Host.Outcome State Fault Refusal :=
  match s.st with
  | .dTok => if s.selector = Config.doc.flagRaw then s.guarded (tokStep byte s) else .fault .itemNotSelected
  | _ => .fault .itemNotSelected

/-- COPY: the step of the token that `ST` is at: the distance byte in `D_TOK` where a 1 bit selects it, the length byte
in `D_LEN`, one copied byte in `D_COPY` (41_decoder.md R143, R145, R146; run to the token's end, R147). -/
def execCopy (distanceByte lengthByte : Byte) (s : State) : Host.Outcome State Fault Refusal :=
  match s.st with
  | .dTok => if s.selector = Config.doc.flagLz then s.guarded (tokStep distanceByte s) else .fault .itemNotSelected
  | .dLen => s.guarded (lenStep lengthByte s)
  | .dCopy => s.guarded (copyStep s)
  | _ => .fault .itemNotSelected

/-- The step rule of an UNPACK state on the byte at `SPOS`, whatever it and the bytes after it spell: how a header
whose magic is wrong, or an item the source ends within, is read up to the step that fails (43_container.md R224). -/
def bytewiseStep (s : State) : Host.Outcome State Fault Refusal :=
  match s.st with
  | .uMagic => s.guarded (magicStep (s.srcByte s.spos.toNat) s)
  | .uSize => s.guarded (sizeStep (s.srcByte s.spos.toNat) s)
  | .uPad => s.guarded (padStep s)
  | .dFlag => s.guarded (flagStep (s.srcByte s.spos.toNat) s)
  | .dTok => s.guarded (tokStep (s.srcByte s.spos.toNat) s)
  | .dLen => s.guarded (lenStep (s.srcByte s.spos.toNat) s)
  | .dCopy => s.guarded (copyStep s)
  | _ => .next s

end Sys2Proof.Machine
end

