-- ==== Sys2Proof/Machine/Dispatch.lean ====
section
/-! DEFINITION. One arm per instruction, each one call of its meaning. -/

namespace Sys2Proof.Machine

def exec (i : Instr) (s : State) : Host.Outcome State Fault Refusal :=
  match i with
  | .header unpackedSize pad => Sys2Proof.Machine.execHeader unpackedSize pad s
  | .flag selectors => Sys2Proof.Machine.execFlag selectors s
  | .literal byte => Sys2Proof.Machine.execLiteral byte s
  | .copy distanceByte lengthByte => Sys2Proof.Machine.execCopy distanceByte lengthByte s
  | .unpack => Sys2Proof.Machine.execUnpack s
  | .pack => Sys2Proof.Machine.execPack s

end Sys2Proof.Machine
end

