-- ==== Sys2Proof/Machine/Encoder.lean ====
section
/-! DEFINITION. The Match Finder / Encoder at step level (42_encoder.md R186 to R190): token boundary, history scanner
with the distance/length optimizer, emission rule, and the flush of a group. Together with `hdrStep` these are the steps
of a PACK run. -/

namespace Sys2Proof.Machine

/-- The largest candidate distance at `P`, `maxd` (42_encoder.md R187). -/
def maxDistAt (s : State) : Nat := min Config.doc.maxDist s.p.toNat

/-- The cap on a match at `P`, `maxl` (42_encoder.md R181, R187). -/
def maxLenAt (s : State) : Nat := min Config.doc.maxLen (s.srcLen.toNat - s.p.toNat)

/-- P-R186, the `P_NEXT` step (42_encoder.md R186). -/
def nextStep (s : State) : State :=
  if s.p.toNat = s.srcLen.toNat then s.goto (if 0 < s.gcnt.toNat then .pFlush else .done)
  else { s with cd := BitVec.ofNat 9 Config.doc.minDist, cl := 0, bd := 0, bl := 0, st := .pScan }

/-- P-R187, the `P_SCAN` step: one comparison of the candidate `CD`, or its close (42_encoder.md R187). -/
def scanStep (s : State) : State :=
  if maxDistAt s < s.cd.toNat then s.goto .pEmit
  else if s.cl.toNat < maxLenAt s ∧
      s.srcByte (s.p.toNat + s.cl.toNat) = s.srcByte (s.p.toNat + s.cl.toNat - s.cd.toNat) then
    { s with cl := s.cl + 1 }
  else
    { s with bl := if s.bl.toNat < s.cl.toNat then s.cl else s.bl,
             bd := if s.bl.toNat < s.cl.toNat then s.cd else s.bd,
             cd := s.cd + 1, cl := 0 }

/-- Queues a Copy of the best match found (42_encoder.md R189, first branch). -/
def queueCopy (s : State) : State :=
  { s with gflags := s.withSelector Config.doc.flagLz,
           gbuf := Mem.put (Mem.put s.gbuf s.glen.toNat (unmapD s.cfg s.bd.toNat)) (s.glen.toNat + 1)
             (unmapL s.cfg s.bl.toNat),
           glen := s.glen + 2,
           p := s.p + s.bl.setWidth 32 }

/-- Queues a Literal of the byte at `P` (42_encoder.md R189, second branch). -/
def queueLiteral (s : State) : State :=
  { s with gflags := s.withSelector Config.doc.flagRaw,
           gbuf := Mem.put s.gbuf s.glen.toNat (s.srcByte s.p.toNat),
           glen := s.glen + 1,
           p := s.p + 1 }

/-- P-R189, the `P_EMIT` step (42_encoder.md R184, R189). -/
def emitStep (s : State) : State :=
  let t := if Config.doc.minMatch ≤ s.bl.toNat then queueCopy s else queueLiteral s
  { t with gcnt := s.gcnt + 1, st := if s.gcnt.toNat + 1 = Config.doc.groupSize then .pFlush else .pNext }

/-- The byte of the group that a `P_FLUSH` step writes: the flag byte first (42_encoder.md R190). -/
def flushedByte (s : State) : Byte :=
  if s.gidx.toNat = 0 then s.gflags else s.gbufByte (s.gidx.toNat - 1)

/-- P-R190, the `P_FLUSH` step (42_encoder.md R190). -/
def flushStep (s : State) : State :=
  let t := s.emit (flushedByte s)
  if s.gidx.toNat = s.glen.toNat then { t with gflags := 0, gcnt := 0, glen := 0, gidx := 0, st := .pNext }
  else { t with gidx := s.gidx + 1 }

/-- The step rule of a PACK state (43_container.md R224). -/
def encoderStep (s : State) : Host.Outcome State Fault Refusal :=
  match s.st with
  | .pHdr => s.guarded (hdrStep s)
  | .pNext => s.guarded (nextStep s)
  | .pScan => s.guarded (scanStep s)
  | .pEmit => s.guarded (emitStep s)
  | .pFlush => s.guarded (flushStep s)
  | _ => .next s

end Sys2Proof.Machine
end

