-- ==== Sys2Proof/Machine/Fetch.lean ====
section
/-! DEFINITION. Fetching: which item the state selects and where it starts in SRC (30_encoding.md R90, R95;
10_state.md R26), the item that the bytes there spell, and the state in which a given item is the next one. -/

namespace Sys2Proof.Machine

/-- The bytes of SRC from `a` on, at most `n`, none at or above `SRC_LEN` (20_memory.md R62). -/
def State.srcBytes (s : State) : Nat → Nat → List Byte
  | _, 0 => []
  | a, n + 1 => if a < s.srcLen.toNat then s.srcByte a :: s.srcBytes (a + 1) n else []

/-- The slot of the item in progress and the index of its first byte (30_encoding.md R95). In `D_FLAG` with the output
complete there is no next item; in `D_LEN` and `D_COPY` one and two bytes of the Copy are behind `SPOS`. -/
def State.itemSlot? (s : State) : Option (Slot × Nat) :=
  match s.st with
  | .uMagic => some (.header, Config.doc.magicOffset)
  | .uSize => some (.header, Config.doc.magicOffset)
  | .uPad => some (.header, Config.doc.magicOffset)
  | .dFlag => if s.outLen = s.unpackedSize then none else some (.flag, s.spos.toNat)
  | .dTok => some (.token s.selector, s.spos.toNat)
  | .dLen => if 1 ≤ s.spos.toNat then some (.token Config.doc.flagLz, s.spos.toNat - 1) else none
  | .dCopy => if 2 ≤ s.spos.toNat then some (.token Config.doc.flagLz, s.spos.toNat - 2) else none
  | _ => none

/-- The item that the bytes of the selected slot spell, if they spell one. -/
def fetchItem (s : State) : Option Instr :=
  match s.itemSlot? with
  | none => none
  | some (slot, a) =>
    match decode slot (s.srcBytes a (slotLength slot)) with
    | .ok (i, _) => some i
    | .error _ => none

/-- `SRC` with the given bytes at `a`, and `SRC_LEN` reaching past them. -/
def State.placeBytes (s : State) (a : Nat) (bytes : List Byte) : State :=
  { s with src := Mem.putBytes s.src a bytes,
           srcLen := if a + bytes.length ≤ s.srcLen.toNat then s.srcLen else BitVec.ofNat 34 (a + bytes.length) }

/-- `SPOS` where two more bytes have room below `2^34`. -/
def State.withReadRoom (s : State) : State := if s.spos.toNat + 2 < 2 ^ 34 then s else { s with spos := 0 }

/-- Output still owed: `OUT_LEN < UNPACKED_SIZE`. -/
def State.withOutputOwed (s : State) : State :=
  if s.outLen.toNat < s.unpackedSize.toNat then s
  else if s.outLen.toNat + 1 < 2 ^ 32 then { s with unpackedSize := s.outLen + 1 }
  else { s with outLen := 0, unpackedSize := 1, dst := [] }

/-- A flag queue that holds at least one bit. -/
def State.withQueuedBit (s : State) : State :=
  if 1 ≤ s.fcnt.toNat ∧ s.fcnt.toNat ≤ Config.doc.groupSize then s
  else { s with fcnt := BitVec.ofNat 4 Config.doc.groupSize }

/-- The flag byte with its bit at the consumption end set to the given selector. -/
def setHeadSelector (o : FlagOrder) (flags : Byte) (sel : Bool) : Byte :=
  (flags &&& ~~~selectorBit o 0 true) ||| selectorBit o 0 sel

/-- The state in which the given bytes are the next item of an UNPACK run, or the next value the host writes to `CMD`;
all that the fetch needs is set (log entry 9). -/
def State.placeItem (s : State) (slot : Slot) (bytes : List Byte) : State :=
  match slot with
  | .command => { s with host := (bytes.take 1).map (fun c => .writeCmd (BitVec.ofNat 2 c.toNat)) }
  | .header =>
    State.placeBytes { s with host := [], op := .unpack, err := .none, st := .uMagic, spos := 0, acc := 0, unpackedSize := 0 }
      0 bytes
  | .flag =>
    let t := { s with host := [], op := .unpack, err := .none, st := .dFlag }.withReadRoom.withOutputOwed
    t.placeBytes t.spos.toNat bytes
  | .token sel =>
    let t := { s with host := [], op := .unpack, err := .none, st := .dTok,
                      flags := setHeadSelector s.cfg.flagOrder s.flags sel }.withReadRoom.withOutputOwed.withQueuedBit
    t.placeBytes t.spos.toNat bytes

end Sys2Proof.Machine
end

