-- ==== Sys2Proof/Machine/Step.lean ====
section
/-! DEFINITION. One step (43_container.md R224): what the host does next where its list names something, else one step
of the block: the item in progress in an UNPACK state, the encoder's rule in a PACK state, nothing where there is no
step. -/

namespace Sys2Proof.Machine

/-- One step of the block (43_container.md R224). In `IDLE`, `Done` and `Failed` there is no step and all state is
retained (60_exceptions.md R254; log entry 5). -/
def blockStep (s : State) : Host.Outcome State Fault Refusal :=
  match s.st with
  | .idle => .next s
  | .done => .next s
  | .failed => .next s
  | .pHdr => encoderStep s
  | .pNext => encoderStep s
  | .pScan => encoderStep s
  | .pEmit => encoderStep s
  | .pFlush => encoderStep s
  | _ =>
    match fetchItem s with
    | some i => exec i s
    | none => bytewiseStep s

/-- A host write to `CMD`: the command it gives runs, any other value has no effect (10_state.md R46). -/
def hostWriteCmd (v : BitVec 2) (s : State) : Host.Outcome State Fault Refusal :=
  match commandOf v with
  | some i => exec i s
  | none => .next s

/-- One step of the machine and its host. -/
def step (s : State) : Host.Outcome State Fault Refusal :=
  match s.host with
  | [] => blockStep s
  | .tick :: later => blockStep { s with host := later }
  | .writeCmd v :: later => hostWriteCmd v { s with host := later }
  | .writeSrcLen v :: later => .next (hostWriteSrcLen v { s with host := later })
  | .writeReadOnly _ _ :: later => .next { s with host := later }
  | .load bytes :: later => hostLoad bytes { s with host := later }
  | .reset :: later => .next (hostReset { s with host := later })

/-- The state in which the next step fetches and runs the instruction of a word of spec/opcode_table.json. -/
def State.withFetchWord (s : State) (nbits w : Nat) : State :=
  match tableItem nbits w with
  | none => s
  | some (slot, bytes) => s.placeItem slot bytes

end Sys2Proof.Machine
end

