-- ==== Sys2Proof/Machine/Function.lean ====
section
/-! DEFINITION. The function level (00_scope.md R9): `decode_header`, `encode_header` (40_header_codec.md R124, R125),
`decode_body` (41_decoder.md R155), the tokenisation and the group packer (42_encoder.md R181 to R185, R196), and
`unpack` and `pack` (43_container.md R226, R227). The step level is to agree with it. -/

namespace Sys2Proof.Machine

/-- `decode_header` (40_header_codec.md R124), its checks in the order the bytes are met. -/
def decodeHeader (bytes : List Byte) : Except Err Word :=
  if bytes.length < Config.doc.sizeOffset then .error .truncatedInput
  else if leWordAt bytes Config.doc.magicOffset ≠ Config.doc.magic then
    .error .invalidMagic
  else if bytes.length < Config.doc.headerSize then .error .truncatedInput
  else .ok (leWordAt bytes Config.doc.sizeOffset)

/-- `encode_header` (40_header_codec.md R125): magic, size, zero padding, 128 bytes. -/
def encodeHeader (n : Word) : List Byte := leBytes Config.doc.magic ++ leBytes n ++ List.replicate padLength 0

/-- The eight selectors of a flag byte in consumption order: the `k`-th is bit `flagpos(k)` (30_encoding.md R92,
R101). -/
def selectors (o : FlagOrder) (f : Byte) : List Bool :=
  (List.range Config.doc.groupSize).map (fun k => f.getLsbD (flagpos o k))

/-- The copy loop of P-R155: at most `l` bytes, each read `d` back from the end so far, none past `size`. -/
def copyLoop (size d : Nat) : Nat → List Byte → List Byte
  | 0, out => out
  | l + 1, out => if out.length = size then out else copyLoop size d l (out ++ [out.getD (out.length - d) 0])

/-- P-R155 from the middle of a group: `sels` are the selectors of the current flag byte not yet consumed, `body` the
unread bytes, `out` the output so far (41_decoder.md R155). -/
def decodeFrom (c : Params) (size : Nat) : List Bool → List Byte → List Byte → Except Err (List Byte)
  | _, [], out => if out.length = size then .ok out else .error .truncatedInput
  | [], f :: body, out =>
    if out.length = size then .ok out else decodeFrom c size (selectors c.flagOrder f) body out
  | sel :: sels, x :: body, out =>
    if out.length = size then .ok out
    else if sel = Config.doc.flagRaw then decodeFrom c size sels body (out ++ [x])
    else
      match body with
      | [] => .error .truncatedInput
      | y :: rest =>
        if out.length < mapD c x then .error .invalidOffset
        else if c.overshoot = .fault ∧ size < out.length + mapL c y then .error .sizeMismatch
        else decodeFrom c size sels rest (copyLoop size (mapD c x) (mapL c y) out)

/-- `decode_body(B, size)` (41_decoder.md R155). -/
def decodeBody (c : Params) (body : List Byte) (size : Nat) : Except Err (List Byte) :=
  decodeFrom c size [] body []

/-- `unpack` (43_container.md R226). -/
def unpackBytes (c : Params) (src : List Byte) : Except Err (List Byte) :=
  match decodeHeader src with
  | .error k => .error k
  | .ok size => decodeBody c (src.drop Config.doc.bodyOffset) size.toNat

/-- How many more leading bytes agree from `i` on, at most `k` (42_encoder.md R181). -/
def agreeing (input : List Byte) (p d : Nat) : Nat → Nat → Nat
  | 0, i => i
  | k + 1, i => if input[p + i]? = input[p + i - d]? then agreeing input p d k (i + 1) else i

/-- `maxl(p) = min(256, n - p)` (42_encoder.md R181). -/
def maxMatch (input : List Byte) (p : Nat) : Nat := min Config.doc.maxLen (input.length - p)

/-- `mlen(p, d)` (42_encoder.md R181). -/
def mlen (input : List Byte) (p d : Nat) : Nat := agreeing input p d (maxMatch input p) 0

/-- The best of the candidates `MIN_DIST` to `k`: the longest, and among equals the nearest (42_encoder.md R183). -/
def bestUpTo (input : List Byte) (p : Nat) : Nat → Nat × Nat
  | 0 => (0, 0)
  | k + 1 =>
    if Config.doc.minDist ≤ k + 1 ∧ (bestUpTo input p k).2 < mlen input p (k + 1) then (k + 1, mlen input p (k + 1))
    else bestUpTo input p k

/-- `best(p) = (bd, bl)` (42_encoder.md R183). -/
def best (input : List Byte) (p : Nat) : Nat × Nat := bestUpTo input p (min Config.doc.maxDist p)

/-- The token of 42_encoder.md R184 at `p`. -/
def tokenAt (input : List Byte) (p : Nat) : Token :=
  if Config.doc.minMatch ≤ (best input p).2 then .copy (best input p).1 (best input p).2
  else .literal (input.getD p 0)

/-- The number of output bytes a token stands for. -/
def tokenSpan : Token → Nat
  | .literal _ => 1
  | .copy _ l => l

/-- The tokens from position `p` on, at most `fuel` of them (42_encoder.md R185). -/
def tokensFrom (input : List Byte) : Nat → Nat → List Token
  | 0, _ => []
  | fuel + 1, p =>
    if p < input.length then tokenAt input p :: tokensFrom input fuel (p + tokenSpan (tokenAt input p)) else []

/-- `tokens(IN)` (42_encoder.md R185); each token covers at least one byte. -/
def tokens (input : List Byte) : List Token := tokensFrom input input.length 0

/-- The payload of a token (42_encoder.md R196). -/
def tokenPayload (c : Params) : Token → List Byte
  | .literal b => [b]
  | .copy d l => [unmapD c d, unmapL c l]

/-- The selector of a token (42_encoder.md R196; 00_scope.md R6). -/
def tokenSelector : Token → Bool
  | .literal _ => Config.doc.flagRaw
  | .copy _ _ => Config.doc.flagLz

/-- The flag byte of a group whose first token is its `k`-th, unused bits 0 (42_encoder.md R196, R197). -/
def groupFlag (o : FlagOrder) : Nat → List Token → Byte
  | _, [] => 0
  | k, t :: ts => selectorBit o k (tokenSelector t) ||| groupFlag o (k + 1) ts

/-- `GROUP[t0, ..., tm]`: the flag byte, then the payloads (30_encoding.md R109; 42_encoder.md R196). -/
def packGroup (c : Params) (ts : List Token) : List Byte :=
  groupFlag c.flagOrder 0 ts :: ts.flatMap (tokenPayload c)

/-- The groups of a token list, at most `fuel` of them. -/
def packGroups (c : Params) : Nat → List Token → List Byte
  | 0, _ => []
  | _ + 1, [] => []
  | fuel + 1, t :: ts =>
    packGroup c ((t :: ts).take Config.doc.groupSize) ++ packGroups c fuel ((t :: ts).drop Config.doc.groupSize)

/-- `pack_tokens(T)` (42_encoder.md R196). -/
def packTokens (c : Params) (ts : List Token) : List Byte := packGroups c ts.length ts

/-- `pack` (43_container.md R227), whose domain is an input shorter than `2^32` bytes. DESIGN CHOICE: on a longer input,
to which the spec gives no meaning (92_eei_decisions.md D12; 91_not_in_source.md N12), this total function puts the length
modulo `2^32` in the header; no run of the block computes it (log entry 17). -/
def packBytes (c : Params) (input : List Byte) : List Byte :=
  encodeHeader (BitVec.ofNat 32 input.length) ++ packTokens c (tokens input)

end Sys2Proof.Machine
end

