-- ==== Sys2Proof/Safety.lean ====
section
/-! DEFINITION. What counts as a safe state and a safe run, in the terms the statements use: the invariant of every
reachable state (10_state.md R20, R23, R37; 41_decoder.md R156; 42_encoder.md R202), the states a run starts in, and
reachability. -/

namespace Sys2Proof.Machine

/-- The states of an UNPACK run (10_state.md R21: 1 to 7). -/
def St.ofUnpack : St → Bool
  | .uMagic | .uSize | .uPad | .dFlag | .dTok | .dLen | .dCopy => true
  | _ => false

/-- The states of a PACK run (10_state.md R21: 8 to 12). -/
def St.ofPack : St → Bool
  | .pHdr | .pNext | .pScan | .pEmit | .pFlush => true
  | _ => false

/-- A store lists exactly the addresses below `n`. -/
def Mem.listsBelow (m : Mem) (n : Nat) : Prop := m.map Prod.fst = List.range n

/-- All four byte stores are in canonical form, and HIST and GBUF list cells of theirs only. -/
def State.storesWf (s : State) : Prop :=
  s.src.wf = true ∧ s.dst.wf = true ∧ s.hist.wf = true ∧ s.gbuf.wf = true ∧
    (∀ c ∈ s.hist, c.1 < Config.doc.histSize) ∧ (∀ c ∈ s.gbuf, c.1 < Config.doc.gbufSize)

/-- The lookback invariant (10_state.md R37), with the written extent of DST. -/
def State.lookback (s : State) : Prop :=
  s.dst.listsBelow s.outLen.toNat ∧
    ∀ i, i < s.outLen.toNat → s.outLen.toNat ≤ i + Config.doc.histSize →
      Mem.cell? s.hist (i % Config.doc.histSize) = Mem.cell? s.dst i

/-- What holds in the decode states (41_decoder.md R156 (e)). -/
def State.decoding (s : State) : Prop :=
  s.op = .unpack ∧ Config.doc.bodyOffset ≤ s.spos.toNat ∧ s.spos.toNat ≤ s.srcLen.toNat ∧ s.lookback

/-- What holds while the header of a container is read. -/
def State.readingHeader (s : State) : Prop :=
  s.op = .unpack ∧ s.spos.toNat ≤ s.srcLen.toNat ∧ s.outLen = 0 ∧ s.fcnt = 0 ∧ s.dst = []

/-- What holds in every state of a PACK run (42_encoder.md R198, R199). -/
def State.packing (s : State) : Prop :=
  s.op = .pack ∧ s.srcLen.toNat < 2 ^ 32 ∧ s.unpackedSize.toNat = s.srcLen.toNat ∧ s.outLen = 0 ∧ s.spos = 0 ∧
    s.p.toNat ≤ s.srcLen.toNat ∧ s.dst.listsBelow s.dpos.toNat

/-- The pending group: between one and two queued bytes for each token, every queued byte written (10_state.md R43). -/
def State.groupHeld (s : State) : Prop :=
  s.gcnt.toNat ≤ s.glen.toNat ∧ s.glen.toNat ≤ 2 * s.gcnt.toNat ∧
    ∀ j, j < s.glen.toNat → (Mem.cell? s.gbuf j).isSome = true

/-- `GROUP_SIZE` times the bytes that are out once the pending group is flushed stay within `GROUP_SIZE + 1` times the bytes
consumed (42_encoder.md R199: at most `n + ceil(n/8)` body bytes); `flushed` bytes of the pending group are out already. -/
def State.withinBudget (s : State) (flushed slack : Nat) : Prop :=
  Config.doc.headerSize + flushed ≤ s.dpos.toNat ∧
    Config.doc.groupSize * (s.dpos.toNat - Config.doc.headerSize - flushed) + Config.doc.groupSize * s.glen.toNat +
        s.gcnt.toNat ≤ (Config.doc.groupSize + 1) * s.p.toNat + slack

/-- What the scan of one position keeps (10_state.md R40, R41). -/
def State.scanHeld (s : State) : Prop :=
  s.p.toNat < s.srcLen.toNat ∧ Config.doc.minDist ≤ s.cd.toNat ∧ s.cd.toNat ≤ maxDistAt s + 1 ∧ s.cl.toNat ≤ maxLenAt s ∧
    s.bl.toNat ≤ maxLenAt s ∧ (1 ≤ s.bl.toNat → Config.doc.minDist ≤ s.bd.toNat ∧ s.bd.toNat ≤ maxDistAt s)

/-- What holds in a state by its `ST` (41_decoder.md R156 and the ranges of 10_state.md R20). -/
def State.phaseHeld (s : State) : Prop :=
  match s.st with
  | .idle => s.op = .none
  | .uMagic => s.readingHeader ∧ s.spos.toNat < Config.doc.sizeOffset ∧ s.unpackedSize = 0
  | .uSize => s.readingHeader ∧ Config.doc.sizeOffset ≤ s.spos.toNat ∧ s.spos.toNat < Config.doc.padOffset
  | .uPad => s.readingHeader ∧ Config.doc.padOffset ≤ s.spos.toNat ∧ s.spos.toNat < Config.doc.bodyOffset
  | .dFlag => s.decoding ∧ s.outLen.toNat ≤ s.unpackedSize.toNat ∧ s.fcnt = 0
  | .dTok =>
    s.decoding ∧ s.outLen.toNat < s.unpackedSize.toNat ∧ 1 ≤ s.fcnt.toNat ∧ s.fcnt.toNat ≤ Config.doc.groupSize
  | .dLen => s.decoding ∧ s.outLen.toNat < s.unpackedSize.toNat ∧ s.fcnt.toNat < Config.doc.groupSize
  | .dCopy =>
    s.decoding ∧ s.outLen.toNat < s.unpackedSize.toNat ∧ Config.doc.minDist ≤ s.dist.toNat ∧
      s.dist.toNat ≤ min Config.doc.maxDist s.outLen.toNat ∧ Config.doc.minLen ≤ s.rem.toNat ∧
      s.rem.toNat ≤ Config.doc.maxLen ∧ s.fcnt.toNat < Config.doc.groupSize
  | .pHdr =>
    s.packing ∧ s.hcnt.toNat < Config.doc.headerSize ∧ s.dpos.toNat = s.hcnt.toNat ∧ s.p = 0 ∧ s.gcnt = 0 ∧ s.glen = 0 ∧
      s.gidx = 0 ∧ s.gflags = 0
  | .pNext =>
    s.packing ∧ s.groupHeld ∧ s.gcnt.toNat < Config.doc.groupSize ∧ s.gidx = 0 ∧
      s.withinBudget 0 (if s.gcnt = 0 ∧ s.p.toNat = s.srcLen.toNat then Config.doc.groupSize - 1 else 0)
  | .pScan =>
    s.packing ∧ s.groupHeld ∧ s.gcnt.toNat < Config.doc.groupSize ∧ s.gidx = 0 ∧ s.withinBudget 0 0 ∧ s.scanHeld
  | .pEmit =>
    s.packing ∧ s.groupHeld ∧ s.gcnt.toNat < Config.doc.groupSize ∧ s.gidx = 0 ∧ s.withinBudget 0 0 ∧ s.scanHeld
  | .pFlush =>
    s.packing ∧ s.groupHeld ∧ 1 ≤ s.gcnt.toNat ∧ s.gcnt.toNat ≤ Config.doc.groupSize ∧ s.gidx.toNat ≤ s.glen.toNat ∧
      (s.gcnt.toNat = Config.doc.groupSize ∨ s.p.toNat = s.srcLen.toNat) ∧ s.withinBudget s.gidx.toNat 0
  | .done =>
    (s.op = .unpack ∧ s.outLen = s.unpackedSize ∧ s.lookback) ∨
      (s.op = .pack ∧ s.outLen = 0 ∧ s.spos = 0 ∧ s.dst.listsBelow s.dpos.toNat)
  | .failed =>
    s.op = .unpack ∧ s.lookback ∧ (s.outLen.toNat < s.unpackedSize.toNat ∨ s.outLen = 0)

/-- The invariant of every reachable state. -/
def State.Inv (s : State) : Prop := s.storesWf ∧ (s.err ≠ .none ↔ s.st = .failed) ∧ s.phaseHeld

/-- The states the machine can be found in before anything has happened: reset, for any configuration of the instance
and anything the host is about to do. -/
def bootState (c : Params) (host : List HostEvent) : State := { State.reset with cfg := c, host := host }

/-- The states that some run from reset reaches. -/
inductive Reachable : State → Prop where
  | boot (c : Params) (host : List HostEvent) : Reachable (bootState c host)
  | step {s t : State} : Reachable s → step s = .next t → Reachable t

/-- A state just after an accepted START of UNPACK or PACK on a source (43_container.md R220, R223), the host leaving
the block to step on: an idle block of configuration `c` given the bytes and the command. -/
def startedOn (c : Params) (src : List Byte) (op : Op) (st : St) (size : Word) : State :=
  State.start { bootState c [] with src := Mem.ofBytes 0 src, srcLen := BitVec.ofNat 34 src.length } op st size

/-- The state just after UNPACK was accepted on the given source. -/
def unpackStarted (c : Params) (src : List Byte) : State := startedOn c src .unpack .uMagic 0

/-- The state just after PACK was accepted on the given source. -/
def packStarted (c : Params) (src : List Byte) : State :=
  startedOn c src .pack .pHdr (BitVec.ofNat 32 src.length)

/-- `k` steps of the machine. -/
def runFor (k : Nat) (s : State) : Host.Outcome State Fault Refusal := Host.Core.run Sys2Proof.core k s

end Sys2Proof.Machine
end

