-- ==== Sys2Proof/Certificates/Slice0/Obligations.lean ====
section
/-! DEFINITION. The statements for the provers, each a Prop over the model. Where a statement speaks of a byte of SRC,
HIST or GBUF that nothing has written, it holds for every value that byte may have (log entries 2 and 3). -/

open Sys2Proof Sys2Proof.Machine

/-! ### Encodings -/

/-- 30_encoding.md R90 to R94: decoding the encoding of a well-formed instruction, in its slot and before any bytes,
gives the instruction and those bytes. -/
def Obligations.DecodeOfEncodeIsTheInstruction : Prop :=
  ∀ (i : Instr) (rest : List Byte), i.wf = true → decode (slotOf i) (encode i ++ rest) = .ok (i, rest)

/-- 30_encoding.md R90 to R94: whatever bytes decode in a slot are the encoding of a well-formed instruction of that
slot, so no two spellings of one instruction exist and no byte of an item is dropped. -/
def Obligations.EncodeOfDecodeIsTheBytes : Prop :=
  ∀ (slot : Slot) (bytes rest : List Byte) (i : Instr), decode slot bytes = .ok (i, rest) →
    i.wf = true ∧ slotOf i = slot ∧ encode i ++ rest = bytes

/-- Words written out from the formats H, F, L, C and the `CMD` codes (30_encoding.md R91 to R94; 10_state.md R46)
decode to what they stand for. -/
def Obligations.SpecWordsDecode : Prop :=
  decode .header ([0x01, 0x00, 0x00, 0x80, 0x2C, 0x01, 0x00, 0x00] ++ List.replicate 120 0x00) =
      .ok (.header 300 (List.replicate 120 0x00), []) ∧
    decode .flag [0x04] = .ok (.flag 0x04, []) ∧
    decode (.token false) [0x7E] = .ok (.literal 0x7E, []) ∧
    decode (.token true) [0xFF, 0x03] = .ok (.copy 0xFF 0x03, []) ∧
    decode .command [0x01] = .ok (.unpack, []) ∧
    decode .command [0x02] = .ok (.pack, [])

/-- 30_encoding.md R100: the magic is assembled little-endian; a header is valid exactly when it equals `MAGIC`, that is
when the bytes are `01 00 00 80`; `80 00 00 01` is a mismatch. -/
def Obligations.HeaderIsValidExactlyWithTheMagic : Prop :=
  (∀ b0 b1 b2 b3 : Byte,
    (leWord b0 b1 b2 b3).toNat = b0.toNat + 2 ^ 8 * b1.toNat + 2 ^ 16 * b2.toNat + 2 ^ 24 * b3.toNat) ∧
  (∀ b0 b1 b2 b3 : Byte,
    leWord b0 b1 b2 b3 = Config.doc.magic ↔ b0 = 0x01 ∧ b1 = 0x00 ∧ b2 = 0x00 ∧ b3 = 0x80) ∧
  (∀ (b0 b1 b2 b3 : Byte) (rest : List Byte), 124 ≤ rest.length →
    ((∃ i tail, decode .header (b0 :: b1 :: b2 :: b3 :: rest) = .ok (i, tail)) ↔
      leWord b0 b1 b2 b3 = Config.doc.magic)) ∧
  (∀ rest : List Byte, decode .header (0x80 :: 0x00 :: 0x00 :: 0x01 :: rest) = .error .badMagic)

/-- 30_encoding.md R99: `unpacked_size` is assembled from the bytes at offsets 4 to 7, and written as
`(unpacked_size >> 8(k-4)) mod 256`. -/
def Obligations.SizeFieldIsLittleEndian : Prop :=
  (∀ (b4 b5 b6 b7 : Byte) (pad : List Byte), pad.length = 120 →
    ∃ n : Word, decode .header ([0x01, 0x00, 0x00, 0x80, b4, b5, b6, b7] ++ pad) = .ok (.header n pad, []) ∧
      n.toNat = b4.toNat + 2 ^ 8 * b5.toNat + 2 ^ 16 * b6.toNat + 2 ^ 24 * b7.toNat) ∧
  (∀ (n : Word) (k : Nat), 4 ≤ k → k < 8 →
    (((encodeHeader n).getD k 0).toNat = n.toNat / 2 ^ (8 * (k - 4)) % 256) ∧
      ∀ pad, ((itemByte (.header n pad) k).toNat = n.toNat / 2 ^ (8 * (k - 4)) % 256))

/-- 30_encoding.md R97, R98: both mappings, the distance's under `DIST_MAP` and the length's under `LEN_MAP`, their formulas,
their range, and that each is a bijection between raw bytes and 1..256 with `unmap` its inverse. -/
def Obligations.FieldMapsAreBijections : Prop :=
  (∀ (c : Params) (raw : Byte),
    (c.distMap = .bias1 → mapD c raw = raw.toNat + 1) ∧
      (c.distMap = .zeroIs256 → mapD c raw = if raw.toNat = 0 then 256 else raw.toNat) ∧
      (c.lenMap = .bias1 → mapL c raw = raw.toNat + 1) ∧
      (c.lenMap = .zeroIs256 → mapL c raw = if raw.toNat = 0 then 256 else raw.toNat)) ∧
  (∀ (c : Params) (v : Nat), 1 ≤ v → v ≤ 256 →
    (c.distMap = .bias1 → (unmapD c v).toNat = v - 1) ∧ (c.distMap = .zeroIs256 → (unmapD c v).toNat = v % 256) ∧
      (c.lenMap = .bias1 → (unmapL c v).toNat = v - 1) ∧ (c.lenMap = .zeroIs256 → (unmapL c v).toNat = v % 256)) ∧
  (∀ (c : Params) (raw : Byte),
    1 ≤ mapD c raw ∧ mapD c raw ≤ 256 ∧ unmapD c (mapD c raw) = raw ∧
      1 ≤ mapL c raw ∧ mapL c raw ≤ 256 ∧ unmapL c (mapL c raw) = raw) ∧
  (∀ (c : Params) (v : Nat), 1 ≤ v → v ≤ 256 → mapD c (unmapD c v) = v ∧ mapL c (unmapL c v) = v)

/-- 30_encoding.md R101: `flagpos`, and that the `k`-th pop after a load takes bit `flagpos(k)` of the loaded byte,
leaving `8 - k` bits before it. -/
def Obligations.PopsFollowFlagpos : Prop :=
  (∀ k, flagpos .lsbFirst k = k ∧ flagpos .msbFirst k = 7 - k) ∧
  ∀ (s : State) (b : Byte) (k : Nat), k < 8 →
    (State.popFlag^[k] (s.loadFlags b)).selector = b.getLsbD (flagpos s.cfg.flagOrder k) ∧
      (State.popFlag^[k] (s.loadFlags b)).fcnt.toNat = 8 - k

/-! ### Status, reset, commands -/

/-- 10_state.md R47 (and R35 for the three bits): every field of `STATUS`, its other bits 0, and that a host write of
it changes nothing; and what a host read of each other register of 10_state.md R45 gives (of `CMD`: CommandRegisterWrites). -/
def Obligations.StatusWordFields : Prop :=
  ∀ s : State,
    s.status.toNat % 16 = stCode s.st ∧
    s.status.getLsbD 4 = decide (s.st ≠ .idle ∧ s.st ≠ .done ∧ s.st ≠ .failed) ∧
    s.status.getLsbD 5 = decide (s.st = .done) ∧
    s.status.getLsbD 6 = decide (s.st = .failed) ∧
    s.status.getLsbD 7 = false ∧
    s.status.toNat / 2 ^ 8 % 4 = opCode s.op ∧
    s.status.toNat < 2 ^ 10 ∧
    hostRead s (.readOnly .status) = s.status.setWidth 34 ∧
    (∀ v later, s.host = .writeReadOnly .status v :: later → step s = .next { s with host := later }) ∧
    hostRead s .srcLen = s.srcLen ∧
    (hostRead s (.readOnly .err)).toNat = errCode s.err ∧
    (hostRead s (.readOnly .unpackedSize)).toNat = s.unpackedSize.toNat ∧
    (hostRead s (.readOnly .outLen)).toNat = s.outLen.toNat ∧
    hostRead s (.readOnly .spos) = s.spos ∧
    hostRead s (.readOnly .dpos) = s.dpos

/-- 10_state.md R50; 70_reset_and_hazards.md R270: reset at any moment, of any state, puts the block in `IDLE` with every
scalar register 0 and leaves no cell of HIST or GBUF with a written byte. That the configuration and the
host's buffers stay is the model's choice, log entries 1 and 12. -/
def Obligations.ResetValues : Prop :=
  ∀ (s : State) (later : List HostEvent), s.host = .reset :: later →
    step s = .next
      { cfg := s.cfg, op := .none, st := .idle, err := .none, srcLen := 0, spos := 0, unpackedSize := 0, acc := 0,
        outLen := 0, flags := 0, fcnt := 0, distb := 0, dist := 0, rem := 0, hist := [], hcnt := 0, p := 0, cd := 0,
        cl := 0, bd := 0, bl := 0, gflags := 0, gcnt := 0, gbuf := [], glen := 0, gidx := 0, dpos := 0, src := s.src,
        dst := s.dst, host := later, epoch := s.epoch + 1 }

/-- 10_state.md R51; 43_container.md R221 to R223: both commands complete. Where the block is not busy UNPACK, and PACK
with `SRC_LEN < 2^32`, write every scalar register but `SRC_LEN` and leave HIST, GBUF and SRC as they are; where it is
busy, and for PACK with a longer source, nothing changes. -/
def Obligations.CommandsStartOrAreIgnored : Prop :=
  ∀ s : State,
    (s.busy = true → exec .unpack s = .next s ∧ exec .pack s = .next s) ∧
    (s.busy = false →
      exec .unpack s = .next
        { cfg := s.cfg, op := .unpack, st := .uMagic, err := .none, srcLen := s.srcLen, spos := 0, unpackedSize := 0,
          acc := 0, outLen := 0, flags := 0, fcnt := 0, distb := 0, dist := 0, rem := 0, hist := s.hist, hcnt := 0,
          p := 0, cd := 0, cl := 0, bd := 0, bl := 0, gflags := 0, gcnt := 0, gbuf := s.gbuf, glen := 0, gidx := 0,
          dpos := 0, src := s.src, dst := [], host := s.host, epoch := s.epoch }) ∧
    (s.busy = false → s.srcLen.toNat < 2 ^ 32 → ∃ n : Word, n.toNat = s.srcLen.toNat ∧
      exec .pack s = .next
        { cfg := s.cfg, op := .pack, st := .pHdr, err := .none, srcLen := s.srcLen, spos := 0, unpackedSize := n,
          acc := 0, outLen := 0, flags := 0, fcnt := 0, distb := 0, dist := 0, rem := 0, hist := s.hist, hcnt := 0,
          p := 0, cd := 0, cl := 0, bd := 0, bl := 0, gflags := 0, gcnt := 0, gbuf := s.gbuf, glen := 0, gidx := 0,
          dpos := 0, src := s.src, dst := [], host := s.host, epoch := s.epoch }) ∧
    (s.busy = false → 2 ^ 32 ≤ s.srcLen.toNat → exec .pack s = .next s)

/-- 10_state.md R46: what a write to `CMD` does, for each of its four values, busy or not, and that `CMD` reads as 0. -/
def Obligations.CommandRegisterWrites : Prop :=
  ∀ (s : State) (v : BitVec 2) (later : List HostEvent), s.host = .writeCmd v :: later →
    (v = 1 → s.busy = false → step s = .next (State.start { s with host := later } .unpack .uMagic 0)) ∧
    (v = 2 → s.busy = false → s.srcLen.toNat < 2 ^ 32 →
      step s = .next (State.start { s with host := later } .pack .pHdr (s.srcLen.setWidth 32))) ∧
    (v = 0 ∨ v = 3 ∨ s.busy = true ∨ (v = 2 ∧ 2 ^ 32 ≤ s.srcLen.toNat) → step s = .next { s with host := later }) ∧
    hostRead s .cmd = 0

/-- 43_container.md R230: the writes that are ignored change no field of the state. The two host writes that are not
ignored, while `BUSY = 0`: a write of `SRC_LEN` takes effect (10_state.md R28, R45), and bytes placed in SRC are there
afterwards (43_container.md R220), in both with nothing else changed. -/
def Obligations.IgnoredHostWrites : Prop :=
  (∀ (s : State) (e : HostEvent) (later : List HostEvent), s.host = e :: later →
    ((∃ v, e = .writeCmd v ∧ (s.busy = true ∨ v = 0 ∨ v = 3)) ∨ (∃ r v, e = .writeReadOnly r v) ∨
      (s.busy = true ∧ ∃ v, e = .writeSrcLen v)) →
    step s = .next { s with host := later }) ∧
  (∀ (s : State) (v : Pos) (later : List HostEvent), s.host = .writeSrcLen v :: later → s.busy = false →
    step s = .next { s with srcLen := v, host := later }) ∧
  (∀ (s : State) (bytes : List Byte) (later : List HostEvent), s.host = .load bytes :: later → s.busy = false →
    ∃ src, step s = .next { s with src := src, host := later } ∧
      ∀ k b, bytes[k]? = some b → Mem.cell? src k = some b)

/-! ### The items, run by `exec` -/

/-- HEADER completes in each of its three states (40_header_codec.md R121, R122, R123), with every form of its result:
the next state is written out, so what it does not name is unchanged. -/
def Obligations.HeaderItemCompletes : Prop :=
  ∀ (n : Word) (pad : List Byte) (s : State), (Instr.header n pad).wf = true → s.spos.toNat < s.srcLen.toNat →
    (s.st = .uMagic → s.spos.toNat < 4 →
      ∃ acc : Word,
        acc = s.acc ||| (BitVec.setWidth 32 ((encode (.header n pad)).getD s.spos.toNat 0) <<< (8 * s.spos.toNat)) ∧
        exec (.header n pad) s = .next
          { s with acc := acc, spos := s.spos + 1,
                   st := if s.spos.toNat = 3 then (if acc = Config.doc.magic then .uSize else .failed) else .uMagic,
                   err := if s.spos.toNat = 3 ∧ acc ≠ Config.doc.magic then .invalidMagic else s.err }) ∧
    (s.st = .uSize → 4 ≤ s.spos.toNat → s.spos.toNat < 8 →
      exec (.header n pad) s = .next
        { s with unpackedSize := s.unpackedSize |||
                   (BitVec.setWidth 32 ((leBytes n).getD (s.spos.toNat - 4) 0) <<< (8 * (s.spos.toNat - 4))),
                 spos := s.spos + 1, st := if s.spos.toNat = 7 then .uPad else .uSize }) ∧
    (s.st = .uPad → 8 ≤ s.spos.toNat → s.spos.toNat < 128 →
      exec (.header n pad) s = .next
        { s with spos := s.spos + 1, st := if s.spos.toNat = 127 then .dFlag else .uPad })

/-- FLAG completes (41_decoder.md R141): with output owed and a byte left it loads the queue; with the output complete
it enters `Done` and reads nothing. -/
def Obligations.FlagItemCompletes : Prop :=
  ∀ (f : Byte) (s : State), s.st = .dFlag → s.spos.toNat ≤ s.srcLen.toNat →
    (s.outLen = s.unpackedSize → exec (.flag f) s = .next { s with st := .done }) ∧
    (s.outLen ≠ s.unpackedSize → s.spos.toNat < s.srcLen.toNat →
      exec (.flag f) s = .next { s with flags := f, fcnt := 8, spos := s.spos + 1, st := .dTok })

/-- LITERAL completes (41_decoder.md R143, R144, R148, R149): the byte is appended, the selector consumed, and the state
is that of a completed token. -/
def Obligations.LiteralItemCompletes : Prop :=
  ∀ (b : Byte) (s : State), s.st = .dTok → s.selector = false → 1 ≤ s.fcnt.toNat → s.fcnt.toNat ≤ 8 →
    s.outLen.toNat < s.unpackedSize.toNat → s.spos.toNat < s.srcLen.toNat →
    ∃ t, exec (.literal b) s = .next t ∧
      t = { s with flags := shiftFlags s.cfg.flagOrder s.flags, fcnt := s.fcnt - 1, spos := s.spos + 1,
                   outLen := s.outLen + 1, dst := t.dst, hist := t.hist,
                   st := if s.outLen + 1 = s.unpackedSize then .done else if s.fcnt.toNat = 1 then .dFlag else .dTok } ∧
      (∀ a, Mem.cell? t.dst a = if a = s.outLen.toNat then some b else Mem.cell? s.dst a) ∧
      (∀ i, Mem.cell? t.hist i = if i = s.outLen.toNat % 256 then some b else Mem.cell? s.hist i)

/-- COPY completes in each of its three states (41_decoder.md R143, R145, R146): the distance byte is latched, the
length byte is mapped and the offset admitted, and one byte `HIST[(OUT_LEN - DIST) mod 256]` is appended. -/
def Obligations.CopyItemCompletes : Prop :=
  ∀ (x y : Byte) (s : State),
    (s.st = .dTok → s.selector = true → 1 ≤ s.fcnt.toNat → s.fcnt.toNat ≤ 8 →
      s.outLen.toNat < s.unpackedSize.toNat → s.spos.toNat < s.srcLen.toNat →
      exec (.copy x y) s = .next
        { s with flags := shiftFlags s.cfg.flagOrder s.flags, fcnt := s.fcnt - 1, spos := s.spos + 1, distb := x,
                 st := .dLen }) ∧
    (s.st = .dLen → s.spos.toNat < s.srcLen.toNat → mapD s.cfg s.distb ≤ s.outLen.toNat →
      (s.cfg.overshoot = .fault → s.outLen.toNat + mapL s.cfg y ≤ s.unpackedSize.toNat) →
      exec (.copy x y) s = .next
        { s with spos := s.spos + 1, dist := BitVec.ofNat 9 (mapD s.cfg s.distb),
                 rem := BitVec.ofNat 9 (mapL s.cfg y), st := .dCopy }) ∧
    (s.st = .dCopy → 1 ≤ s.dist.toNat → s.dist.toNat ≤ s.outLen.toNat → 1 ≤ s.rem.toNat → s.rem.toNat ≤ 256 →
      s.outLen.toNat < s.unpackedSize.toNat →
      ∃ t v, v = s.histByte ((s.outLen.toNat - s.dist.toNat) % 256) ∧ exec (.copy x y) s = .next t ∧
        t = { s with outLen := s.outLen + 1, rem := s.rem - 1, dst := t.dst, hist := t.hist,
                     st := if s.outLen + 1 = s.unpackedSize then .done
                           else if s.rem.toNat = 1 then (if s.fcnt = 0 then .dFlag else .dTok) else .dCopy } ∧
        (∀ a, Mem.cell? t.dst a = if a = s.outLen.toNat then some v else Mem.cell? s.dst a) ∧
        (∀ i, Mem.cell? t.hist i = if i = s.outLen.toNat % 256 then some v else Mem.cell? s.hist i))

/-- The frame of HEADER and FLAG, which store nothing: whenever exec answers a next state, only the registers that their
rules name may differ, and every byte of every store reads as before. -/
def Obligations.HeaderAndFlagFrame : Prop :=
  ∀ s t : State,
    (∀ n pad, exec (.header n pad) s = .next t →
      t = { s with acc := t.acc, unpackedSize := t.unpackedSize, spos := t.spos, st := t.st, err := t.err } ∧
      (s.st ≠ .uMagic → t.acc = s.acc) ∧ (s.st ≠ .uSize → t.unpackedSize = s.unpackedSize)) ∧
    (∀ f, exec (.flag f) s = .next t →
      t = { s with flags := t.flags, fcnt := t.fcnt, spos := t.spos, st := t.st, err := t.err })

/-- The frame of LITERAL and COPY: whenever exec answers a next state, only the registers that their rules name may
differ; DST keeps every byte but the one at `OUT_LEN`, HIST every cell but the one at `OUT_LEN mod 256`; and where the
form appends nothing (a failing step, the two parsing steps of a Copy) both keep every byte. -/
def Obligations.LiteralAndCopyFrame : Prop :=
  ∀ s t : State,
    (∀ b, exec (.literal b) s = .next t →
      t = { s with flags := t.flags, fcnt := t.fcnt, spos := t.spos, st := t.st, err := t.err, outLen := t.outLen,
                   dst := t.dst, hist := t.hist }) ∧
    (∀ x y, exec (.copy x y) s = .next t →
      t = { s with flags := t.flags, fcnt := t.fcnt, spos := t.spos, distb := t.distb, dist := t.dist, rem := t.rem,
                   st := t.st, err := t.err, outLen := t.outLen, dst := t.dst, hist := t.hist } ∧
      (s.st ≠ .dCopy → t.dst = s.dst ∧ t.hist = s.hist ∧ t.outLen = s.outLen)) ∧
    (∀ i, (∃ b, i = .literal b) ∨ (∃ x y, i = .copy x y) → exec i s = .next t →
      (∀ a, a ≠ s.outLen.toNat → Mem.cell? t.dst a = Mem.cell? s.dst a) ∧
      (∀ j, j ≠ s.outLen.toNat % 256 → Mem.cell? t.hist j = Mem.cell? s.hist j) ∧
      (t.st = .failed → t.dst = s.dst ∧ t.hist = s.hist ∧ t.outLen = s.outLen))

/-- An item has its effect only in a state that selects it (30_encoding.md R90, R95): elsewhere exec stops by name.
That it stops with this fault is the model's own choice, log entry 7. -/
def Obligations.ItemsNeedTheirState : Prop :=
  ∀ s : State,
    (∀ n pad, s.st ≠ .uMagic → s.st ≠ .uSize → s.st ≠ .uPad → exec (.header n pad) s = .fault .itemNotSelected) ∧
    (∀ f, s.st ≠ .dFlag → exec (.flag f) s = .fault .itemNotSelected) ∧
    (∀ b, ¬ (s.st = .dTok ∧ s.selector = false) → exec (.literal b) s = .fault .itemNotSelected) ∧
    (∀ x y, s.st ≠ .dLen → s.st ≠ .dCopy → ¬ (s.st = .dTok ∧ s.selector = true) →
      exec (.copy x y) s = .fault .itemNotSelected)

/-- 43_container.md R224: when the bytes at the start of the item in progress decode to an instruction, a step of the
block is that instruction's meaning there; a `CMD` write that decodes to a command is that command's meaning. Taking the
entry off the host's list is all that step adds; so it is for a tick in every state, whether or not an item decodes. -/
def Obligations.StepRunsTheDecodedItem : Prop :=
  (∀ (s : State) (slot : Slot) (a : Nat) (i : Instr) (rest : List Byte),
    s.itemSlot? = some (slot, a) → decode slot (s.srcBytes a (slotLength slot)) = .ok (i, rest) →
    (s.host = [] → step s = exec i s) ∧
    (∀ later, s.host = .tick :: later → step s = exec i { s with host := later })) ∧
  (∀ (s : State) (v : BitVec 2) (later : List HostEvent) (i : Instr) (rest : List Byte),
    s.host = .writeCmd v :: later → decode .command [BitVec.ofNat 8 v.toNat] = .ok (i, rest) →
    step s = exec i { s with host := later }) ∧
  (∀ (s : State) (later : List HostEvent), s.host = .tick :: later →
    (∀ t, step { s with host := [] } = .next t → step s = .next { t with host := later }) ∧
    (∀ r, step { s with host := [] } = .fault r → step s = .fault r) ∧
    (∀ r, step s ≠ .refused r))

/-- 43_container.md R224: in `IDLE`, `Done` and `Failed` there is no step, so with nothing from the host the state stays
as it is. That the model's step answers the same state is its own choice, log entry 5. -/
def Obligations.NoStepOutsideARun : Prop :=
  ∀ s : State, s.busy = false → s.host = [] → step s = .next s

/-! ### The steps of UNPACK on the bytes of SRC -/

/-- 40_header_codec.md R121: the `U_MAGIC` step, whatever the bytes of the source spell. -/
def Obligations.MagicStepReadsAndValidates : Prop :=
  ∀ s : State, s.host = [] → s.st = .uMagic → s.spos.toNat < 4 → s.spos.toNat ≤ s.srcLen.toNat →
    (s.spos = s.srcLen → step s = .next { s with st := .failed, err := .truncatedInput }) ∧
    (s.spos ≠ s.srcLen →
      ∃ acc : Word, acc = s.acc ||| (BitVec.setWidth 32 (s.srcByte s.spos.toNat) <<< (8 * s.spos.toNat)) ∧
        (s.spos.toNat ≠ 3 → step s = .next { s with acc := acc, spos := s.spos + 1 }) ∧
        (s.spos.toNat = 3 → acc = Config.doc.magic →
          step s = .next { s with acc := acc, spos := s.spos + 1, st := .uSize }) ∧
        (s.spos.toNat = 3 → acc ≠ Config.doc.magic →
          step s = .next { s with acc := acc, spos := s.spos + 1, st := .failed, err := .invalidMagic }))

/-- 40_header_codec.md R122 and R123: the `U_SIZE` and `U_PAD` steps; no value of a size byte or of a padding byte
changes where they lead. -/
def Obligations.SizeAndPaddingSteps : Prop :=
  ∀ s : State, s.host = [] → s.spos.toNat ≤ s.srcLen.toNat →
    (s.st = .uSize → 4 ≤ s.spos.toNat → s.spos.toNat < 8 →
      (s.spos = s.srcLen → step s = .next { s with st := .failed, err := .truncatedInput }) ∧
      (s.spos ≠ s.srcLen → step s = .next
        { s with unpackedSize := s.unpackedSize |||
                   (BitVec.setWidth 32 (s.srcByte s.spos.toNat) <<< (8 * (s.spos.toNat - 4))),
                 spos := s.spos + 1, st := if s.spos.toNat = 7 then .uPad else .uSize })) ∧
    (s.st = .uPad → 8 ≤ s.spos.toNat → s.spos.toNat < 128 →
      (s.spos = s.srcLen → step s = .next { s with st := .failed, err := .truncatedInput }) ∧
      (s.spos ≠ s.srcLen → step s = .next
        { s with spos := s.spos + 1, st := if s.spos.toNat = 127 then .dFlag else .uPad }))

/-- 41_decoder.md R141: the `D_FLAG` step, the Done check first. -/
def Obligations.FlagStepChecksDoneFirst : Prop :=
  ∀ s : State, s.host = [] → s.st = .dFlag → s.spos.toNat ≤ s.srcLen.toNat →
    (s.outLen = s.unpackedSize → step s = .next { s with st := .done }) ∧
    (s.outLen ≠ s.unpackedSize → s.spos = s.srcLen →
      step s = .next { s with st := .failed, err := .truncatedInput }) ∧
    (s.outLen ≠ s.unpackedSize → s.spos ≠ s.srcLen →
      step s = .next { s with flags := s.srcByte s.spos.toNat, fcnt := 8, spos := s.spos + 1, st := .dTok })

/-- 41_decoder.md R143: the `D_TOK` step: truncation before the pop, then the byte goes by the selector alone to the
output or to `DISTB`. -/
def Obligations.TokenStepFollowsTheSelector : Prop :=
  ∀ s : State, s.host = [] → s.st = .dTok → 1 ≤ s.fcnt.toNat → s.fcnt.toNat ≤ 8 →
    s.outLen.toNat < s.unpackedSize.toNat → s.spos.toNat ≤ s.srcLen.toNat →
    (s.spos = s.srcLen → step s = .next { s with st := .failed, err := .truncatedInput }) ∧
    (s.spos ≠ s.srcLen → s.selector = false →
      step s = .next
        { s with flags := shiftFlags s.cfg.flagOrder s.flags, fcnt := s.fcnt - 1, spos := s.spos + 1,
                 outLen := s.outLen + 1, dst := Mem.put s.dst s.outLen.toNat (s.srcByte s.spos.toNat),
                 hist := Mem.put s.hist (s.outLen.toNat % 256) (s.srcByte s.spos.toNat),
                 st := if s.outLen + 1 = s.unpackedSize then .done else if s.fcnt.toNat = 1 then .dFlag else .dTok }) ∧
    (s.spos ≠ s.srcLen → s.selector = true →
      step s = .next
        { s with flags := shiftFlags s.cfg.flagOrder s.flags, fcnt := s.fcnt - 1, spos := s.spos + 1,
                 distb := s.srcByte s.spos.toNat, st := .dLen })

/-- 41_decoder.md R145: the `D_LEN` step, its three failures in their order. -/
def Obligations.LengthStepChecksInOrder : Prop :=
  ∀ s : State, s.host = [] → s.st = .dLen → s.spos.toNat ≤ s.srcLen.toNat →
    (s.spos = s.srcLen → step s = .next { s with st := .failed, err := .truncatedInput }) ∧
    (s.spos ≠ s.srcLen →
      ∃ (d l : Nat) (t : State), d = mapD s.cfg s.distb ∧ l = mapL s.cfg (s.srcByte s.spos.toNat) ∧
        t = { s with spos := s.spos + 1, dist := BitVec.ofNat 9 d, rem := BitVec.ofNat 9 l } ∧
        t.dist.toNat = d ∧ t.rem.toNat = l ∧
        (s.outLen.toNat < d → step s = .next { t with st := .failed, err := .invalidOffset }) ∧
        (d ≤ s.outLen.toNat → s.cfg.overshoot = .fault → s.unpackedSize.toNat < s.outLen.toNat + l →
          step s = .next { t with st := .failed, err := .sizeMismatch }) ∧
        (d ≤ s.outLen.toNat → (s.cfg.overshoot = .truncate ∨ s.outLen.toNat + l ≤ s.unpackedSize.toNat) →
          step s = .next { t with st := .dCopy }))

/-- 41_decoder.md R146: the `D_COPY` step copies one byte, the read before the write, and tests for `Done` first. -/
def Obligations.CopyStepAppendsTheLookbackByte : Prop :=
  ∀ s : State, s.host = [] → s.st = .dCopy → 1 ≤ s.dist.toNat → s.dist.toNat ≤ s.outLen.toNat →
    1 ≤ s.rem.toNat → s.rem.toNat ≤ 256 → s.outLen.toNat < s.unpackedSize.toNat →
    ∃ v : Byte, v = s.histByte ((s.outLen.toNat - s.dist.toNat) % 256) ∧
      step s = .next
        { s with outLen := s.outLen + 1, rem := s.rem - 1, dst := Mem.put s.dst s.outLen.toNat v,
                 hist := Mem.put s.hist (s.outLen.toNat % 256) v,
                 st := if s.outLen + 1 = s.unpackedSize then .done
                       else if s.rem.toNat = 1 then (if s.fcnt = 0 then .dFlag else .dTok) else .dCopy }

/-! ### The steps of PACK -/

/-- 40_header_codec.md R126: the `P_HDR` step. -/
def Obligations.HeaderEmitterStep : Prop :=
  ∀ s : State, s.host = [] → s.st = .pHdr → s.hcnt.toNat < 128 → s.dpos.toNat < 2 ^ 33 →
    ∃ v : Byte,
      v.toNat = (if s.hcnt.toNat < 4 then 0x80000001 / 2 ^ (8 * s.hcnt.toNat) % 256
                 else if s.hcnt.toNat < 8 then s.unpackedSize.toNat / 2 ^ (8 * (s.hcnt.toNat - 4)) % 256 else 0) ∧
      step s = .next
        { s with dst := Mem.put s.dst s.dpos.toNat v, dpos := s.dpos + 1, hcnt := s.hcnt + 1,
                 st := if s.hcnt.toNat = 127 then .pNext else .pHdr }

/-- 42_encoder.md R186: the `P_NEXT` step. -/
def Obligations.TokenBoundaryStep : Prop :=
  ∀ s : State, s.host = [] → s.st = .pNext → s.p.toNat ≤ s.srcLen.toNat →
    (s.p.toNat = s.srcLen.toNat → s.gcnt ≠ 0 → step s = .next { s with st := .pFlush }) ∧
    (s.p.toNat = s.srcLen.toNat → s.gcnt = 0 → step s = .next { s with st := .done }) ∧
    (s.p.toNat ≠ s.srcLen.toNat → step s = .next { s with cd := 1, cl := 0, bd := 0, bl := 0, st := .pScan })

/-- 42_encoder.md R187: the `P_SCAN` step: the scan ends, a candidate is extended, or a candidate is closed and kept only
if strictly longer than the best so far. -/
def Obligations.ScanStepKeepsTheStrictlyLonger : Prop :=
  ∀ s : State, s.host = [] → s.st = .pScan → s.p.toNat < s.srcLen.toNat →
    ∃ maxd maxl p cl cd : Nat, maxd = min 256 s.p.toNat ∧ maxl = min 256 (s.srcLen.toNat - s.p.toNat) ∧
      p = s.p.toNat ∧ cl = s.cl.toNat ∧ cd = s.cd.toNat ∧
      (maxd < cd → step s = .next { s with st := .pEmit }) ∧
      (cd ≤ maxd → cl < maxl → s.srcByte (p + cl) = s.srcByte (p + cl - cd) →
        step s = .next { s with cl := s.cl + 1 }) ∧
      (cd ≤ maxd → (maxl ≤ cl ∨ s.srcByte (p + cl) ≠ s.srcByte (p + cl - cd)) → s.bl.toNat < cl →
        step s = .next { s with bl := s.cl, bd := s.cd, cd := s.cd + 1, cl := 0 }) ∧
      (cd ≤ maxd → (maxl ≤ cl ∨ s.srcByte (p + cl) ≠ s.srcByte (p + cl - cd)) → cl ≤ s.bl.toNat →
        step s = .next { s with cd := s.cd + 1, cl := 0 })

/-- 42_encoder.md R189: the `P_EMIT` step queues a Copy of the best match when it has at least two bytes, else the
Literal at `P`; the eighth token of a group leads to the flush. -/
def Obligations.EmissionStepQueuesOneToken : Prop :=
  ∀ s : State, s.host = [] → s.st = .pEmit → s.p.toNat < s.srcLen.toNat → s.gcnt.toNat ≤ 7 → s.glen.toNat ≤ 14 →
    s.p.toNat + s.bl.toNat ≤ s.srcLen.toNat → s.srcLen.toNat < 2 ^ 32 → s.bl.toNat ≤ 256 →
    (2 ≤ s.bl.toNat → 1 ≤ s.bd.toNat ∧ s.bd.toNat ≤ 256) →
    (2 ≤ s.bl.toNat → ∃ p' : Word, p'.toNat = s.p.toNat + s.bl.toNat ∧
      step s = .next
        { s with gflags := s.gflags ||| (1 <<< flagpos s.cfg.flagOrder s.gcnt.toNat),
                 gbuf := Mem.put (Mem.put s.gbuf s.glen.toNat (unmapD s.cfg s.bd.toNat)) (s.glen.toNat + 1)
                   (unmapL s.cfg s.bl.toNat),
                 glen := s.glen + 2, p := p', gcnt := s.gcnt + 1,
                 st := if s.gcnt.toNat = 7 then .pFlush else .pNext }) ∧
    (s.bl.toNat < 2 →
      step s = .next
        { s with gbuf := Mem.put s.gbuf s.glen.toNat (s.srcByte s.p.toNat), glen := s.glen + 1, p := s.p + 1,
                 gcnt := s.gcnt + 1, st := if s.gcnt.toNat = 7 then .pFlush else .pNext })

/-- 42_encoder.md R190: the `P_FLUSH` step writes the flag byte, then the queued bytes; the last one clears the group. -/
def Obligations.FlushStepWritesTheGroup : Prop :=
  ∀ s : State, s.host = [] → s.st = .pFlush → 1 ≤ s.gcnt.toNat → 1 ≤ s.glen.toNat → s.glen.toNat ≤ 16 →
    s.gidx.toNat ≤ s.glen.toNat → s.dpos.toNat < 2 ^ 33 →
    ∃ v : Byte, v = (if s.gidx = 0 then s.gflags else s.gbufByte (s.gidx.toNat - 1)) ∧
      (s.gidx = s.glen →
        step s = .next
          { s with dst := Mem.put s.dst s.dpos.toNat v, dpos := s.dpos + 1, gflags := 0, gcnt := 0, glen := 0, gidx := 0,
                   st := .pNext }) ∧
      (s.gidx ≠ s.glen →
        step s = .next { s with dst := Mem.put s.dst s.dpos.toNat v, dpos := s.dpos + 1, gidx := s.gidx + 1 })

/-! ### Failures -/

/-- 60_exceptions.md R242, R246: wherever an UNPACK state needs a byte and `SPOS = SRC_LEN`, the step enters `Failed` with
`TruncatedInput` and changes nothing else. -/
def Obligations.TruncationChangesOnlyStAndErr : Prop :=
  ∀ s : State, s.Inv → s.host = [] → s.spos = s.srcLen →
    (s.st = .uMagic ∨ s.st = .uSize ∨ s.st = .uPad ∨ (s.st = .dFlag ∧ s.outLen ≠ s.unpackedSize) ∨ s.st = .dTok ∨
      s.st = .dLen) →
    step s = .next { s with st := .failed, err := .truncatedInput }

/-- 60_exceptions.md R240, the table: the codes, and for each kind the states that raise it, its condition, `SPOS` and the
registers of note in `Failed`. -/
def Obligations.EachFailureHasItsCause : Prop :=
  (errCode .none = 0 ∧ errCode .invalidMagic = 1 ∧ errCode .truncatedInput = 2 ∧ errCode .invalidOffset = 3 ∧
    errCode .sizeMismatch = 4) ∧
  ∀ s t : State, s.Inv → s.st ≠ .failed → step s = .next t → t.st = .failed →
    (t.err = .invalidMagic ∧ s.st = .uMagic ∧ s.spos.toNat = 3 ∧ t.spos.toNat = 4 ∧ t.acc ≠ Config.doc.magic ∧
      t.outLen = 0) ∨
    (t.err = .truncatedInput ∧
      (s.st = .uMagic ∨ s.st = .uSize ∨ s.st = .uPad ∨ s.st = .dFlag ∨ s.st = .dTok ∨ s.st = .dLen) ∧
      s.spos = s.srcLen ∧ t = { s with st := .failed, err := .truncatedInput, host := t.host }) ∨
    (t.err = .invalidOffset ∧ s.st = .dLen ∧ s.outLen.toNat < mapD s.cfg s.distb ∧ t.spos.toNat = s.spos.toNat + 1 ∧
      t.dist.toNat = mapD s.cfg s.distb ∧ t.rem.toNat = mapL s.cfg (s.srcByte s.spos.toNat)) ∨
    (t.err = .sizeMismatch ∧ s.st = .dLen ∧ s.cfg.overshoot = .fault ∧
      s.unpackedSize.toNat < s.outLen.toNat + mapL s.cfg (s.srcByte s.spos.toNat) ∧
      t.spos.toNat = s.spos.toNat + 1 ∧ t.dist.toNat = mapD s.cfg s.distb ∧
      t.rem.toNat = mapL s.cfg (s.srcByte s.spos.toNat))

/-- 60_exceptions.md R247: failures are precise: the step that fails appends no byte, so `DST`, `HIST`, `OUT_LEN` are
those of the tokens completed before it, and `SPOS` is `SRC_LEN` or just past the last byte consumed. -/
def Obligations.FailuresArePrecise : Prop :=
  ∀ s t : State, s.Inv → s.st ≠ .failed → step s = .next t → t.st = .failed →
    t.dst = s.dst ∧ t.hist = s.hist ∧ t.outLen = s.outLen ∧ t.dst.listsBelow t.outLen.toNat ∧ s.st ≠ .dCopy ∧
      ((t.err = .truncatedInput ∧ t.spos = t.srcLen) ∨
        (t.err ≠ .truncatedInput ∧ t.spos.toNat = s.spos.toNat + 1))

/-- 60_exceptions.md R248: `Failed` is left only by a host command or by reset, and no failure occurs in it. -/
def Obligations.FailedIsLeftByTheHostOnly : Prop :=
  ∀ s t : State, s.st = .failed → step s = .next t →
    (t.st = .failed ∧ t.err = s.err) ∨
    ∃ later, (s.host = .writeCmd 1 :: later ∧ t.st = .uMagic ∧ t.err = .none) ∨
      (s.host = .writeCmd 2 :: later ∧ t.st = .pHdr ∧ t.err = .none) ∨
      (s.host = .reset :: later ∧ t.st = .idle ∧ t.err = .none)

/-- 60_exceptions.md R252: PACK raises nothing and `ERR` is 0 throughout a PACK run. -/
def Obligations.PackRaisesNothing : Prop :=
  ∀ s : State, s.Inv → s.st.ofPack = true → s.err = .none ∧
    ∀ t, step s = .next t → t.st ≠ .failed ∧ t.err = .none

/-! ### Invariants -/

/-- The machine before anything has happened meets the invariant, for every configuration and every host. -/
def Obligations.BootMeetsTheInvariant : Prop :=
  State.reset.Inv ∧ ∀ (c : Params) (host : List HostEvent), (bootState c host).Inv

/-- Every step keeps the invariant (41_decoder.md R156; 10_state.md R20, R23, R25, R37, R38): from every state that meets
it, whatever the host does. -/
def Obligations.StepKeepsTheInvariant : Prop :=
  ∀ s t : State, s.Inv → step s = .next t → t.Inv

/-- In a state that meets the invariant nothing stops the machine but a host that places bytes in SRC during a run: no
value the spec excludes is held and every fetched item is the selected one (00_scope.md R14). The refusal of that load is
the model's own choice, log entry 10. -/
def Obligations.InvariantMeansNoStop : Prop :=
  ∀ s : State, s.Inv →
    (∃ t, step s = .next t) ∨
    (s.busy = true ∧ step s = .refused .srcWrittenDuringRun ∧ ∃ bytes later, s.host = .load bytes :: later)

/-- 10_state.md R37: the lookback invariant in every state of an UNPACK run that reset leads to, and its consequences:
a `D_COPY` step reads `DST[OUT_LEN - DIST]`, in a cell of HIST that was written. -/
def Obligations.LookbackMirrorsTheOutput : Prop :=
  ∀ s : State, Reachable s → s.st.ofUnpack = true →
    (∀ i, i < s.outLen.toNat → s.outLen.toNat ≤ i + 256 → Mem.cell? s.hist (i % 256) = Mem.cell? s.dst i) ∧
    (∀ d, 1 ≤ d → d ≤ min 256 s.outLen.toNat →
      Mem.cell? s.dst (s.outLen.toNat - d) = some (s.histByte ((s.outLen.toNat - d) % 256))) ∧
    (s.st = .dCopy → (Mem.cell? s.hist (lookbackIndex s)).isSome = true)

/-- 42_encoder.md R190; 70_reset_and_hazards.md R272: a `P_FLUSH` step reads only cells of GBUF that have been written, so
no free byte ever reaches DST. -/
def Obligations.FlushReadsWrittenCellsOnly : Prop :=
  ∀ s : State, Reachable s → s.st = .pFlush → s.gidx ≠ 0 →
    ∃ b, Mem.cell? s.gbuf (s.gidx.toNat - 1) = some b ∧ s.gbufByte (s.gidx.toNat - 1) = b

/-! ### Rules about every step -/

/-- 40_header_codec.md R128: once the size field is read no step writes `UNPACKED_SIZE`, for the rest of the run. -/
def Obligations.SizeIsImmutableOnceParsed : Prop :=
  ∀ s t : State,
    (s.st = .uPad ∨ s.st = .dFlag ∨ s.st = .dTok ∨ s.st = .dLen ∨ s.st = .dCopy) → step s = .next t →
    (∀ later, s.host ≠ .reset :: later) →
    t.unpackedSize = s.unpackedSize ∧
      (t.st = .uPad ∨ t.st = .dFlag ∨ t.st = .dTok ∨ t.st = .dLen ∨ t.st = .dCopy ∨ t.st = .done ∨ t.st = .failed)

/-- 10_state.md R26: a step of an UNPACK run moves `SPOS` by one or not at all, forward, and never past `SRC_LEN`; a step
of a PACK run leaves it. -/
def Obligations.SourcePositionAdvancesByOne : Prop :=
  ∀ s t : State, s.Inv → s.host = [] → step s = .next t →
    (s.st.ofUnpack = true →
      (t.spos = s.spos ∨ t.spos.toNat = s.spos.toNat + 1) ∧ t.spos.toNat ≤ t.srcLen.toNat) ∧
    (s.st.ofPack = true → t.spos = s.spos)

/-- 20_memory.md R61 and 10_state.md R48: no step of the block writes SRC, `SRC_LEN` or the configuration; SRC changes only
when the host places bytes, which it does not during a run. -/
def Obligations.SourceIsWrittenByTheHostOnly : Prop :=
  ∀ s t : State, step s = .next t →
    t.cfg = s.cfg ∧ (s.host = [] → t.src = s.src ∧ t.srcLen = s.srcLen) ∧
    ((∀ bytes later, s.host ≠ .load bytes :: later) → t.src = s.src) ∧ (s.busy = true → t.src = s.src)

/-- 20_memory.md R63, R64: a step of the block leaves DST as it is or appends one byte to it, at `OUT_LEN` in UNPACK and at
`DPOS` in PACK, that position then advancing by one. -/
def Obligations.OutputOnlyGrowsByOneByte : Prop :=
  ∀ s t : State, s.Inv → s.busy = true → s.host = [] → step s = .next t →
    (t.dst = s.dst ∧ t.outLen = s.outLen ∧ t.dpos = s.dpos) ∨
    (∃ v, s.st.ofUnpack = true ∧ t.dst = s.dst ++ [(s.outLen.toNat, v)] ∧ t.outLen.toNat = s.outLen.toNat + 1 ∧
      t.dpos = s.dpos) ∨
    (∃ v, s.st.ofPack = true ∧ t.dst = s.dst ++ [(s.dpos.toNat, v)] ∧ t.dpos.toNat = s.dpos.toNat + 1 ∧
      t.outLen = s.outLen)

/-- 10_state.md R20, R21: a field is written only by steps of the unit that owns it, by START and by reset. Group of `ST` by
group: the header states write the header codec's registers, the decode states the decoder's, each besides the
sequencer's `ST`, `ERR` and `SPOS`; the encode states the encoder's and `ST`; `P_HDR` the header codec's `HCNT`, `ST`, and
`DPOS`, which 40_header_codec.md R126 and 10_state.md R44 have it write although the encoder owns it. The host's other
writes touch SRC and `SRC_LEN` only. `OP` is written by START and reset alone. -/
def Obligations.FieldsAreWrittenByTheirUnit : Prop :=
  ∀ s t : State, step s = .next t →
    (s.host = [] → s.st = .uMagic ∨ s.st = .uSize ∨ s.st = .uPad →
      t = { s with st := t.st, err := t.err, spos := t.spos, unpackedSize := t.unpackedSize, acc := t.acc }) ∧
    (s.host = [] → s.st = .dFlag ∨ s.st = .dTok ∨ s.st = .dLen ∨ s.st = .dCopy →
      t = { s with st := t.st, err := t.err, spos := t.spos, outLen := t.outLen, flags := t.flags, fcnt := t.fcnt,
                   distb := t.distb, dist := t.dist, rem := t.rem, hist := t.hist, dst := t.dst }) ∧
    (s.host = [] → s.st = .pHdr →
      t = { s with st := t.st, hcnt := t.hcnt, dpos := t.dpos, dst := t.dst }) ∧
    (s.host = [] → s.st = .pNext ∨ s.st = .pScan ∨ s.st = .pEmit ∨ s.st = .pFlush →
      t = { s with st := t.st, p := t.p, cd := t.cd, cl := t.cl, bd := t.bd, bl := t.bl, gflags := t.gflags,
                   gcnt := t.gcnt, gbuf := t.gbuf, glen := t.glen, gidx := t.gidx, dpos := t.dpos, dst := t.dst }) ∧
    (∀ e later, s.host = e :: later → e ≠ .tick → e ≠ .reset → (∀ v, e ≠ .writeCmd v) →
      t = { s with src := t.src, srcLen := t.srcLen, host := later }) ∧
    (t.op ≠ s.op →
      ∃ later, s.host = .reset :: later ∨ ((s.host = .writeCmd 1 :: later ∨ s.host = .writeCmd 2 :: later) ∧ s.busy = false))

/-- 30_encoding.md R104 (a), (c); 20_memory.md R62, R83: input that changes nothing. The padding of a header, whatever it
holds, and the bytes after a source that unpacks leave the result of `unpack` as it is; and no step of the block depends on
a byte of SRC at or above `SRC_LEN`. -/
def Obligations.IgnoredInputChangesNothing : Prop :=
  (∀ (c : Params) (front pad pad' rest : List Byte), front.length = 8 → pad.length = 120 → pad'.length = 120 →
    unpackBytes c (front ++ pad ++ rest) = unpackBytes c (front ++ pad' ++ rest)) ∧
  (∀ (c : Params) (src more out : List Byte), unpackBytes c src = .ok out → unpackBytes c (src ++ more) = .ok out) ∧
  (∀ (s t : State) (src' : Mem), s.host = [] →
    (∀ a, a < s.srcLen.toNat → Mem.cell? src' a = Mem.cell? s.src a) → step s = .next t →
    step { s with src := src' } = .next { t with src := src' })

/-- 43_container.md R232: the outcome of an operation is a function of SRC, `SRC_LEN`, the command and the configuration:
two idle blocks that agree on these, and differ in anything else, run in step: after any number of steps each has the
registers and the DST of the other. -/
def Obligations.OperationsAreIndependent : Prop :=
  ∀ (s₁ s₂ t₁ t₂ : State) (i : Instr) (k : Nat),
    i = .unpack ∨ (i = .pack ∧ s₁.srcLen.toNat < 2 ^ 32) →
    s₁.Inv → s₂.Inv → s₁.busy = false → s₂.busy = false → s₁.host = [] → s₂.host = [] → s₁.cfg = s₂.cfg →
    s₁.src = s₂.src → s₁.srcLen = s₂.srcLen → exec i s₁ = .next t₁ → exec i s₂ = .next t₂ →
    ∃ u₁ u₂, runFor k t₁ = .next u₁ ∧ runFor k t₂ = .next u₂ ∧
      u₁ = { u₂ with hist := u₁.hist, gbuf := u₁.gbuf, epoch := u₁.epoch }

/-! ### Function level and whole runs -/

/-- 40_header_codec.md R127: the header integrity law. -/
def Obligations.HeaderRoundTrip : Prop :=
  ∀ n : Word, decodeHeader (encodeHeader n) = .ok n ∧ (encodeHeader n).length = 128

/-- 42_encoder.md R181: `mlen(p, d)` is the largest length up to the cap at which the input agrees with itself shifted by
`d`. -/
def Obligations.MatchLengthIsTheLongestAgreement : Prop :=
  ∀ (input : List Byte) (p d : Nat), p < input.length → 1 ≤ d → d ≤ min 256 p →
    mlen input p d ≤ min 256 (input.length - p) ∧
    (∀ i, i < mlen input p d → input[p + i]? = input[p + i - d]?) ∧
    (∀ l, l ≤ min 256 (input.length - p) → (∀ i, i < l → input[p + i]? = input[p + i - d]?) → l ≤ mlen input p d)

/-- 42_encoder.md R183: `best(p)` is the longest match, the nearest among the longest, and `(0, 0)` where no byte
matches. -/
def Obligations.BestMatchIsLongestThenNearest : Prop :=
  ∀ (input : List Byte) (p : Nat), p < input.length →
    (∀ d, 1 ≤ d → d ≤ min 256 p → mlen input p d ≤ (best input p).2) ∧
    ((best input p).2 = 0 → (best input p).1 = 0) ∧
    (1 ≤ (best input p).2 →
      1 ≤ (best input p).1 ∧ (best input p).1 ≤ min 256 p ∧ mlen input p (best input p).1 = (best input p).2 ∧
      ∀ d, 1 ≤ d → d < (best input p).1 → mlen input p d < (best input p).2) ∧
    (p = 0 → best input p = (0, 0))

/-- 42_encoder.md R187: the scan that a `P_NEXT` step starts ends in `P_EMIT` with `(BD, BL) = best(P)`, and touches no
other register. -/
def Obligations.ScanFindsTheBestMatch : Prop :=
  ∀ (input : List Byte) (s : State), s.Inv → s.host = [] → s.st = .pNext → s.src = Mem.ofBytes 0 input →
    s.srcLen.toNat = input.length → s.p.toNat < input.length →
    ∃ k t, runFor k s = .next t ∧ t.st = .pEmit ∧ t.bd.toNat = (best input s.p.toNat).1 ∧
      t.bl.toNat = (best input s.p.toNat).2 ∧
      t = { s with st := .pEmit, cd := t.cd, cl := t.cl, bd := t.bd, bl := t.bl }

/-- 40_header_codec.md R129: from START the header steps take 128 steps to `D_FLAG` with the size exactly when
`decode_header` is `Ok`, and fail with its error kind, at the stated `SPOS` and step, exactly when it is not. -/
def Obligations.HeaderStepsAgreeWithDecodeHeader : Prop :=
  ∀ (c : Params) (src : List Byte), src.length < 2 ^ 34 →
    (∀ n, decodeHeader src = .ok n ↔
      ∃ t, runFor 128 (unpackStarted c src) = .next t ∧ t.st = .dFlag ∧ t.spos.toNat = 128 ∧ t.unpackedSize = n) ∧
    (decodeHeader src = .error .truncatedInput → ∃ t, runFor (src.length + 1) (unpackStarted c src) = .next t ∧
      t.st = .failed ∧ t.err = .truncatedInput ∧ t.spos.toNat = src.length) ∧
    (decodeHeader src = .error .invalidMagic → ∃ t, runFor 4 (unpackStarted c src) = .next t ∧
      t.st = .failed ∧ t.err = .invalidMagic ∧ t.spos.toNat = 4)

/-- 41_decoder.md R147: the effect of a whole Copy token, from its `D_TOK` step: with both payload bytes there, a distance
within the output and, under `FAULT`, a length within the room left, it appends `m = min(l, UNPACKED_SIZE - L0)` bytes,
byte `j` being `DST[L0 - d + (j mod d)]`, in `2 + m` steps. -/
def Obligations.CopyTokenRepeatsTheBlock : Prop :=
  ∀ (s : State) (d l m : Nat), s.Inv → s.host = [] → s.st = .dTok → s.selector = true →
    s.spos.toNat + 2 ≤ s.srcLen.toNat → d = mapD s.cfg (s.srcByte s.spos.toNat) →
    l = mapL s.cfg (s.srcByte (s.spos.toNat + 1)) → m = min l (s.unpackedSize.toNat - s.outLen.toNat) →
    d ≤ s.outLen.toNat → (s.cfg.overshoot = .fault → l ≤ s.unpackedSize.toNat - s.outLen.toNat) →
    ∃ t, runFor (2 + m) s = .next t ∧ 1 ≤ m ∧ t.spos.toNat = s.spos.toNat + 2 ∧
      t.outLen.toNat = s.outLen.toNat + m ∧ t.err = .none ∧
      (∀ a, a < s.outLen.toNat → Mem.cell? t.dst a = Mem.cell? s.dst a) ∧
      (∀ j, j < m →
        Mem.cell? t.dst (s.outLen.toNat + j) = Mem.cell? s.dst (s.outLen.toNat - d + j % d)) ∧
      t.st = (if t.outLen = s.unpackedSize then .done else if s.fcnt.toNat = 1 then .dFlag else .dTok)

/-- 43_container.md R226 (a), (b): the run that UNPACK starts ends in `Done` with the bytes of `unpack` exactly when
`unpack` is `Ok`, and in `Failed` with its error kind exactly when it is not. -/
def Obligations.UnpackRunAgreesWithTheFunction : Prop :=
  ∀ (c : Params) (src : List Byte), src.length < 2 ^ 34 →
    ∃ k t, runFor k (unpackStarted c src) = .next t ∧ t.busy = false ∧
      (∀ out, unpackBytes c src = .ok out ↔ hostResult t = some out) ∧
      (∀ out, unpackBytes c src = .ok out → t.st = .done ∧ t.err = .none ∧ t.outLen.toNat = out.length ∧
        t.outLen = t.unpackedSize) ∧
      (∀ e, unpackBytes c src = .error e ↔ (t.st = .failed ∧ t.err = e))

/-- 43_container.md R227: the run that PACK starts ends in `Done` with the container that `pack` gives. -/
def Obligations.PackRunAgreesWithTheFunction : Prop :=
  ∀ (c : Params) (input : List Byte), input.length < 2 ^ 32 →
    ∃ k t, runFor k (packStarted c input) = .next t ∧ t.st = .done ∧ t.err = .none ∧
      hostResult t = some (packBytes c input) ∧ t.dpos.toNat = (packBytes c input).length

/-- 42_encoder.md R201; 43_container.md R233: `unpack(pack(X)) = Ok(X)` for every `X` shorter than `2^32` bytes and every
setting of the parameters. -/
def Obligations.RoundTrip : Prop :=
  ∀ (c : Params) (input : List Byte), input.length < 2 ^ 32 → unpackBytes c (packBytes c input) = .ok input

/-- 42_encoder.md R199: the bound on the size of the output. For an input of `2^32` bytes or more, which no run packs, it is
the bound of the total function that log entry 17 describes. -/
def Obligations.PackedSizeBound : Prop :=
  ∀ (c : Params) (input : List Byte),
    (packBytes c input).length ≤ 128 + input.length + (input.length + 7) / 8

/-- 43_container.md R228: every run ends; an UNPACK run within `SRC_LEN + UNPACKED_SIZE + 1` steps. -/
def Obligations.EveryRunEnds : Prop :=
  (∀ s : State, s.Inv → s.host = [] → ∃ k t, runFor k s = .next t ∧ t.busy = false) ∧
  (∀ (c : Params) (src : List Byte), src.length < 2 ^ 34 →
    ∃ k t, runFor k (unpackStarted c src) = .next t ∧ t.busy = false ∧
      k ≤ src.length + t.unpackedSize.toNat + 1)
end

