-- ==== Sys2Proof/Laws/State.lean ====
section
/-! SUPPORT. One lemma per field per named update of the state, so that no
later proof unfolds a record update. -/

namespace Sys2Proof.Machine

@[simp] theorem padLength_eq : padLength = 120 := rfl

@[simp] theorem advance_cfg (s : State) : s.advance.cfg = s.cfg := rfl
@[simp] theorem advance_op (s : State) : s.advance.op = s.op := rfl
@[simp] theorem advance_st (s : State) : s.advance.st = s.st := rfl
@[simp] theorem advance_err (s : State) : s.advance.err = s.err := rfl
@[simp] theorem advance_srcLen (s : State) : s.advance.srcLen = s.srcLen := rfl
@[simp] theorem advance_spos (s : State) : s.advance.spos = s.spos + 1 := rfl
@[simp] theorem advance_unpackedSize (s : State) : s.advance.unpackedSize = s.unpackedSize := rfl
@[simp] theorem advance_acc (s : State) : s.advance.acc = s.acc := rfl
@[simp] theorem advance_outLen (s : State) : s.advance.outLen = s.outLen := rfl
@[simp] theorem advance_flags (s : State) : s.advance.flags = s.flags := rfl
@[simp] theorem advance_fcnt (s : State) : s.advance.fcnt = s.fcnt := rfl
@[simp] theorem advance_distb (s : State) : s.advance.distb = s.distb := rfl
@[simp] theorem advance_dist (s : State) : s.advance.dist = s.dist := rfl
@[simp] theorem advance_rem (s : State) : s.advance.rem = s.rem := rfl
@[simp] theorem advance_hist (s : State) : s.advance.hist = s.hist := rfl
@[simp] theorem advance_hcnt (s : State) : s.advance.hcnt = s.hcnt := rfl
@[simp] theorem advance_p (s : State) : s.advance.p = s.p := rfl
@[simp] theorem advance_cd (s : State) : s.advance.cd = s.cd := rfl
@[simp] theorem advance_cl (s : State) : s.advance.cl = s.cl := rfl
@[simp] theorem advance_bd (s : State) : s.advance.bd = s.bd := rfl
@[simp] theorem advance_bl (s : State) : s.advance.bl = s.bl := rfl
@[simp] theorem advance_gflags (s : State) : s.advance.gflags = s.gflags := rfl
@[simp] theorem advance_gcnt (s : State) : s.advance.gcnt = s.gcnt := rfl
@[simp] theorem advance_gbuf (s : State) : s.advance.gbuf = s.gbuf := rfl
@[simp] theorem advance_glen (s : State) : s.advance.glen = s.glen := rfl
@[simp] theorem advance_gidx (s : State) : s.advance.gidx = s.gidx := rfl
@[simp] theorem advance_dpos (s : State) : s.advance.dpos = s.dpos := rfl
@[simp] theorem advance_src (s : State) : s.advance.src = s.src := rfl
@[simp] theorem advance_dst (s : State) : s.advance.dst = s.dst := rfl
@[simp] theorem advance_host (s : State) : s.advance.host = s.host := rfl
@[simp] theorem advance_epoch (s : State) : s.advance.epoch = s.epoch := rfl

@[simp] theorem raise_cfg (s : State) (k : Err) : (s.raise k).cfg = s.cfg := rfl
@[simp] theorem raise_op (s : State) (k : Err) : (s.raise k).op = s.op := rfl
@[simp] theorem raise_st (s : State) (k : Err) : (s.raise k).st = .failed := rfl
@[simp] theorem raise_err (s : State) (k : Err) : (s.raise k).err = k := rfl
@[simp] theorem raise_srcLen (s : State) (k : Err) : (s.raise k).srcLen = s.srcLen := rfl
@[simp] theorem raise_spos (s : State) (k : Err) : (s.raise k).spos = s.spos := rfl
@[simp] theorem raise_unpackedSize (s : State) (k : Err) : (s.raise k).unpackedSize = s.unpackedSize := rfl
@[simp] theorem raise_acc (s : State) (k : Err) : (s.raise k).acc = s.acc := rfl
@[simp] theorem raise_outLen (s : State) (k : Err) : (s.raise k).outLen = s.outLen := rfl
@[simp] theorem raise_flags (s : State) (k : Err) : (s.raise k).flags = s.flags := rfl
@[simp] theorem raise_fcnt (s : State) (k : Err) : (s.raise k).fcnt = s.fcnt := rfl
@[simp] theorem raise_distb (s : State) (k : Err) : (s.raise k).distb = s.distb := rfl
@[simp] theorem raise_dist (s : State) (k : Err) : (s.raise k).dist = s.dist := rfl
@[simp] theorem raise_rem (s : State) (k : Err) : (s.raise k).rem = s.rem := rfl
@[simp] theorem raise_hist (s : State) (k : Err) : (s.raise k).hist = s.hist := rfl
@[simp] theorem raise_hcnt (s : State) (k : Err) : (s.raise k).hcnt = s.hcnt := rfl
@[simp] theorem raise_p (s : State) (k : Err) : (s.raise k).p = s.p := rfl
@[simp] theorem raise_cd (s : State) (k : Err) : (s.raise k).cd = s.cd := rfl
@[simp] theorem raise_cl (s : State) (k : Err) : (s.raise k).cl = s.cl := rfl
@[simp] theorem raise_bd (s : State) (k : Err) : (s.raise k).bd = s.bd := rfl
@[simp] theorem raise_bl (s : State) (k : Err) : (s.raise k).bl = s.bl := rfl
@[simp] theorem raise_gflags (s : State) (k : Err) : (s.raise k).gflags = s.gflags := rfl
@[simp] theorem raise_gcnt (s : State) (k : Err) : (s.raise k).gcnt = s.gcnt := rfl
@[simp] theorem raise_gbuf (s : State) (k : Err) : (s.raise k).gbuf = s.gbuf := rfl
@[simp] theorem raise_glen (s : State) (k : Err) : (s.raise k).glen = s.glen := rfl
@[simp] theorem raise_gidx (s : State) (k : Err) : (s.raise k).gidx = s.gidx := rfl
@[simp] theorem raise_dpos (s : State) (k : Err) : (s.raise k).dpos = s.dpos := rfl
@[simp] theorem raise_src (s : State) (k : Err) : (s.raise k).src = s.src := rfl
@[simp] theorem raise_dst (s : State) (k : Err) : (s.raise k).dst = s.dst := rfl
@[simp] theorem raise_host (s : State) (k : Err) : (s.raise k).host = s.host := rfl
@[simp] theorem raise_epoch (s : State) (k : Err) : (s.raise k).epoch = s.epoch := rfl

@[simp] theorem goto_cfg (s : State) (x : St) : (s.goto x).cfg = s.cfg := rfl
@[simp] theorem goto_op (s : State) (x : St) : (s.goto x).op = s.op := rfl
@[simp] theorem goto_st (s : State) (x : St) : (s.goto x).st = x := rfl
@[simp] theorem goto_err (s : State) (x : St) : (s.goto x).err = s.err := rfl
@[simp] theorem goto_srcLen (s : State) (x : St) : (s.goto x).srcLen = s.srcLen := rfl
@[simp] theorem goto_spos (s : State) (x : St) : (s.goto x).spos = s.spos := rfl
@[simp] theorem goto_unpackedSize (s : State) (x : St) : (s.goto x).unpackedSize = s.unpackedSize := rfl
@[simp] theorem goto_acc (s : State) (x : St) : (s.goto x).acc = s.acc := rfl
@[simp] theorem goto_outLen (s : State) (x : St) : (s.goto x).outLen = s.outLen := rfl
@[simp] theorem goto_flags (s : State) (x : St) : (s.goto x).flags = s.flags := rfl
@[simp] theorem goto_fcnt (s : State) (x : St) : (s.goto x).fcnt = s.fcnt := rfl
@[simp] theorem goto_distb (s : State) (x : St) : (s.goto x).distb = s.distb := rfl
@[simp] theorem goto_dist (s : State) (x : St) : (s.goto x).dist = s.dist := rfl
@[simp] theorem goto_rem (s : State) (x : St) : (s.goto x).rem = s.rem := rfl
@[simp] theorem goto_hist (s : State) (x : St) : (s.goto x).hist = s.hist := rfl
@[simp] theorem goto_hcnt (s : State) (x : St) : (s.goto x).hcnt = s.hcnt := rfl
@[simp] theorem goto_p (s : State) (x : St) : (s.goto x).p = s.p := rfl
@[simp] theorem goto_cd (s : State) (x : St) : (s.goto x).cd = s.cd := rfl
@[simp] theorem goto_cl (s : State) (x : St) : (s.goto x).cl = s.cl := rfl
@[simp] theorem goto_bd (s : State) (x : St) : (s.goto x).bd = s.bd := rfl
@[simp] theorem goto_bl (s : State) (x : St) : (s.goto x).bl = s.bl := rfl
@[simp] theorem goto_gflags (s : State) (x : St) : (s.goto x).gflags = s.gflags := rfl
@[simp] theorem goto_gcnt (s : State) (x : St) : (s.goto x).gcnt = s.gcnt := rfl
@[simp] theorem goto_gbuf (s : State) (x : St) : (s.goto x).gbuf = s.gbuf := rfl
@[simp] theorem goto_glen (s : State) (x : St) : (s.goto x).glen = s.glen := rfl
@[simp] theorem goto_gidx (s : State) (x : St) : (s.goto x).gidx = s.gidx := rfl
@[simp] theorem goto_dpos (s : State) (x : St) : (s.goto x).dpos = s.dpos := rfl
@[simp] theorem goto_src (s : State) (x : St) : (s.goto x).src = s.src := rfl
@[simp] theorem goto_dst (s : State) (x : St) : (s.goto x).dst = s.dst := rfl
@[simp] theorem goto_host (s : State) (x : St) : (s.goto x).host = s.host := rfl
@[simp] theorem goto_epoch (s : State) (x : St) : (s.goto x).epoch = s.epoch := rfl

@[simp] theorem append_cfg (s : State) (v : Byte) : (s.append v).cfg = s.cfg := rfl
@[simp] theorem append_op (s : State) (v : Byte) : (s.append v).op = s.op := rfl
@[simp] theorem append_st (s : State) (v : Byte) : (s.append v).st = s.st := rfl
@[simp] theorem append_err (s : State) (v : Byte) : (s.append v).err = s.err := rfl
@[simp] theorem append_srcLen (s : State) (v : Byte) : (s.append v).srcLen = s.srcLen := rfl
@[simp] theorem append_spos (s : State) (v : Byte) : (s.append v).spos = s.spos := rfl
@[simp] theorem append_unpackedSize (s : State) (v : Byte) : (s.append v).unpackedSize = s.unpackedSize := rfl
@[simp] theorem append_acc (s : State) (v : Byte) : (s.append v).acc = s.acc := rfl
@[simp] theorem append_outLen (s : State) (v : Byte) : (s.append v).outLen = s.outLen + 1 := rfl
@[simp] theorem append_flags (s : State) (v : Byte) : (s.append v).flags = s.flags := rfl
@[simp] theorem append_fcnt (s : State) (v : Byte) : (s.append v).fcnt = s.fcnt := rfl
@[simp] theorem append_distb (s : State) (v : Byte) : (s.append v).distb = s.distb := rfl
@[simp] theorem append_dist (s : State) (v : Byte) : (s.append v).dist = s.dist := rfl
@[simp] theorem append_rem (s : State) (v : Byte) : (s.append v).rem = s.rem := rfl
@[simp] theorem append_hist (s : State) (v : Byte) : (s.append v).hist = Mem.put s.hist (s.outLen.toNat % Config.doc.histSize) v := rfl
@[simp] theorem append_hcnt (s : State) (v : Byte) : (s.append v).hcnt = s.hcnt := rfl
@[simp] theorem append_p (s : State) (v : Byte) : (s.append v).p = s.p := rfl
@[simp] theorem append_cd (s : State) (v : Byte) : (s.append v).cd = s.cd := rfl
@[simp] theorem append_cl (s : State) (v : Byte) : (s.append v).cl = s.cl := rfl
@[simp] theorem append_bd (s : State) (v : Byte) : (s.append v).bd = s.bd := rfl
@[simp] theorem append_bl (s : State) (v : Byte) : (s.append v).bl = s.bl := rfl
@[simp] theorem append_gflags (s : State) (v : Byte) : (s.append v).gflags = s.gflags := rfl
@[simp] theorem append_gcnt (s : State) (v : Byte) : (s.append v).gcnt = s.gcnt := rfl
@[simp] theorem append_gbuf (s : State) (v : Byte) : (s.append v).gbuf = s.gbuf := rfl
@[simp] theorem append_glen (s : State) (v : Byte) : (s.append v).glen = s.glen := rfl
@[simp] theorem append_gidx (s : State) (v : Byte) : (s.append v).gidx = s.gidx := rfl
@[simp] theorem append_dpos (s : State) (v : Byte) : (s.append v).dpos = s.dpos := rfl
@[simp] theorem append_src (s : State) (v : Byte) : (s.append v).src = s.src := rfl
@[simp] theorem append_dst (s : State) (v : Byte) : (s.append v).dst = Mem.put s.dst s.outLen.toNat v := rfl
@[simp] theorem append_host (s : State) (v : Byte) : (s.append v).host = s.host := rfl
@[simp] theorem append_epoch (s : State) (v : Byte) : (s.append v).epoch = s.epoch := rfl

@[simp] theorem tokenDone_cfg (s : State) : s.tokenDone.cfg = s.cfg := rfl
@[simp] theorem tokenDone_op (s : State) : s.tokenDone.op = s.op := rfl
@[simp] theorem tokenDone_st (s : State) : s.tokenDone.st = s.afterToken := rfl
@[simp] theorem tokenDone_err (s : State) : s.tokenDone.err = s.err := rfl
@[simp] theorem tokenDone_srcLen (s : State) : s.tokenDone.srcLen = s.srcLen := rfl
@[simp] theorem tokenDone_spos (s : State) : s.tokenDone.spos = s.spos := rfl
@[simp] theorem tokenDone_unpackedSize (s : State) : s.tokenDone.unpackedSize = s.unpackedSize := rfl
@[simp] theorem tokenDone_acc (s : State) : s.tokenDone.acc = s.acc := rfl
@[simp] theorem tokenDone_outLen (s : State) : s.tokenDone.outLen = s.outLen := rfl
@[simp] theorem tokenDone_flags (s : State) : s.tokenDone.flags = s.flags := rfl
@[simp] theorem tokenDone_fcnt (s : State) : s.tokenDone.fcnt = s.fcnt := rfl
@[simp] theorem tokenDone_distb (s : State) : s.tokenDone.distb = s.distb := rfl
@[simp] theorem tokenDone_dist (s : State) : s.tokenDone.dist = s.dist := rfl
@[simp] theorem tokenDone_rem (s : State) : s.tokenDone.rem = s.rem := rfl
@[simp] theorem tokenDone_hist (s : State) : s.tokenDone.hist = s.hist := rfl
@[simp] theorem tokenDone_hcnt (s : State) : s.tokenDone.hcnt = s.hcnt := rfl
@[simp] theorem tokenDone_p (s : State) : s.tokenDone.p = s.p := rfl
@[simp] theorem tokenDone_cd (s : State) : s.tokenDone.cd = s.cd := rfl
@[simp] theorem tokenDone_cl (s : State) : s.tokenDone.cl = s.cl := rfl
@[simp] theorem tokenDone_bd (s : State) : s.tokenDone.bd = s.bd := rfl
@[simp] theorem tokenDone_bl (s : State) : s.tokenDone.bl = s.bl := rfl
@[simp] theorem tokenDone_gflags (s : State) : s.tokenDone.gflags = s.gflags := rfl
@[simp] theorem tokenDone_gcnt (s : State) : s.tokenDone.gcnt = s.gcnt := rfl
@[simp] theorem tokenDone_gbuf (s : State) : s.tokenDone.gbuf = s.gbuf := rfl
@[simp] theorem tokenDone_glen (s : State) : s.tokenDone.glen = s.glen := rfl
@[simp] theorem tokenDone_gidx (s : State) : s.tokenDone.gidx = s.gidx := rfl
@[simp] theorem tokenDone_dpos (s : State) : s.tokenDone.dpos = s.dpos := rfl
@[simp] theorem tokenDone_src (s : State) : s.tokenDone.src = s.src := rfl
@[simp] theorem tokenDone_dst (s : State) : s.tokenDone.dst = s.dst := rfl
@[simp] theorem tokenDone_host (s : State) : s.tokenDone.host = s.host := rfl
@[simp] theorem tokenDone_epoch (s : State) : s.tokenDone.epoch = s.epoch := rfl

@[simp] theorem emit_cfg (s : State) (v : Byte) : (s.emit v).cfg = s.cfg := rfl
@[simp] theorem emit_op (s : State) (v : Byte) : (s.emit v).op = s.op := rfl
@[simp] theorem emit_st (s : State) (v : Byte) : (s.emit v).st = s.st := rfl
@[simp] theorem emit_err (s : State) (v : Byte) : (s.emit v).err = s.err := rfl
@[simp] theorem emit_srcLen (s : State) (v : Byte) : (s.emit v).srcLen = s.srcLen := rfl
@[simp] theorem emit_spos (s : State) (v : Byte) : (s.emit v).spos = s.spos := rfl
@[simp] theorem emit_unpackedSize (s : State) (v : Byte) : (s.emit v).unpackedSize = s.unpackedSize := rfl
@[simp] theorem emit_acc (s : State) (v : Byte) : (s.emit v).acc = s.acc := rfl
@[simp] theorem emit_outLen (s : State) (v : Byte) : (s.emit v).outLen = s.outLen := rfl
@[simp] theorem emit_flags (s : State) (v : Byte) : (s.emit v).flags = s.flags := rfl
@[simp] theorem emit_fcnt (s : State) (v : Byte) : (s.emit v).fcnt = s.fcnt := rfl
@[simp] theorem emit_distb (s : State) (v : Byte) : (s.emit v).distb = s.distb := rfl
@[simp] theorem emit_dist (s : State) (v : Byte) : (s.emit v).dist = s.dist := rfl
@[simp] theorem emit_rem (s : State) (v : Byte) : (s.emit v).rem = s.rem := rfl
@[simp] theorem emit_hist (s : State) (v : Byte) : (s.emit v).hist = s.hist := rfl
@[simp] theorem emit_hcnt (s : State) (v : Byte) : (s.emit v).hcnt = s.hcnt := rfl
@[simp] theorem emit_p (s : State) (v : Byte) : (s.emit v).p = s.p := rfl
@[simp] theorem emit_cd (s : State) (v : Byte) : (s.emit v).cd = s.cd := rfl
@[simp] theorem emit_cl (s : State) (v : Byte) : (s.emit v).cl = s.cl := rfl
@[simp] theorem emit_bd (s : State) (v : Byte) : (s.emit v).bd = s.bd := rfl
@[simp] theorem emit_bl (s : State) (v : Byte) : (s.emit v).bl = s.bl := rfl
@[simp] theorem emit_gflags (s : State) (v : Byte) : (s.emit v).gflags = s.gflags := rfl
@[simp] theorem emit_gcnt (s : State) (v : Byte) : (s.emit v).gcnt = s.gcnt := rfl
@[simp] theorem emit_gbuf (s : State) (v : Byte) : (s.emit v).gbuf = s.gbuf := rfl
@[simp] theorem emit_glen (s : State) (v : Byte) : (s.emit v).glen = s.glen := rfl
@[simp] theorem emit_gidx (s : State) (v : Byte) : (s.emit v).gidx = s.gidx := rfl
@[simp] theorem emit_dpos (s : State) (v : Byte) : (s.emit v).dpos = s.dpos + 1 := rfl
@[simp] theorem emit_src (s : State) (v : Byte) : (s.emit v).src = s.src := rfl
@[simp] theorem emit_dst (s : State) (v : Byte) : (s.emit v).dst = Mem.put s.dst s.dpos.toNat v := rfl
@[simp] theorem emit_host (s : State) (v : Byte) : (s.emit v).host = s.host := rfl
@[simp] theorem emit_epoch (s : State) (v : Byte) : (s.emit v).epoch = s.epoch := rfl

@[simp] theorem loadFlags_cfg (s : State) (b : Byte) : (s.loadFlags b).cfg = s.cfg := rfl
@[simp] theorem loadFlags_op (s : State) (b : Byte) : (s.loadFlags b).op = s.op := rfl
@[simp] theorem loadFlags_st (s : State) (b : Byte) : (s.loadFlags b).st = s.st := rfl
@[simp] theorem loadFlags_err (s : State) (b : Byte) : (s.loadFlags b).err = s.err := rfl
@[simp] theorem loadFlags_srcLen (s : State) (b : Byte) : (s.loadFlags b).srcLen = s.srcLen := rfl
@[simp] theorem loadFlags_spos (s : State) (b : Byte) : (s.loadFlags b).spos = s.spos := rfl
@[simp] theorem loadFlags_unpackedSize (s : State) (b : Byte) : (s.loadFlags b).unpackedSize = s.unpackedSize := rfl
@[simp] theorem loadFlags_acc (s : State) (b : Byte) : (s.loadFlags b).acc = s.acc := rfl
@[simp] theorem loadFlags_outLen (s : State) (b : Byte) : (s.loadFlags b).outLen = s.outLen := rfl
@[simp] theorem loadFlags_flags (s : State) (b : Byte) : (s.loadFlags b).flags = b := rfl
@[simp] theorem loadFlags_fcnt (s : State) (b : Byte) : (s.loadFlags b).fcnt = BitVec.ofNat 4 Config.doc.groupSize := rfl
@[simp] theorem loadFlags_distb (s : State) (b : Byte) : (s.loadFlags b).distb = s.distb := rfl
@[simp] theorem loadFlags_dist (s : State) (b : Byte) : (s.loadFlags b).dist = s.dist := rfl
@[simp] theorem loadFlags_rem (s : State) (b : Byte) : (s.loadFlags b).rem = s.rem := rfl
@[simp] theorem loadFlags_hist (s : State) (b : Byte) : (s.loadFlags b).hist = s.hist := rfl
@[simp] theorem loadFlags_hcnt (s : State) (b : Byte) : (s.loadFlags b).hcnt = s.hcnt := rfl
@[simp] theorem loadFlags_p (s : State) (b : Byte) : (s.loadFlags b).p = s.p := rfl
@[simp] theorem loadFlags_cd (s : State) (b : Byte) : (s.loadFlags b).cd = s.cd := rfl
@[simp] theorem loadFlags_cl (s : State) (b : Byte) : (s.loadFlags b).cl = s.cl := rfl
@[simp] theorem loadFlags_bd (s : State) (b : Byte) : (s.loadFlags b).bd = s.bd := rfl
@[simp] theorem loadFlags_bl (s : State) (b : Byte) : (s.loadFlags b).bl = s.bl := rfl
@[simp] theorem loadFlags_gflags (s : State) (b : Byte) : (s.loadFlags b).gflags = s.gflags := rfl
@[simp] theorem loadFlags_gcnt (s : State) (b : Byte) : (s.loadFlags b).gcnt = s.gcnt := rfl
@[simp] theorem loadFlags_gbuf (s : State) (b : Byte) : (s.loadFlags b).gbuf = s.gbuf := rfl
@[simp] theorem loadFlags_glen (s : State) (b : Byte) : (s.loadFlags b).glen = s.glen := rfl
@[simp] theorem loadFlags_gidx (s : State) (b : Byte) : (s.loadFlags b).gidx = s.gidx := rfl
@[simp] theorem loadFlags_dpos (s : State) (b : Byte) : (s.loadFlags b).dpos = s.dpos := rfl
@[simp] theorem loadFlags_src (s : State) (b : Byte) : (s.loadFlags b).src = s.src := rfl
@[simp] theorem loadFlags_dst (s : State) (b : Byte) : (s.loadFlags b).dst = s.dst := rfl
@[simp] theorem loadFlags_host (s : State) (b : Byte) : (s.loadFlags b).host = s.host := rfl
@[simp] theorem loadFlags_epoch (s : State) (b : Byte) : (s.loadFlags b).epoch = s.epoch := rfl

@[simp] theorem popFlag_cfg (s : State) : s.popFlag.cfg = s.cfg := rfl
@[simp] theorem popFlag_op (s : State) : s.popFlag.op = s.op := rfl
@[simp] theorem popFlag_st (s : State) : s.popFlag.st = s.st := rfl
@[simp] theorem popFlag_err (s : State) : s.popFlag.err = s.err := rfl
@[simp] theorem popFlag_srcLen (s : State) : s.popFlag.srcLen = s.srcLen := rfl
@[simp] theorem popFlag_spos (s : State) : s.popFlag.spos = s.spos := rfl
@[simp] theorem popFlag_unpackedSize (s : State) : s.popFlag.unpackedSize = s.unpackedSize := rfl
@[simp] theorem popFlag_acc (s : State) : s.popFlag.acc = s.acc := rfl
@[simp] theorem popFlag_outLen (s : State) : s.popFlag.outLen = s.outLen := rfl
@[simp] theorem popFlag_flags (s : State) : s.popFlag.flags = shiftFlags s.cfg.flagOrder s.flags := rfl
@[simp] theorem popFlag_fcnt (s : State) : s.popFlag.fcnt = s.fcnt - 1 := rfl
@[simp] theorem popFlag_distb (s : State) : s.popFlag.distb = s.distb := rfl
@[simp] theorem popFlag_dist (s : State) : s.popFlag.dist = s.dist := rfl
@[simp] theorem popFlag_rem (s : State) : s.popFlag.rem = s.rem := rfl
@[simp] theorem popFlag_hist (s : State) : s.popFlag.hist = s.hist := rfl
@[simp] theorem popFlag_hcnt (s : State) : s.popFlag.hcnt = s.hcnt := rfl
@[simp] theorem popFlag_p (s : State) : s.popFlag.p = s.p := rfl
@[simp] theorem popFlag_cd (s : State) : s.popFlag.cd = s.cd := rfl
@[simp] theorem popFlag_cl (s : State) : s.popFlag.cl = s.cl := rfl
@[simp] theorem popFlag_bd (s : State) : s.popFlag.bd = s.bd := rfl
@[simp] theorem popFlag_bl (s : State) : s.popFlag.bl = s.bl := rfl
@[simp] theorem popFlag_gflags (s : State) : s.popFlag.gflags = s.gflags := rfl
@[simp] theorem popFlag_gcnt (s : State) : s.popFlag.gcnt = s.gcnt := rfl
@[simp] theorem popFlag_gbuf (s : State) : s.popFlag.gbuf = s.gbuf := rfl
@[simp] theorem popFlag_glen (s : State) : s.popFlag.glen = s.glen := rfl
@[simp] theorem popFlag_gidx (s : State) : s.popFlag.gidx = s.gidx := rfl
@[simp] theorem popFlag_dpos (s : State) : s.popFlag.dpos = s.dpos := rfl
@[simp] theorem popFlag_src (s : State) : s.popFlag.src = s.src := rfl
@[simp] theorem popFlag_dst (s : State) : s.popFlag.dst = s.dst := rfl
@[simp] theorem popFlag_host (s : State) : s.popFlag.host = s.host := rfl
@[simp] theorem popFlag_epoch (s : State) : s.popFlag.epoch = s.epoch := rfl

@[simp] theorem start_cfg (s : State) (op : Op) (x : St) (n : Word) : (s.start op x n).cfg = s.cfg := rfl
@[simp] theorem start_op (s : State) (op : Op) (x : St) (n : Word) : (s.start op x n).op = op := rfl
@[simp] theorem start_st (s : State) (op : Op) (x : St) (n : Word) : (s.start op x n).st = x := rfl
@[simp] theorem start_err (s : State) (op : Op) (x : St) (n : Word) : (s.start op x n).err = .none := rfl
@[simp] theorem start_srcLen (s : State) (op : Op) (x : St) (n : Word) : (s.start op x n).srcLen = s.srcLen := rfl
@[simp] theorem start_spos (s : State) (op : Op) (x : St) (n : Word) : (s.start op x n).spos = 0 := rfl
@[simp] theorem start_unpackedSize (s : State) (op : Op) (x : St) (n : Word) : (s.start op x n).unpackedSize = n := rfl
@[simp] theorem start_acc (s : State) (op : Op) (x : St) (n : Word) : (s.start op x n).acc = 0 := rfl
@[simp] theorem start_outLen (s : State) (op : Op) (x : St) (n : Word) : (s.start op x n).outLen = 0 := rfl
@[simp] theorem start_flags (s : State) (op : Op) (x : St) (n : Word) : (s.start op x n).flags = 0 := rfl
@[simp] theorem start_fcnt (s : State) (op : Op) (x : St) (n : Word) : (s.start op x n).fcnt = 0 := rfl
@[simp] theorem start_distb (s : State) (op : Op) (x : St) (n : Word) : (s.start op x n).distb = 0 := rfl
@[simp] theorem start_dist (s : State) (op : Op) (x : St) (n : Word) : (s.start op x n).dist = 0 := rfl
@[simp] theorem start_rem (s : State) (op : Op) (x : St) (n : Word) : (s.start op x n).rem = 0 := rfl
@[simp] theorem start_hist (s : State) (op : Op) (x : St) (n : Word) : (s.start op x n).hist = s.hist := rfl
@[simp] theorem start_hcnt (s : State) (op : Op) (x : St) (n : Word) : (s.start op x n).hcnt = 0 := rfl
@[simp] theorem start_p (s : State) (op : Op) (x : St) (n : Word) : (s.start op x n).p = 0 := rfl
@[simp] theorem start_cd (s : State) (op : Op) (x : St) (n : Word) : (s.start op x n).cd = 0 := rfl
@[simp] theorem start_cl (s : State) (op : Op) (x : St) (n : Word) : (s.start op x n).cl = 0 := rfl
@[simp] theorem start_bd (s : State) (op : Op) (x : St) (n : Word) : (s.start op x n).bd = 0 := rfl
@[simp] theorem start_bl (s : State) (op : Op) (x : St) (n : Word) : (s.start op x n).bl = 0 := rfl
@[simp] theorem start_gflags (s : State) (op : Op) (x : St) (n : Word) : (s.start op x n).gflags = 0 := rfl
@[simp] theorem start_gcnt (s : State) (op : Op) (x : St) (n : Word) : (s.start op x n).gcnt = 0 := rfl
@[simp] theorem start_gbuf (s : State) (op : Op) (x : St) (n : Word) : (s.start op x n).gbuf = s.gbuf := rfl
@[simp] theorem start_glen (s : State) (op : Op) (x : St) (n : Word) : (s.start op x n).glen = 0 := rfl
@[simp] theorem start_gidx (s : State) (op : Op) (x : St) (n : Word) : (s.start op x n).gidx = 0 := rfl
@[simp] theorem start_dpos (s : State) (op : Op) (x : St) (n : Word) : (s.start op x n).dpos = 0 := rfl
@[simp] theorem start_src (s : State) (op : Op) (x : St) (n : Word) : (s.start op x n).src = s.src := rfl
@[simp] theorem start_dst (s : State) (op : Op) (x : St) (n : Word) : (s.start op x n).dst = [] := rfl
@[simp] theorem start_host (s : State) (op : Op) (x : St) (n : Word) : (s.start op x n).host = s.host := rfl
@[simp] theorem start_epoch (s : State) (op : Op) (x : St) (n : Word) : (s.start op x n).epoch = s.epoch := rfl

end Sys2Proof.Machine
end

