-- ==== Sys2Proof/Laws/Ops.lean ====
section
/-! SUPPORT. What the shared operations do, said once: the laws of a byte store and of its canonical form, the guard of
a step, and, for each step function and meaning, the cases of its result. -/

namespace Sys2Proof.Machine

/-! ### Byte stores -/

@[simp] theorem cell?_nil (a : Nat) : Mem.cell? [] a = none := rfl

theorem cell?_put_self (m : Mem) (a : Nat) (v : Byte) : Mem.cell? (Mem.put m a v) a = some v := by
  induction m with
  | nil => simp [Mem.put, Mem.cell?]
  | cons c m ih =>
    obtain ⟨k, b⟩ := c
    simp only [Mem.put]
    split
    · simp [Mem.cell?]
    · split
      · simp [Mem.cell?]
      · rename_i _ hne
        simp only [Mem.cell?, if_neg hne, ih]

theorem cell?_put_other (m : Mem) {a x : Nat} (v : Byte) (h : x ≠ a) :
    Mem.cell? (Mem.put m a v) x = Mem.cell? m x := by
  induction m with
  | nil => simp [Mem.put, Mem.cell?, h]
  | cons c m ih =>
    obtain ⟨k, b⟩ := c
    simp only [Mem.put]
    split
    · simp [Mem.cell?, h]
    · split
      · rename_i _ hk
        subst hk
        simp [Mem.cell?, h]
      · simp only [Mem.cell?, ih]

theorem cell?_put (m : Mem) (a x : Nat) (v : Byte) :
    Mem.cell? (Mem.put m a v) x = if x = a then some v else Mem.cell? m x := by
  split
  · rename_i h
    subst h
    exact cell?_put_self m x v
  · rename_i h
    exact cell?_put_other m v h

theorem risingFrom_mono {a b : Nat} (hab : a ≤ b) {m : Mem} (h : Mem.risingFrom b m = true) :
    Mem.risingFrom a m = true := by
  cases m with
  | nil => rfl
  | cons c m =>
    obtain ⟨k, v⟩ := c
    simp only [Mem.risingFrom, Bool.and_eq_true, decide_eq_true_eq] at h ⊢
    exact ⟨hab.trans h.1, h.2⟩

theorem risingFrom_put {m : Mem} {lo a : Nat} (v : Byte) (h : Mem.risingFrom lo m = true) (hlo : lo ≤ a) :
    Mem.risingFrom lo (Mem.put m a v) = true := by
  induction m generalizing lo with
  | nil => simpa [Mem.put, Mem.risingFrom] using hlo
  | cons c m ih =>
    obtain ⟨k, b⟩ := c
    simp only [Mem.risingFrom, Bool.and_eq_true, decide_eq_true_eq] at h
    simp only [Mem.put]
    split
    · rename_i hk
      simp only [Mem.risingFrom, Bool.and_eq_true, decide_eq_true_eq]
      exact ⟨hlo, hk, h.2⟩
    · split
      · rename_i _ hk
        subst hk
        simp only [Mem.risingFrom, Bool.and_eq_true, decide_eq_true_eq]
        exact ⟨hlo, h.2⟩
      · simp only [Mem.risingFrom, Bool.and_eq_true, decide_eq_true_eq]
        exact ⟨h.1, ih h.2 (by omega)⟩

/-- A write keeps the canonical form. -/
theorem wf_put {m : Mem} (a : Nat) (v : Byte) (h : m.wf = true) : Mem.wf (Mem.put m a v) = true :=
  risingFrom_put v h (Nat.zero_le a)

/-- Writing several bytes keeps the canonical form. -/
theorem wf_putBytes {m : Mem} (a : Nat) (bs : List Byte) (h : m.wf = true) :
    Mem.wf (Mem.putBytes m a bs) = true := by
  induction bs generalizing m a with
  | nil => exact h
  | cons b bs ih => exact ih (a + 1) (wf_put a b h)

theorem risingFrom_ofBytes (a : Nat) (bs : List Byte) : Mem.risingFrom a (Mem.ofBytes a bs) = true := by
  induction bs generalizing a with
  | nil => rfl
  | cons b bs ih => simp [Mem.ofBytes, Mem.risingFrom, ih]

/-- The bytes the host places are in canonical form. -/
theorem wf_ofBytes (a : Nat) (bs : List Byte) : Mem.wf (Mem.ofBytes a bs) = true :=
  risingFrom_mono (Nat.zero_le a) (risingFrom_ofBytes a bs)

/-- Reset's stores are in canonical form. -/
theorem wf_reset :
    Mem.wf State.reset.src = true ∧ Mem.wf State.reset.dst = true ∧ Mem.wf State.reset.hist = true ∧
      Mem.wf State.reset.gbuf = true := ⟨rfl, rfl, rfl, rfl⟩

theorem cell?_ofBytes (a : Nat) (bs : List Byte) (x : Nat) :
    Mem.cell? (Mem.ofBytes a bs) x = if a ≤ x then bs[x - a]? else none := by
  induction bs generalizing a with
  | nil => simp [Mem.ofBytes]
  | cons b bs ih =>
    simp only [Mem.ofBytes, Mem.cell?]
    by_cases hx : x = a
    · simp [hx]
    · rw [if_neg hx, ih]
      by_cases hle : a + 1 ≤ x
      · have hx' : x - a = x - (a + 1) + 1 := by omega
        rw [if_pos hle, if_pos (by omega : a ≤ x), hx', List.getElem?_cons_succ]
      · rw [if_neg hle, if_neg (by omega : ¬ a ≤ x)]

theorem cell?_eq_none_of_lt {m : Mem} {lo a : Nat} (h : Mem.risingFrom lo m = true) (ha : a < lo) :
    Mem.cell? m a = none := by
  induction m generalizing lo with
  | nil => rfl
  | cons c m ih =>
    obtain ⟨k, b⟩ := c
    simp only [Mem.risingFrom, Bool.and_eq_true, decide_eq_true_eq] at h
    rw [Mem.cell?, if_neg (by omega : ¬ a = k)]
    exact ih h.2 (by omega)

theorem eq_of_cell?_eq {m n : Mem} {lo : Nat} (hm : Mem.risingFrom lo m = true) (hn : Mem.risingFrom lo n = true)
    (h : ∀ a, Mem.cell? m a = Mem.cell? n a) : m = n := by
  induction m generalizing n lo with
  | nil =>
    cases n with
    | nil => rfl
    | cons c n => simpa [Mem.cell?] using h c.1
  | cons c m ih =>
    obtain ⟨k, b⟩ := c
    simp only [Mem.risingFrom, Bool.and_eq_true, decide_eq_true_eq] at hm
    cases n with
    | nil => simpa [Mem.cell?] using h k
    | cons e n =>
      obtain ⟨j, d⟩ := e
      simp only [Mem.risingFrom, Bool.and_eq_true, decide_eq_true_eq] at hn
      have hkj : k = j := by
        have hk := h k
        have hj := h j
        simp only [Mem.cell?] at hk hj
        by_contra hne
        rcases Nat.lt_or_gt_of_ne hne with hlt | hgt
        · simp [hne, cell?_eq_none_of_lt hn.2 (by omega : k < j + 1)] at hk
        · simp [Ne.symm hne, cell?_eq_none_of_lt hm.2 (by omega : j < k + 1)] at hj
      subst hkj
      have hbd : b = d := by simpa [Mem.cell?] using h k
      subst hbd
      congr 1
      refine ih hm.2 hn.2 fun a => ?_
      by_cases hak : a = k
      · subst hak
        rw [cell?_eq_none_of_lt hm.2 (by omega), cell?_eq_none_of_lt hn.2 (by omega)]
      · simpa [Mem.cell?, hak] using h a

/-- The form is canonical: two stores in it that hold the same written bytes are the same data. -/
theorem mem_ext {m n : Mem} (hm : m.wf = true) (hn : n.wf = true) (h : ∀ a, Mem.cell? m a = Mem.cell? n a) : m = n :=
  eq_of_cell?_eq hm hn h

/-! ### The guard -/

theorem guarded_next_iff {s t u : State} : s.guarded t = .next u ↔ s.operandsHeld = true ∧ u = t := by
  unfold State.guarded
  split
  · rename_i h
    simp only [Host.Outcome.next.injEq, h, true_and]
    exact eq_comm
  · simp_all

theorem guarded_of_held {s : State} (t : State) (h : s.operandsHeld = true) : s.guarded t = .next t := by
  simp [State.guarded, h]

/-! ### The step functions -/

theorem magicStep_cases (b : Byte) (s : State) :
    (s.srcExhausted = true ∧ magicStep b s = s.raise .truncatedInput) ∨
    (s.srcExhausted = false ∧
      ∃ acc, acc = s.acc ||| (b.setWidth 32 <<< (8 * s.spos.toNat)) ∧
        ((s.spos.toNat + 1 ≠ 4 ∧ magicStep b s = { s.advance with acc := acc }) ∨
         (s.spos.toNat + 1 = 4 ∧ acc = Config.doc.magic ∧ magicStep b s = { s.advance with acc := acc, st := .uSize }) ∨
         (s.spos.toNat + 1 = 4 ∧ acc ≠ Config.doc.magic ∧
            magicStep b s = { s.advance with acc := acc, st := .failed, err := .invalidMagic }))) := by
  cases he : s.srcExhausted
  · refine .inr ⟨rfl, _, rfl, ?_⟩
    by_cases h4 : s.spos.toNat + 1 = 4
    · by_cases hm : s.acc ||| (b.setWidth 32 <<< (8 * s.spos.toNat)) = Config.doc.magic
      · exact .inr (.inl ⟨h4, hm, by simp_all [magicStep, State.goto]⟩)
      · exact .inr (.inr ⟨h4, hm, by simp_all [magicStep, State.raise]⟩)
    · exact .inl ⟨h4, by simp [magicStep, he, h4]⟩
  · exact .inl ⟨rfl, by simp [magicStep, he]⟩

theorem sizeStep_cases (b : Byte) (s : State) :
    (s.srcExhausted = true ∧ sizeStep b s = s.raise .truncatedInput) ∨
    (s.srcExhausted = false ∧
      sizeStep b s =
        { s.advance with
          unpackedSize := s.unpackedSize ||| (b.setWidth 32 <<< (8 * (s.spos.toNat - 4))),
          st := if s.spos.toNat + 1 = 8 then .uPad else s.st }) := by
  cases he : s.srcExhausted
  · refine .inr ⟨rfl, ?_⟩
    by_cases h8 : s.spos.toNat + 1 = 8 <;> simp [sizeStep, he, h8, State.goto, State.advance]
  · exact .inl ⟨rfl, by simp [sizeStep, he]⟩

theorem padStep_cases (s : State) :
    (s.srcExhausted = true ∧ padStep s = s.raise .truncatedInput) ∨
    (s.srcExhausted = false ∧
      padStep s = { s.advance with st := if s.spos.toNat + 1 = 128 then .dFlag else s.st }) := by
  cases he : s.srcExhausted
  · refine .inr ⟨rfl, ?_⟩
    by_cases h : s.spos.toNat + 1 = 128 <;> simp [padStep, he, h, State.goto, State.advance]
  · exact .inl ⟨rfl, by simp [padStep, he]⟩

theorem flagStep_cases (b : Byte) (s : State) :
    (s.outLen = s.unpackedSize ∧ flagStep b s = s.goto .done) ∨
    (s.outLen ≠ s.unpackedSize ∧ s.srcExhausted = true ∧ flagStep b s = s.raise .truncatedInput) ∨
    (s.outLen ≠ s.unpackedSize ∧ s.srcExhausted = false ∧
      flagStep b s = { s.advance with flags := b, fcnt := 8, st := .dTok }) := by
  by_cases ho : s.outLen = s.unpackedSize
  · exact .inl ⟨ho, by simp [flagStep, ho]⟩
  · cases he : s.srcExhausted
    · exact .inr (.inr ⟨ho, rfl, by simp [flagStep, ho, he, State.goto, State.advance, State.loadFlags]⟩)
    · exact .inr (.inl ⟨ho, rfl, by simp [flagStep, ho, he]⟩)

theorem tokStep_cases (x : Byte) (s : State) :
    (s.srcExhausted = true ∧ tokStep x s = s.raise .truncatedInput) ∨
    (s.srcExhausted = false ∧ s.selector = false ∧ tokStep x s = (s.popFlag.advance.append x).tokenDone) ∨
    (s.srcExhausted = false ∧ s.selector = true ∧
      tokStep x s = { s.popFlag.advance with distb := x, st := .dLen }) := by
  cases he : s.srcExhausted
  · cases hs : s.selector
    · exact .inr (.inl ⟨rfl, rfl, by simp [tokStep, he, hs]⟩)
    · exact .inr (.inr ⟨rfl, rfl, by simp [tokStep, he, hs]⟩)
  · exact .inl ⟨rfl, by simp [tokStep, he]⟩

theorem lenStep_cases (y : Byte) (s : State) :
    (s.srcExhausted = true ∧ lenStep y s = s.raise .truncatedInput) ∨
    (s.srcExhausted = false ∧
      ∃ t, t = { s.advance with dist := BitVec.ofNat 9 (mapD s.cfg s.distb), rem := BitVec.ofNat 9 (mapL s.cfg y) } ∧
        ((s.outLen.toNat < mapD s.cfg s.distb ∧ lenStep y s = t.raise .invalidOffset) ∨
         (mapD s.cfg s.distb ≤ s.outLen.toNat ∧ s.cfg.overshoot = .fault ∧
            s.unpackedSize.toNat < s.outLen.toNat + mapL s.cfg y ∧ lenStep y s = t.raise .sizeMismatch) ∨
         (mapD s.cfg s.distb ≤ s.outLen.toNat ∧
            ¬ (s.cfg.overshoot = .fault ∧ s.unpackedSize.toNat < s.outLen.toNat + mapL s.cfg y) ∧
            lenStep y s = t.goto .dCopy))) := by
  cases he : s.srcExhausted
  · refine .inr ⟨rfl, _, rfl, ?_⟩
    by_cases hd : s.outLen.toNat < mapD s.cfg s.distb
    · exact .inl ⟨hd, by simp [lenStep, he, hd]⟩
    · by_cases hf : s.cfg.overshoot = .fault ∧ s.unpackedSize.toNat < s.outLen.toNat + mapL s.cfg y
      · exact .inr (.inl ⟨by omega, hf.1, hf.2, by simp [lenStep, he, hd, hf.1, hf.2]⟩)
      · exact .inr (.inr ⟨by omega, hf, by simp only [lenStep, he, if_neg hd, if_neg hf]; rfl⟩)
  · exact .inl ⟨rfl, by simp [lenStep, he]⟩

theorem copyStep_eq (s : State) :
    copyStep s =
      { s with
        dst := Mem.put s.dst s.outLen.toNat (s.histByte (lookbackIndex s)),
        hist := Mem.put s.hist (s.outLen.toNat % 256) (s.histByte (lookbackIndex s)),
        outLen := s.outLen + 1, rem := s.rem - 1,
        st := if s.outLen + 1 = s.unpackedSize then .done
              else if s.rem - 1 = 0 then (if s.fcnt = 0 then .dFlag else .dTok) else .dCopy } := rfl

theorem hdrStep_eq (s : State) :
    hdrStep s =
      { s with dst := Mem.put s.dst s.dpos.toNat (emittedHeaderByte s), dpos := s.dpos + 1, hcnt := s.hcnt + 1,
               st := if s.hcnt.toNat + 1 = 128 then .pNext else s.st } := by
  by_cases h : s.hcnt.toNat + 1 = 128 <;> simp [hdrStep, h, State.emit, State.goto]

theorem nextStep_cases (s : State) :
    (s.p.toNat = s.srcLen.toNat ∧ 0 < s.gcnt.toNat ∧ nextStep s = s.goto .pFlush) ∨
    (s.p.toNat = s.srcLen.toNat ∧ s.gcnt.toNat = 0 ∧ nextStep s = s.goto .done) ∨
    (s.p.toNat ≠ s.srcLen.toNat ∧ nextStep s = { s with cd := 1, cl := 0, bd := 0, bl := 0, st := .pScan }) := by
  by_cases hp : s.p.toNat = s.srcLen.toNat
  · by_cases hg : 0 < s.gcnt.toNat
    · exact .inl ⟨hp, hg, by simp only [nextStep, if_pos hp, if_pos hg]⟩
    · exact .inr (.inl ⟨hp, by omega, by simp only [nextStep, if_pos hp, if_neg hg]⟩)
  · exact .inr (.inr ⟨hp, by simp only [nextStep, if_neg hp]; rfl⟩)

theorem scanStep_cases (s : State) :
    (maxDistAt s < s.cd.toNat ∧ scanStep s = s.goto .pEmit) ∨
    (s.cd.toNat ≤ maxDistAt s ∧ s.cl.toNat < maxLenAt s ∧
      s.srcByte (s.p.toNat + s.cl.toNat) = s.srcByte (s.p.toNat + s.cl.toNat - s.cd.toNat) ∧
      scanStep s = { s with cl := s.cl + 1 }) ∨
    (s.cd.toNat ≤ maxDistAt s ∧
      ¬ (s.cl.toNat < maxLenAt s ∧
        s.srcByte (s.p.toNat + s.cl.toNat) = s.srcByte (s.p.toNat + s.cl.toNat - s.cd.toNat)) ∧
      ((s.bl.toNat < s.cl.toNat ∧ scanStep s = { s with bl := s.cl, bd := s.cd, cd := s.cd + 1, cl := 0 }) ∨
       (s.cl.toNat ≤ s.bl.toNat ∧ scanStep s = { s with cd := s.cd + 1, cl := 0 }))) := by
  by_cases hd : maxDistAt s < s.cd.toNat
  · exact .inl ⟨hd, by simp only [scanStep, if_pos hd]⟩
  · by_cases hm : s.cl.toNat < maxLenAt s ∧
        s.srcByte (s.p.toNat + s.cl.toNat) = s.srcByte (s.p.toNat + s.cl.toNat - s.cd.toNat)
    · exact .inr (.inl ⟨by omega, hm.1, hm.2, by simp only [scanStep, if_neg hd, if_pos hm]⟩)
    · refine .inr (.inr ⟨by omega, hm, ?_⟩)
      by_cases hb : s.bl.toNat < s.cl.toNat
      · exact .inl ⟨hb, by simp only [scanStep, if_neg hd, if_neg hm, if_pos hb]⟩
      · exact .inr ⟨by omega, by simp only [scanStep, if_neg hd, if_neg hm, if_neg hb]⟩

/-! ### The selector of a token in a flag byte -/

@[simp] theorem selectorBit_false (o : FlagOrder) (k : Nat) : selectorBit o k false = 0 := by
  simp [selectorBit]

@[simp] theorem selectorBit_true (o : FlagOrder) (k : Nat) : selectorBit o k true = 1 <<< flagpos o k := rfl

theorem withSelector_lz (s : State) :
    s.withSelector Config.doc.flagLz = s.gflags ||| (1 <<< flagpos s.cfg.flagOrder s.gcnt.toNat) := rfl

theorem withSelector_raw (s : State) : s.withSelector Config.doc.flagRaw = s.gflags := by
  simp [State.withSelector]

/-- A Literal leaves `GFLAGS` as it is: its selector bit stays 0 (42_encoder.md R189). -/
theorem queueLiteral_eq (s : State) :
    queueLiteral s =
      { s with gbuf := Mem.put s.gbuf s.glen.toNat (s.srcByte s.p.toNat), glen := s.glen + 1, p := s.p + 1 } := by
  rw [queueLiteral, withSelector_raw]

theorem emitStep_cases (s : State) :
    ∃ st, st = (if s.gcnt.toNat + 1 = 8 then St.pFlush else .pNext) ∧
      ((2 ≤ s.bl.toNat ∧ emitStep s = { queueCopy s with gcnt := s.gcnt + 1, st := st }) ∨
       (s.bl.toNat < 2 ∧ emitStep s = { queueLiteral s with gcnt := s.gcnt + 1, st := st })) := by
  refine ⟨_, rfl, ?_⟩
  by_cases hb : 2 ≤ s.bl.toNat
  · exact .inl ⟨hb, by simp only [emitStep, if_pos hb]⟩
  · exact .inr ⟨by omega, by simp only [emitStep, if_neg hb]⟩

theorem flushStep_cases (s : State) :
    (s.gidx.toNat = s.glen.toNat ∧
      flushStep s = { s.emit (flushedByte s) with gflags := 0, gcnt := 0, glen := 0, gidx := 0, st := .pNext }) ∨
    (s.gidx.toNat ≠ s.glen.toNat ∧ flushStep s = { s.emit (flushedByte s) with gidx := s.gidx + 1 }) := by
  by_cases h : s.gidx.toNat = s.glen.toNat
  · exact .inl ⟨h, by simp only [flushStep, if_pos h]⟩
  · exact .inr ⟨h, by simp only [flushStep, if_neg h]⟩

/-! ### The meanings: what a next state means -/

theorem execHeader_next {n : Word} {pad : List Byte} {s t : State} (h : execHeader n pad s = .next t) :
    s.operandsHeld = true ∧
      ((s.st = .uMagic ∧ t = magicStep (itemByte (.header n pad) s.spos.toNat) s) ∨
       (s.st = .uSize ∧ t = sizeStep (itemByte (.header n pad) s.spos.toNat) s) ∨
       (s.st = .uPad ∧ t = padStep s)) := by
  unfold execHeader at h
  split at h <;> simp_all [guarded_next_iff]

theorem execFlag_next {f : Byte} {s t : State} (h : execFlag f s = .next t) :
    s.operandsHeld = true ∧ s.st = .dFlag ∧ t = flagStep f s := by
  unfold execFlag at h
  split at h <;> simp_all [guarded_next_iff]

theorem execLiteral_next {b : Byte} {s t : State} (h : execLiteral b s = .next t) :
    s.operandsHeld = true ∧ s.st = .dTok ∧ s.selector = false ∧ t = tokStep b s := by
  unfold execLiteral at h
  split at h
  · split at h <;> simp_all [guarded_next_iff]
  · cases h

theorem execCopy_next {x y : Byte} {s t : State} (h : execCopy x y s = .next t) :
    s.operandsHeld = true ∧
      ((s.st = .dTok ∧ s.selector = true ∧ t = tokStep x s) ∨ (s.st = .dLen ∧ t = lenStep y s) ∨
       (s.st = .dCopy ∧ t = copyStep s)) := by
  unfold execCopy at h
  split at h
  · split at h <;> simp_all [guarded_next_iff]
  all_goals simp_all [guarded_next_iff]

theorem execUnpack_next {s t : State} (h : execUnpack s = .next t) :
    (s.busy = true ∧ t = s) ∨ (s.busy = false ∧ t = s.start .unpack .uMagic 0) := by
  injection h with h
  subst h
  cases s.busy
  · exact .inr ⟨rfl, rfl⟩
  · exact .inl ⟨rfl, rfl⟩

theorem execPack_next {s t : State} (h : execPack s = .next t) :
    (s.busy = true ∧ t = s) ∨
    (s.busy = false ∧ s.srcLen.toNat < 2 ^ 32 ∧ t = s.start .pack .pHdr (s.srcLen.setWidth 32)) ∨
    (s.busy = false ∧ 2 ^ 32 ≤ s.srcLen.toNat ∧ t = s) := by
  injection h with h
  subst h
  cases s.busy
  · by_cases hl : s.srcLen.toNat < 2 ^ 32
    · exact .inr (.inl ⟨rfl, hl, if_pos hl⟩)
    · exact .inr (.inr ⟨rfl, by omega, if_neg hl⟩)
  · exact .inl ⟨rfl, rfl⟩

/-- What a step of an UNPACK state on the byte at `SPOS` can answer. -/
theorem bytewiseStep_next {s t : State} (h : bytewiseStep s = .next t) :
    (s.operandsHeld = true ∧
      ((s.st = .uMagic ∧ t = magicStep (s.srcByte s.spos.toNat) s) ∨
       (s.st = .uSize ∧ t = sizeStep (s.srcByte s.spos.toNat) s) ∨ (s.st = .uPad ∧ t = padStep s) ∨
       (s.st = .dFlag ∧ t = flagStep (s.srcByte s.spos.toNat) s) ∨
       (s.st = .dTok ∧ t = tokStep (s.srcByte s.spos.toNat) s) ∨
       (s.st = .dLen ∧ t = lenStep (s.srcByte s.spos.toNat) s) ∨ (s.st = .dCopy ∧ t = copyStep s))) ∨
    (s.st ≠ .uMagic ∧ s.st ≠ .uSize ∧ s.st ≠ .uPad ∧ s.st ≠ .dFlag ∧ s.st ≠ .dTok ∧ s.st ≠ .dLen ∧ s.st ≠ .dCopy ∧
      t = s) := by
  unfold bytewiseStep at h
  split at h <;> simp_all [guarded_next_iff]

/-- What a step of a PACK state can answer. -/
theorem encoderStep_next {s t : State} (h : encoderStep s = .next t) :
    (s.operandsHeld = true ∧
      ((s.st = .pHdr ∧ t = hdrStep s) ∨ (s.st = .pNext ∧ t = nextStep s) ∨ (s.st = .pScan ∧ t = scanStep s) ∨
       (s.st = .pEmit ∧ t = emitStep s) ∨ (s.st = .pFlush ∧ t = flushStep s))) ∨
    (s.st ≠ .pHdr ∧ s.st ≠ .pNext ∧ s.st ≠ .pScan ∧ s.st ≠ .pEmit ∧ s.st ≠ .pFlush ∧ t = s) := by
  unfold encoderStep at h
  split at h <;> simp_all [guarded_next_iff]

/-! ### The step -/

/-- What the machine's step is, by what the host does next. -/
theorem step_cases (s : State) :
    (s.host = [] ∧ step s = blockStep s) ∨
    ∃ e later, s.host = e :: later ∧ ∃ r, r = { s with host := later } ∧
      ((e = .tick ∧ step s = blockStep r) ∨
       (∃ v, e = .writeCmd v ∧ step s = hostWriteCmd v r) ∨
       (∃ v, e = .writeSrcLen v ∧ step s = .next (hostWriteSrcLen v r)) ∨
       (∃ reg v, e = .writeReadOnly reg v ∧ step s = .next r) ∨
       (∃ bytes, e = .load bytes ∧ step s = hostLoad bytes r) ∨
       (e = .reset ∧ step s = .next (hostReset r))) := by
  cases hh : s.host with
  | nil => exact .inl ⟨rfl, by simp [step, hh]⟩
  | cons e later =>
    refine .inr ⟨e, later, rfl, _, rfl, ?_⟩
    cases e <;> simp [step, hh]

end Sys2Proof.Machine
end

