-- ==== Sys2Proof/Laws/Fetch.lean ====
section
/-! SUPPORT. Fetching takes the bytes of SRC at the place of the item in progress, so the step of a decoded item is the
step rule on the byte at `SPOS`: a step of an UNPACK state is always `bytewiseStep`. -/

namespace Sys2Proof.Machine

/-- The selector that `setHeadSelector` puts at the consumption end is the one read there. -/
theorem headSelector_setHeadSelector (o : FlagOrder) (flags : Byte) (sel : Bool) :
    headSelector o (setHeadSelector o flags sel) = sel := by
  cases o <;> cases sel <;> simp [headSelector, setHeadSelector, flagpos]

theorem srcBytes_getElem? (s : State) (a n k : Nat) :
    (s.srcBytes a n)[k]? = if k < n ∧ a + k < s.srcLen.toNat then some (s.srcByte (a + k)) else none := by
  induction n generalizing a k with
  | zero => simp [State.srcBytes]
  | succ n ih =>
    simp only [State.srcBytes]
    split
    · rename_i ha
      cases k with
      | zero => simp [ha]
      | succ k =>
        rw [List.getElem?_cons_succ, ih]
        have he : a + 1 + k = a + (k + 1) := by omega
        simp only [he, Nat.add_lt_add_iff_right]
    · rename_i ha
      rw [List.getElem?_nil, if_neg (by omega)]

theorem wordByte_toNat (w : Word) (k : Nat) : (wordByte w k).toNat = w.toNat / 2 ^ (8 * k) % 256 := by
  simp [wordByte, Nat.shiftRight_eq_div_pow]

theorem leWord_toNat (b0 b1 b2 b3 : Byte) :
    (leWord b0 b1 b2 b3).toNat = b0.toNat + 2 ^ 8 * b1.toNat + 2 ^ 16 * b2.toNat + 2 ^ 24 * b3.toNat := by
  simp only [leWord, BitVec.toNat_ofNat]
  have h0 := b0.isLt
  have h1 := b1.isLt
  have h2 := b2.isLt
  have h3 := b3.isLt
  omega

/-- The four bytes of an assembled word are the bytes it was assembled from. -/
theorem leBytes_leWord (b0 b1 b2 b3 : Byte) : leBytes (leWord b0 b1 b2 b3) = [b0, b1, b2, b3] := by
  have h0 := b0.isLt
  have h1 := b1.isLt
  have h2 := b2.isLt
  have h3 := b3.isLt
  simp only [leBytes, List.cons.injEq, and_true]
  refine ⟨?_, ?_, ?_, ?_⟩ <;> apply BitVec.eq_of_toNat_eq <;> rw [wordByte_toNat, leWord_toNat] <;> omega

/-- The four bytes at an offset, read back from the word assembled there. -/
theorem leBytes_leWordAt {bytes : List Byte} {offset : Nat} (h : offset + 4 ≤ bytes.length) :
    leBytes (leWordAt bytes offset) = (bytes.drop offset).take 4 := by
  rw [leWordAt, leBytes_leWord]
  apply List.ext_getElem?
  intro k
  rw [List.getElem?_take, List.getElem?_drop]
  have there : ∀ j, j < 4 → bytes[offset + j]? = some (bytes.getD (offset + j) 0) := by
    intro j hj
    rw [List.getD_eq_getElem?_getD, List.getElem?_eq_getElem (show offset + j < bytes.length by omega)]
    rfl
  match k with
  | 0 => exact (there 0 (by omega)).symm
  | 1 => exact (there 1 (by omega)).symm
  | 2 => exact (there 2 (by omega)).symm
  | 3 => exact (there 3 (by omega)).symm
  | k + 4 => simp

/-- What decodes in the header slot is a header whose encoding has the decoded bytes. -/
theorem decodeHeaderItem_bytes {bytes rest : List Byte} {i : Instr} (h : decodeHeaderItem bytes = .ok (i, rest)) :
    ∃ n pad, i = .header n pad ∧ pad.length = 120 ∧ encode i ++ rest = bytes := by
  unfold decodeHeaderItem at h
  split at h
  · cases h
  split at h
  · cases h
  rename_i hm
  split at h
  · cases h
  rename_i hl
  have hlen : 128 ≤ bytes.length := Nat.le_of_not_lt hl
  simp only [Except.ok.injEq, Prod.mk.injEq] at h
  obtain ⟨rfl, rfl⟩ := h
  refine ⟨_, _, rfl, ?_, ?_⟩
  · rw [List.length_take, List.length_drop]
    exact Nat.min_eq_left (show 120 ≤ bytes.length - 8 by omega)
  have hmagic := leBytes_leWordAt (bytes := bytes) (offset := 0) (by omega)
  have hsize := leBytes_leWordAt (bytes := bytes) (offset := 4) (by omega)
  rw [not_not.mp hm] at hmagic
  rw [encode, hmagic, hsize]
  have hpad : (bytes.drop 8).take padLength ++ bytes.drop 128 = bytes.drop 8 := by
    rw [show padLength = 120 from rfl, ← List.drop_drop (i := 120) (j := 8), List.take_append_drop]
  have hmid : (bytes.drop 4).take 4 ++ bytes.drop 8 = bytes.drop 4 := by
    rw [← List.drop_drop (i := 4) (j := 4), List.take_append_drop]
  rw [List.append_assoc, List.append_assoc, hpad, hmid, List.drop_zero, List.take_append_drop]

/-- The `k`-th byte of a fetched header is the `k`-th byte of SRC. -/
theorem itemByte_of_fetched_header {s : State} {i : Instr} {rest : List Byte}
    (h : decode .header (s.srcBytes 0 128) = .ok (i, rest)) {k : Nat} (hk : k < 128) :
    itemByte i k = s.srcByte k := by
  obtain ⟨n, pad, rfl, hp, hb⟩ := decodeHeaderItem_bytes h
  have hlen : (encode (.header n pad)).length = 128 := by simp [encode, leBytes, hp]
  have hget : (s.srcBytes 0 128)[k]? = (encode (.header n pad))[k]? := by
    rw [← hb, List.getElem?_append_left (by omega)]
  rw [srcBytes_getElem?] at hget
  rw [itemByte, List.getD_eq_getElem?_getD, ← hget]
  split
  · simp
  · rename_i hno
    rw [if_neg hno] at hget
    have := List.getElem?_eq_none_iff.mp hget.symm
    omega

theorem fetchItem_eq_some {s : State} {i : Instr} (h : fetchItem s = some i) :
    ∃ slot a rest, s.itemSlot? = some (slot, a) ∧ decode slot (s.srcBytes a (slotLength slot)) = .ok (i, rest) := by
  unfold fetchItem at h
  split at h
  · cases h
  · rename_i slot a hslot
    split at h
    · rename_i j rest hd
      cases h
      exact ⟨slot, a, rest, hslot, hd⟩
    · cases h

theorem decode_flag_ok {bytes rest : List Byte} {i : Instr} (h : decode .flag bytes = .ok (i, rest)) :
    ∃ f, i = .flag f ∧ bytes = f :: rest := by
  cases bytes with
  | nil => simp [decode] at h
  | cons f more =>
    simp only [decode, Except.ok.injEq, Prod.mk.injEq] at h
    exact ⟨f, h.1.symm, by rw [h.2]⟩

theorem decode_raw_ok {bytes rest : List Byte} {i : Instr} (h : decode (.token false) bytes = .ok (i, rest)) :
    ∃ b, i = .literal b ∧ bytes = b :: rest := by
  cases bytes with
  | nil => simp [decode] at h
  | cons b more =>
    simp only [decode, if_true, Except.ok.injEq, Prod.mk.injEq] at h
    exact ⟨b, h.1.symm, by rw [h.2]⟩

theorem decode_lz_ok {bytes rest : List Byte} {i : Instr} (h : decode (.token true) bytes = .ok (i, rest)) :
    ∃ x y, i = .copy x y ∧ bytes = x :: y :: rest := by
  match bytes, h with
  | [], h => simp [decode] at h
  | [_], h => simp [decode] at h
  | x :: y :: more, h =>
    simp only [decode, Bool.true_eq_false, if_false, Except.ok.injEq, Prod.mk.injEq] at h
    exact ⟨x, y, h.1.symm, by rw [h.2]⟩

theorem srcByte_of_cons {s : State} {a n : Nat} {b : Byte} {more : List Byte} (h : s.srcBytes a n = b :: more) :
    b = s.srcByte a := by
  have h0 := srcBytes_getElem? s a n 0
  rw [h, List.getElem?_cons_zero] at h0
  split at h0
  · simpa using h0
  · cases h0

theorem srcByte_of_cons_cons {s : State} {a n : Nat} {x y : Byte} {more : List Byte}
    (h : s.srcBytes a n = x :: y :: more) : y = s.srcByte (a + 1) := by
  have h1 := srcBytes_getElem? s a n 1
  rw [h, List.getElem?_cons_succ, List.getElem?_cons_zero] at h1
  split at h1
  · simpa using h1
  · cases h1

/-- The step of a fetched item is the step rule of its state on the byte at `SPOS`. -/
theorem exec_fetched {s : State} {i : Instr} (h : fetchItem s = some i) : exec i s = bytewiseStep s := by
  obtain ⟨slot, a, rest, hslot, hd⟩ := fetchItem_eq_some h
  have header (hs : slot = .header) (ha : a = 0)
      (hst : s.st = .uMagic ∨ s.st = .uSize ∨ s.st = .uPad) : exec i s = bytewiseStep s := by
    subst hs ha
    obtain ⟨n, pad, rfl, -, -⟩ := decodeHeaderItem_bytes hd
    by_cases hheld : s.operandsHeld = true
    · have hk : s.spos.toNat < 128 := by
        rcases hst with hst | hst | hst <;>
          simp only [State.operandsHeld, hst, Bool.and_eq_true, decide_eq_true_eq] at hheld <;> omega
      have hb := itemByte_of_fetched_header hd hk
      rcases hst with hst | hst | hst <;> simp [exec, execHeader, bytewiseStep, hst, hb]
    · rcases hst with hst | hst | hst <;> simp [exec, execHeader, bytewiseStep, hst, State.guarded, hheld]
  unfold State.itemSlot? at hslot
  split at hslot <;> try (cases hslot; done)
  · rename_i hst
    injection hslot with hslot
    injection hslot with h1 h2
    exact header h1.symm h2.symm (.inl hst)
  · rename_i hst
    injection hslot with hslot
    injection hslot with h1 h2
    exact header h1.symm h2.symm (.inr (.inl hst))
  · rename_i hst
    injection hslot with hslot
    injection hslot with h1 h2
    exact header h1.symm h2.symm (.inr (.inr hst))
  · rename_i hst
    split at hslot
    · cases hslot
    · injection hslot with hslot
      injection hslot with h1 h2
      subst h1 h2
      obtain ⟨f, rfl, hb⟩ := decode_flag_ok hd
      simp [exec, execFlag, bytewiseStep, hst, srcByte_of_cons hb]
  · rename_i hst
    injection hslot with hslot
    injection hslot with h1 h2
    subst h1 h2
    cases hsel : s.selector with
    | false =>
      rw [hsel] at hd
      obtain ⟨b, rfl, hb⟩ := decode_raw_ok hd
      simp [exec, execLiteral, bytewiseStep, hst, hsel, srcByte_of_cons hb]
    | true =>
      rw [hsel] at hd
      obtain ⟨x, y, rfl, hb⟩ := decode_lz_ok hd
      simp [exec, execCopy, bytewiseStep, hst, hsel, srcByte_of_cons hb]
  · rename_i hst
    split at hslot
    · rename_i h1le
      injection hslot with hslot
      injection hslot with h1 h2
      subst h1 h2
      obtain ⟨x, y, rfl, hb⟩ := decode_lz_ok hd
      have hy := srcByte_of_cons_cons hb
      rw [Nat.sub_add_cancel h1le] at hy
      simp [exec, execCopy, bytewiseStep, hst, hy]
    · cases hslot
  · rename_i hst
    split at hslot
    · injection hslot with hslot
      injection hslot with h1 h2
      subst h1 h2
      obtain ⟨x, y, rfl, hb⟩ := decode_lz_ok hd
      simp [exec, execCopy, bytewiseStep, hst]
    · cases hslot

/-- A step of the block, in every state: the encoder's rule in a PACK state, else the rule on the byte at `SPOS`. -/
theorem blockStep_eq (s : State) :
    blockStep s =
      match s.st with
      | .pHdr | .pNext | .pScan | .pEmit | .pFlush => encoderStep s
      | _ => bytewiseStep s := by
  cases hst : s.st <;> simp only [blockStep, hst] <;>
    first
    | rfl
    | (simp [bytewiseStep, hst]; done)
    | (split
       · rename_i i hf
         exact exec_fetched hf
       · rfl)

end Sys2Proof.Machine
end

