-- ==== Sys2Proof/Laws/PerInstr.lean ====
section
/-! SUPPORT. The statements made for each constructor of Instr: the number of bytes of its encoding
(30_encoding.md R90). -/

namespace Sys2Proof.Laws.EncodedLength

/-- A well-formed instruction's encoding has the length of its slot: 128, 1, 1 and 2 bytes for the four items
(30_encoding.md R90), one byte for a `CMD` value. -/
def Statement (i : Instr) : Prop := i.wf = true → (encode i).length = slotLength (slotOf i)

theorem header (n : Word) (pad : List Byte) : Statement (.header n pad) := by
  intro h
  have hp : pad.length = 120 := by simpa [Instr.wf] using h
  simp [encode, leBytes, slotOf, slotLength, hp]

theorem flag (f : Byte) : Statement (.flag f) := fun _ => rfl

theorem literal (b : Byte) : Statement (.literal b) := fun _ => rfl

theorem copy (x y : Byte) : Statement (.copy x y) := fun _ => rfl

theorem unpack : Statement .unpack := fun _ => rfl

theorem pack : Statement .pack := fun _ => rfl

end Sys2Proof.Laws.EncodedLength
end

