-- ==== Sys2Proof/Laws/Runs.lean ====
section
/-! SUPPORT. Lemmas about runs of several steps and about reachability, which proofs over runs cite. -/

namespace Sys2Proof.Machine

@[simp] theorem runFor_zero (s : State) : runFor 0 s = .next s := rfl

theorem runFor_succ (k : Nat) (s : State) :
    runFor (k + 1) s =
      match step s with
      | .next t => runFor k t
      | .fault r => .fault r
      | .refused r => .refused r := by
  have h : Sys2Proof.core.step s = step s := rfl
  cases hs : step s <;> rw [hs] at h <;> simp only [runFor, Host.Core.run, h] <;> rfl

theorem runFor_succ_of_next {k : Nat} {s t : State} (h : step s = .next t) : runFor (k + 1) s = runFor k t := by
  rw [runFor_succ, h]

/-- A run of `j + k` steps is a run of `j` steps and then one of `k`. -/
theorem runFor_add {j : Nat} : ∀ {k : Nat} {s t : State}, runFor j s = .next t → runFor (j + k) s = runFor k t := by
  induction j with
  | zero =>
    intro k s t h
    rw [runFor_zero] at h
    cases h
    rw [Nat.zero_add]
  | succ j ih =>
    intro k s t h
    cases hs : step s with
    | next u =>
      rw [runFor_succ_of_next hs] at h
      rw [Nat.add_right_comm, runFor_succ_of_next hs]
      exact ih h
    | fault r => rw [runFor_succ, hs] at h; cases h
    | refused r => rw [runFor_succ, hs] at h; cases h

/-- A property that every step keeps is kept by a run. -/
theorem runFor_keeps {Q : State → Prop} (hstep : ∀ s t, Q s → step s = .next t → Q t) :
    ∀ {k : Nat} {s t : State}, Q s → runFor k s = .next t → Q t := by
  intro k
  induction k with
  | zero =>
    intro s t hs h
    rw [runFor_zero] at h
    cases h
    exact hs
  | succ k ih =>
    intro s t hs h
    cases h' : step s with
    | next u =>
      rw [runFor_succ_of_next h'] at h
      exact ih (hstep s u hs h') h
    | fault r => rw [runFor_succ, h'] at h; cases h
    | refused r => rw [runFor_succ, h'] at h; cases h

theorem reachable_runFor {k : Nat} {s t : State} (hs : Reachable s) (h : runFor k s = .next t) : Reachable t :=
  runFor_keeps (fun _ _ hs h => Reachable.step hs h) hs h

/-- What holds before anything has happened and is kept by every step holds of every reachable state. -/
theorem reachable_induction {Q : State → Prop} (hboot : ∀ c host, Q (bootState c host))
    (hstep : ∀ s t, Q s → step s = .next t → Q t) {s : State} (h : Reachable s) : Q s := by
  induction h with
  | boot c host => exact hboot c host
  | step _ h ih => exact hstep _ _ ih h

end Sys2Proof.Machine
end

