-- ==== Sys2Proof/Tests/Slice0.lean ====
section
/-! SUPPORT. Tests and witnesses. Expected results are those of spec/95_test_vectors.md (the vector is named in the
docstring) or are worked out by hand from the rule named. For each statement with hypotheses one theorem
`witness_<statement>` shows concrete states and operands that meet them. -/

set_option Elab.async false

namespace Sys2Proof.Tests

open Machine

/-! ### Helpers -/

/-- The next state of an outcome, where there is one. -/
def after (o : Host.Outcome State Fault Refusal) : Option State :=
  match o with
  | .next t => some t
  | .fault _ => none
  | .refused _ => none

/-- An outcome is a next state with a property. -/
def leads (o : Host.Outcome State Fault Refusal) (q : State → Bool) : Bool := (after o).any q

/-- The fault of an outcome, where there is one. -/
def faultOf (o : Host.Outcome State Fault Refusal) : Option Fault :=
  match o with
  | .next _ => none
  | .fault r => some r
  | .refused _ => none

/-- The refusal of an outcome, where there is one. -/
def refusalOf (o : Host.Outcome State Fault Refusal) : Option Refusal :=
  match o with
  | .next _ => none
  | .fault _ => none
  | .refused r => some r

theorem exists_of_leads {o : Host.Outcome State Fault Refusal} {q : State → Bool} (h : leads o q = true) :
    ∃ t, o = .next t ∧ q t = true := by
  cases o <;> simp_all [leads, after]

/-- The value of a result of the function level, where it is one. -/
def valueOf {α : Type} (r : Except Err α) : Option α :=
  match r with
  | .ok v => some v
  | .error _ => none

/-- The error kind of a result of the function level, where it is one. -/
def kindOf {α : Type} (r : Except Err α) : Option Err :=
  match r with
  | .ok _ => none
  | .error k => some k

theorem eq_ok {α : Type} {r : Except Err α} {v : α} (h : valueOf r = some v) : r = .ok v := by
  cases r <;> simp_all [valueOf]

theorem eq_error {α : Type} {r : Except Err α} {k : Err} (h : kindOf r = some k) : r = .error k := by
  cases r <;> simp_all [kindOf]

/-- What a decode gives, where it gives something. -/
def decoded (slot : Slot) (bytes : List Byte) : Option (Instr × List Byte) :=
  match decode slot bytes with
  | .ok r => some r
  | .error _ => none

/-- Why a decode gives nothing. -/
def rejected (slot : Slot) (bytes : List Byte) : Option Reject :=
  match decode slot bytes with
  | .ok _ => none
  | .error r => some r

def magicBytes : List Byte := [0x01, 0x00, 0x00, 0x80]

def zeros (n : Nat) : List Byte := List.replicate n 0x00

/-- An UNPACK run in a state `st` that reads the header, with these bytes of SRC from index 0. -/
def header (st : St) (bytes : List Byte) (spos : Nat) : State :=
  { State.reset with op := .unpack, st := st, src := Mem.ofBytes 0 bytes, srcLen := BitVec.ofNat 34 bytes.length,
                     spos := BitVec.ofNat 34 spos }

/-- An UNPACK run in `D_FLAG` just past a header with this size, with these body bytes. -/
def body (size : Nat) (bytes : List Byte) : State :=
  { State.reset with op := .unpack, st := .dFlag, src := Mem.ofBytes 128 bytes,
                     srcLen := BitVec.ofNat 34 (128 + bytes.length), spos := 128,
                     unpackedSize := BitVec.ofNat 32 size }

/-- The same run in `D_TOK` after the flag byte and `k` Literals have been consumed; `flags` is the queue left. -/
def token (size : Nat) (bytes : List Byte) (flags : Byte) (k : Nat) : State :=
  { body size bytes with
      st := .dTok, spos := BitVec.ofNat 34 (129 + k), outLen := BitVec.ofNat 32 k, flags := flags,
      fcnt := BitVec.ofNat 4 (8 - k), dst := Mem.ofBytes 0 ((bytes.drop 1).take k),
      hist := Mem.ofBytes 0 ((bytes.drop 1).take k) }

/-- `H(4)`, then `04 41 42 01 01`, and the like: the Copy is next (95_test_vectors.md C1, X8). -/
def copyNext (size : Nat) (x y : Byte) : State := token size [0x04, 0x41, 0x42, x, y] 0x01 2

/-- The same in `D_LEN`. -/
def lengthNext (size : Nat) (x y : Byte) : State :=
  { copyNext size x y with st := .dLen, spos := 132, flags := 0x00, fcnt := 5, distb := x }

/-- The same in `D_COPY`, distance 2 and 2 bytes to copy. -/
def copying (size : Nat) : State := { lengthNext size 0x01 0x01 with st := .dCopy, spos := 133, dist := 2, rem := 2 }

/-- A PACK run in a state `st` on these input bytes, the header written. -/
def packing (st : St) (input : List Byte) : State :=
  { State.reset with op := .pack, st := st, src := Mem.ofBytes 0 input, srcLen := BitVec.ofNat 34 input.length,
                     unpackedSize := BitVec.ofNat 32 input.length, hcnt := 128, dpos := 128,
                     dst := Mem.ofBytes 0 (List.replicate 128 0x00) }

/-- ABAB with `P = 2` and the group `LIT 41 ; LIT 42` pending (95_test_vectors.md P5). -/
def abab (st : St) : State :=
  { packing st [0x41, 0x42, 0x41, 0x42] with
      p := 2, gcnt := 2, glen := 2, gbuf := Mem.ofBytes 0 [0x41, 0x42], cd := 3, bd := 2, bl := 2 }

/-- The group `04 41 42 01 01` about to be flushed (42_encoder.md R190's example). -/
def flushing : State :=
  { packing .pFlush [0x41, 0x42, 0x41, 0x42] with
      p := 4, gcnt := 3, glen := 4, gflags := 0x04, gbuf := Mem.ofBytes 0 [0x41, 0x42, 0x01, 0x01] }

/-- With the other parameters. -/
def withCfg (s : State) (c : Params) : State := { s with cfg := c }

def msb : Params := { Params.default with flagOrder := .msbFirst }

def faulting : Params := { Params.default with overshoot := .fault }

def z256 : Params := { Params.default with distMap := .zeroIs256, lenMap := .zeroIs256 }

/-! ### Well-formedness -/

/-- 30_encoding.md R91: a header has 120 padding bytes. -/
theorem test_wf_header_pad_count :
    (Instr.header 5 (zeros 120)).wf = true ∧ (Instr.header 5 (zeros 119)).wf = false ∧
      (Instr.header 5 (zeros 121)).wf = false ∧ (Instr.header 5 []).wf = false := by decide

/-- 00_scope.md R6: distances and lengths are 1 to 256. -/
theorem test_wf_token_ranges :
    (Token.copy 1 1).wf = true ∧ (Token.copy 256 256).wf = true ∧ (Token.copy 0 2).wf = false ∧
      (Token.copy 257 2).wf = false ∧ (Token.copy 2 0).wf = false ∧ (Token.copy 2 257).wf = false := by decide

/-! ### Decoding -/

/-- 95_test_vectors.md HD3, HD6: size and padding of a header; the bytes after it are left. -/
theorem test_decode_header :
    decoded .header (magicBytes ++ [0x78, 0x56, 0x34, 0x12] ++ zeros 120 ++ [0x09]) =
        some (.header 0x12345678 (zeros 120), [0x09]) ∧
      decoded .header (magicBytes ++ [0x01, 0x00, 0x00, 0x00, 0xAA] ++ zeros 118 ++ [0x55]) =
        some (.header 1 ([0xAA] ++ zeros 118 ++ [0x55]), []) := by decide +kernel

/-- 95_test_vectors.md HD8 to HD14: what is no header, and the order of the checks. -/
theorem test_decode_header_rejects :
    rejected .header [0xFF, 0xFF] = some .truncated ∧ rejected .header magicBytes = some .truncated ∧
      rejected .header (magicBytes ++ zeros 123) = some .truncated ∧
      rejected .header [0x01, 0x00, 0x00, 0x81] = some .badMagic ∧
      rejected .header ([0x80, 0x00, 0x00, 0x01] ++ zeros 124) = some .badMagic := by decide +kernel

/-- 30_encoding.md R92 to R94: the items of `04 41 42 01 01` (95_test_vectors.md S8), and a Copy cut short. -/
theorem test_decode_items :
    decoded .flag [0x04, 0x41] = some (.flag 0x04, [0x41]) ∧
      decoded (.token false) [0x41, 0x42] = some (.literal 0x41, [0x42]) ∧
      decoded (.token true) [0x02, 0x05, 0x58] = some (.copy 0x02 0x05, [0x58]) ∧
      rejected (.token true) [0x02] = some .truncated ∧ rejected .flag [] = some .truncated ∧
      rejected (.token false) [] = some .truncated := by decide

/-- 10_state.md R46: the four values of `CMD`. -/
theorem test_decode_commands :
    decoded .command [0x01] = some (.unpack, []) ∧ decoded .command [0x02] = some (.pack, []) ∧
      rejected .command [0x00] = some .notACommand ∧ rejected .command [0x03] = some .notACommand := by decide

/-- 95_test_vectors.md HD2, S8: the encoder. -/
theorem test_encode :
    encode (.header 300 (zeros 120)) = magicBytes ++ [0x2C, 0x01, 0x00, 0x00] ++ zeros 120 ∧
      encode (.flag 0x04) = [0x04] ∧ encode (.literal 0x7E) = [0x7E] ∧ encode (.copy 0xFF 0x03) = [0xFF, 0x03] ∧
      encode .unpack = [0x01] ∧ encode .pack = [0x02] := by decide +kernel

/-- The words of spec/opcode_table.json, fields 0 where the row has fields. -/
theorem test_decodeTableWord :
    decodeTableWord 1024 0x80000001 = some (.header 0 (zeros 120)) ∧
      decodeTableWord 32 0x80000001 = some (.header 0 (zeros 120)) ∧ decodeTableWord 8 0x00 = some (.flag 0x00) ∧
      decodeTableWord 16 0x000 = some (.literal 0x00) ∧ decodeTableWord 16 0x07E = some (.literal 0x7E) ∧
      decodeTableWord 24 0x10000 = some (.copy 0x00 0x00) ∧
      decodeTableWord 24 0x1FF03 = some (.copy 0xFF 0x03) ∧ decodeTableWord 8 0x1 = some .unpack ∧
      decodeTableWord 8 0x2 = some .pack ∧ decodeTableWord 32 0x81000001 = none := by decide +kernel

/-- The step after reset runs the placed item. -/
theorem test_withFetchWord_items :
    (fetchItem (State.reset.withFetchWord 1024 0x80000001) = some (.header 0 (zeros 120))) ∧
      fetchItem (State.reset.withFetchWord 8 0xA5) = some (.flag 0xA5) ∧
      fetchItem (State.reset.withFetchWord 16 0x07E) = some (.literal 0x7E) ∧
      fetchItem (State.reset.withFetchWord 24 0x1FF03) = some (.copy 0xFF 0x03) ∧
      (State.reset.withFetchWord 8 1).host = [.writeCmd 1] ∧ (State.reset.withFetchWord 8 2).host = [.writeCmd 2] := by
  decide +kernel

/-! ### One step of each instruction -/

/-- 95_test_vectors.md HD10: the fourth magic byte is wrong. -/
theorem test_header_bad_magic :
    (after (step { header .uMagic [0x01, 0x00, 0x00, 0x81] 3 with acc := 0x00000001 })).map
        (fun t => (t.st, t.err, t.spos, t.acc)) = some (.failed, .invalidMagic, 4, 0x81000001) := by decide +kernel

/-- 40_header_codec.md R122's example: `01` at offset 5 completes 300, and the byte at offset 7 leads to `U_PAD`. -/
theorem test_header_size :
    (after (exec (.header 300 (zeros 120)) { header .uSize (zeros 128) 5 with unpackedSize := 0x2C })).map
        (fun t => (t.unpackedSize, t.spos, t.st)) = some (300, 6, .uSize) ∧
      (after (exec (.header 300 (zeros 120)) { header .uSize (zeros 128) 7 with unpackedSize := 300 })).map
        (fun t => (t.unpackedSize, t.spos, t.st)) = some (300, 8, .uPad) := by decide +kernel

/-- 95_test_vectors.md F1. -/
theorem test_flag_loads :
    (after (step (body 4 [0x04, 0x41, 0x42, 0x01, 0x01]))).map (fun t => (t.flags, t.fcnt, t.spos, t.st)) =
      some (0x04, 8, 129, .dTok) := by decide +kernel

/-- 95_test_vectors.md F7, F8, X1: the Done check stands before the truncation check. -/
theorem test_flag_done_first :
    (after (step (body 0 []))).map (fun t => (t.st, t.err, t.spos)) = some (.done, .none, 128) ∧
      (after (step (body 1 []))).map (fun t => (t.st, t.err, t.spos)) = some (.failed, .truncatedInput, 128) := by
  decide +kernel

/-- 95_test_vectors.md F2, F3: the same flag byte in both consumption orders. -/
theorem test_literal_pops :
    leads (step (token 4 [0x04, 0x41, 0x42, 0x01, 0x01] 0x04 0)) (fun t =>
        t.flags == 0x02 && t.fcnt == 7 && t.outLen == 1 && t.dst == [(0, 0x41)] && t.st == .dTok) = true ∧
      leads (step (withCfg (token 4 [0x04, 0x41, 0x42, 0x01, 0x01] 0x04 0) msb)) (fun t =>
        t.flags == 0x08 && t.dst == [(0, 0x41)]) = true := by decide +kernel

/-- 95_test_vectors.md F10: the eighth Literal completes the output, and `Done` is tested before `FCNT = 0`. -/
theorem test_literal_done_before_next_group :
    (after (step (token 8 [0x00, 1, 2, 3, 4, 5, 6, 7, 8] 0x00 7))).map (fun t => (t.st, t.fcnt, t.spos)) =
        some (.done, 0, 137) ∧
      (after (step (token 9 [0x00, 1, 2, 3, 4, 5, 6, 7, 8] 0x00 7))).map (fun t => (t.st, t.fcnt, t.spos)) =
        some (.dFlag, 0, 137) := by decide +kernel

/-- 95_test_vectors.md C1, X8, C3: the length byte, with the offset that fits and the one that does not. -/
theorem test_copy_offset_check :
    (after (step (lengthNext 4 0x01 0x01))).map (fun t => (t.st, t.dist, t.rem, t.spos)) = some (.dCopy, 2, 2, 133) ∧
      (after (step (lengthNext 4 0x02 0x01))).map (fun t => (t.st, t.err, t.dist, t.rem, t.spos)) =
        some (.failed, .invalidOffset, 3, 2, 133) ∧
      (after (step (withCfg (lengthNext 4 0x02 0x02) z256))).map (fun t => (t.st, t.dist, t.rem)) =
        some (.dCopy, 2, 2) := by decide +kernel

/-- 95_test_vectors.md P1, step 138: a Copy reads a byte it wrote itself (`HIST[3]`). 70_reset_and_hazards.md R276:
at distance 256 the read precedes the write of the same cell. -/
theorem test_copy_reads_before_it_writes :
    (after (step { copying 10 with outLen := 6, dist := 3, rem := 3, hist := Mem.ofBytes 0 [0x61, 0x62, 0x63, 0x6A, 0x62, 0x63],
                                   dst := [] })).map (fun t => (t.dst, t.rem, t.outLen, t.st)) =
        some ([(6, 0x6A)], 2, 7, .dCopy) ∧
      (after (step { copying 260 with outLen := 257, dist := 256, hist := [(1, 0x41)], dst := [] })).map
        (fun t => (t.dst, t.hist)) = some ([(257, 0x41)], [(1, 0x41)]) := by decide +kernel

/-- 95_test_vectors.md K2: START of UNPACK and `STATUS` after it; K1: `STATUS` after reset. -/
theorem test_unpack_starts :
    State.reset.status = 0x00000000 ∧
      (after (step { State.reset with srcLen := 133, host := [.writeCmd 1] })).map
        (fun t => (t.st, t.op, t.srcLen, t.status)) = some (.uMagic, .unpack, 133, 0x00000111) := by decide +kernel

/-- 95_test_vectors.md K5: START of PACK from `Failed`; `STATUS` before (K4) and after. -/
theorem test_pack_starts :
    ({ copyNext 4 2 1 with st := .failed, err := .invalidOffset } : State).status = 0x0000014F ∧
      leads (exec .pack { copyNext 4 2 1 with st := .failed, err := .invalidOffset, srcLen := 4 }) (fun t =>
        t.st == .pHdr && t.op == .pack && t.err == .none && t.unpackedSize == 4 && t.outLen == 0 && t.spos == 0 &&
          t.status == 0x00000218) = true := by decide +kernel

/-- 95_test_vectors.md K9: PACK of `2^32` bytes is refused by the block, UNPACK accepted. -/
theorem test_pack_too_long :
    after (exec .pack { State.reset with srcLen := 0x100000000 }) = some { State.reset with srcLen := 0x100000000 } ∧
      (after (exec .unpack { State.reset with srcLen := 0x100000000 })).map (·.st) = some .uMagic := by decide +kernel

/-- 42_encoder.md R189's example, and 95_test_vectors.md P5 step 142 under `MSB` (`GFLAGS = 20`) and `Z256`. -/
theorem test_emit_queues_a_copy :
    leads (step (abab .pEmit)) (fun t =>
        t.gflags == 0x04 && t.gbuf == [(0, 0x41), (1, 0x42), (2, 0x01), (3, 0x01)] && t.glen == 4 && t.gcnt == 3 &&
          t.p == 4 && t.st == .pNext) = true ∧
      leads (step (withCfg (abab .pEmit) msb)) (fun t => t.gflags == 0x20) = true ∧
      leads (step (withCfg (abab .pEmit) z256)) (fun t => t.gbuf.drop 2 == [(2, 0x02), (3, 0x02)]) = true := by
  decide +kernel

/-- 42_encoder.md R190's example: the first and the last byte of the flush. -/
theorem test_flush_writes_the_group :
    (after (step flushing)).map (fun t => (t.dst.drop 128, t.gidx, t.st)) = some ([(128, 0x04)], 1, .pFlush) ∧
      (after (step { flushing with gidx := 4 })).map (fun t => (t.dst.drop 128, t.gflags, t.gcnt, t.glen, t.gidx, t.st)) =
        some ([(128, 0x01)], 0x00, 0, 0, 0, .pNext) := by decide +kernel

/-- 43_container.md R220: during a run the host has no move that places bytes in SRC. -/
theorem test_load_during_run :
    refusalOf (step { body 4 [0x04] with host := [.load []] }) = some .srcWrittenDuringRun := by decide +kernel

/-- 95_test_vectors.md E7, E19 (tie-break), E4 under `MSB`: the function level. -/
theorem test_function_level :
    (packBytes Params.default [0x41, 0x42, 0x41, 0x42, 0x51, 0x41, 0x42]).drop 128 =
        [0x14, 0x41, 0x42, 0x01, 0x01, 0x51, 0x02, 0x01] ∧
      (packBytes Params.default [0x41, 0x42, 0x58, 0x41, 0x42, 0x59, 0x41, 0x42]).drop 128 =
        [0x28, 0x41, 0x42, 0x58, 0x02, 0x01, 0x59, 0x02, 0x01] ∧
      (packBytes msb [0x41, 0x41, 0x41]).drop 128 = [0x40, 0x41, 0x00, 0x01] := by decide +kernel

/-! ### Witnesses: encodings -/

theorem witness_DecodeOfEncodeIsTheInstruction :
    ∀ i ∈ [Instr.header 0xFFFFFFFF (zeros 120), .flag 0xFF, .literal 0x00, .copy 0x00 0xFF, .unpack, .pack],
      i.wf = true := by decide +kernel

theorem witness_EncodeOfDecodeIsTheBytes :
    decode (.token true) [0xFF, 0x03, 0x41] = .ok (.copy 0xFF 0x03, [0x41]) ∧
      decode .command [0x02, 0x00] = .ok (.pack, [0x00]) := ⟨rfl, rfl⟩

theorem witness_HeaderIsValidExactlyWithTheMagic : 124 ≤ (zeros 124).length := by decide +kernel

theorem witness_SizeFieldIsLittleEndian : (zeros 120).length = 120 ∧ 4 ≤ 4 ∧ 7 < 8 := by decide +kernel

/-- Both mappings of both fields, and the least and the greatest logical value. -/
theorem witness_FieldMapsAreBijections :
    (Params.default.distMap = .bias1 ∧ Params.default.lenMap = .bias1) ∧
      (z256.distMap = .zeroIs256 ∧ z256.lenMap = .zeroIs256) ∧ (1 ≤ 1 ∧ 1 ≤ 256) ∧ (1 ≤ 256 ∧ 256 ≤ 256) := by decide

theorem witness_PopsFollowFlagpos : 0 < 8 ∧ 7 < 8 := by decide

/-! ### Witnesses: status, reset, commands -/

theorem witness_StatusWordFields :
    ({ State.reset with host := [.writeReadOnly .status 0x3FF] } : State).host = .writeReadOnly .status 0x3FF :: [] := rfl

/-- A reset that arrives during a Copy. -/
theorem witness_ResetValues : ({ copying 4 with host := [.reset, .tick] } : State).host = .reset :: [.tick] := rfl

/-- Busy; idle with a source that PACK takes, at its bound; idle with the shortest that it does not take. -/
theorem witness_CommandsStartOrAreIgnored :
    (copying 4).busy = true ∧
      (({ State.reset with srcLen := 0xFFFFFFFF } : State).busy = false ∧
        ({ State.reset with srcLen := 0xFFFFFFFF } : State).srcLen.toNat < 2 ^ 32) ∧
      (({ State.reset with srcLen := 0x100000000 } : State).busy = false ∧
        2 ^ 32 ≤ ({ State.reset with srcLen := 0x100000000 } : State).srcLen.toNat) := by decide

/-- One state for each of the first two clauses, and one for each way a write has no effect. -/
theorem witness_CommandRegisterWrites :
    (({ State.reset with host := [.writeCmd 1] } : State).host = [.writeCmd 1] ∧ State.reset.busy = false) ∧
      (({ State.reset with srcLen := 0xFFFFFFFF, host := [.writeCmd 2] } : State).host = [.writeCmd 2] ∧
        ({ State.reset with srcLen := 0xFFFFFFFF, host := [.writeCmd 2] } : State).srcLen.toNat < 2 ^ 32) ∧
      (({ State.reset with host := [.writeCmd 0] } : State).host = [.writeCmd 0]) ∧
      (({ copying 4 with host := [.writeCmd 1] } : State).host = [.writeCmd 1] ∧ (copying 4).busy = true) ∧
      (2 ^ 32 ≤ ({ State.reset with srcLen := 0x100000000, host := [.writeCmd 2] } : State).srcLen.toNat) := by decide

theorem witness_IgnoredHostWrites :
    (({ copying 4 with host := [.writeCmd 2] } : State).host = [.writeCmd 2] ∧ (copying 4).busy = true) ∧
      ({ State.reset with host := [.writeCmd 3] } : State).host = [.writeCmd 3] ∧
      ({ State.reset with host := [.writeReadOnly .dpos 1] } : State).host = [.writeReadOnly .dpos 1] ∧
      (({ copying 4 with host := [.writeSrcLen 1] } : State).host = [.writeSrcLen 1] ∧ (copying 4).busy = true) ∧
      (({ State.reset with host := [.writeSrcLen 0x3FFFFFFFF] } : State).host = [.writeSrcLen 0x3FFFFFFFF] ∧
        ({ State.reset with host := [.writeSrcLen 0x3FFFFFFFF] } : State).busy = false) ∧
      (({ State.reset with host := [.load [0x41, 0x42]] } : State).host = [.load [0x41, 0x42]] ∧
        ({ State.reset with host := [.load [0x41, 0x42]] } : State).busy = false ∧
        [0x41, (0x42 : Byte)][1]? = some 0x42) := by
  decide

/-! ### Witnesses: the items -/

/-- The first and the last byte of each of the three fields. -/
theorem witness_HeaderItemCompletes :
    (Instr.header 300 (zeros 120)).wf = true ∧
      (∀ x ∈ [(St.uMagic, 0), (St.uMagic, 3), (St.uSize, 4), (St.uSize, 7), (St.uPad, 8), (St.uPad, 127)],
        (header x.1 (zeros 128) x.2).st = x.1 ∧ (header x.1 (zeros 128) x.2).spos.toNat = x.2 ∧
          (header x.1 (zeros 128) x.2).spos.toNat < (header x.1 (zeros 128) x.2).srcLen.toNat) := by decide +kernel

theorem witness_FlagItemCompletes :
    ((body 0 []).st = .dFlag ∧ (body 0 []).spos.toNat ≤ (body 0 []).srcLen.toNat ∧
        (body 0 []).outLen = (body 0 []).unpackedSize) ∧
      ((body 4 [0x04]).st = .dFlag ∧ (body 4 [0x04]).outLen ≠ (body 4 [0x04]).unpackedSize ∧
        (body 4 [0x04]).spos.toNat < (body 4 [0x04]).srcLen.toNat) := by decide

/-- The first and the last token of a group. -/
theorem witness_LiteralItemCompletes :
    ∀ k ∈ [0, 7],
      (token 9 (zeros 9) 0x00 k).st = .dTok ∧ (token 9 (zeros 9) 0x00 k).selector = false ∧
        (token 9 (zeros 9) 0x00 k).fcnt.toNat = 8 - k ∧
        (token 9 (zeros 9) 0x00 k).outLen.toNat < (token 9 (zeros 9) 0x00 k).unpackedSize.toNat ∧
        (token 9 (zeros 9) 0x00 k).spos.toNat < (token 9 (zeros 9) 0x00 k).srcLen.toNat := by decide +kernel

/-- The three steps, the offset at its limit and the length exactly the room left, under `FAULT`. -/
theorem witness_CopyItemCompletes :
    ((copyNext 4 1 1).st = .dTok ∧ (copyNext 4 1 1).selector = true ∧ 1 ≤ (copyNext 4 1 1).fcnt.toNat ∧
        (copyNext 4 1 1).fcnt.toNat ≤ 8 ∧ (copyNext 4 1 1).outLen.toNat < (copyNext 4 1 1).unpackedSize.toNat ∧
        (copyNext 4 1 1).spos.toNat < (copyNext 4 1 1).srcLen.toNat) ∧
      ((withCfg (lengthNext 4 1 1) faulting).st = .dLen ∧
        (withCfg (lengthNext 4 1 1) faulting).spos.toNat < (withCfg (lengthNext 4 1 1) faulting).srcLen.toNat ∧
        mapD faulting (withCfg (lengthNext 4 1 1) faulting).distb ≤ (withCfg (lengthNext 4 1 1) faulting).outLen.toNat ∧
        (withCfg (lengthNext 4 1 1) faulting).outLen.toNat + mapL faulting 1 ≤
          (withCfg (lengthNext 4 1 1) faulting).unpackedSize.toNat) ∧
      ((copying 4).st = .dCopy ∧ 1 ≤ (copying 4).dist.toNat ∧ (copying 4).dist.toNat ≤ (copying 4).outLen.toNat ∧
        1 ≤ (copying 4).rem.toNat ∧ (copying 4).rem.toNat ≤ 256 ∧
        (copying 4).outLen.toNat < (copying 4).unpackedSize.toNat) := by decide +kernel

theorem witness_HeaderAndFlagFrame :
    (∃ t, exec (.header 300 (zeros 120)) (header .uSize (zeros 128) 4) = .next t ∧ (t.st == .uSize) = true) ∧
      (∃ t, exec (.flag 0x04) (body 4 [0x04]) = .next t ∧ (t.st == .dTok) = true) :=
  ⟨exists_of_leads (by decide +kernel), exists_of_leads (by decide +kernel)⟩

/-- A Literal, the three steps of a Copy, and a step of each that fails. -/
theorem witness_LiteralAndCopyFrame :
    (∃ t, exec (.literal 0x41) (token 4 [0x04, 0x41] 0x04 0) = .next t ∧ (t.st == .dTok) = true) ∧
      (∃ t, exec (.literal 0x41) (token 4 [0x04] 0x04 0) = .next t ∧ (t.st == .failed) = true) ∧
      (∃ t, exec (.copy 1 1) (copyNext 4 1 1) = .next t ∧ (t.st == .dLen) = true) ∧
      (∃ t, exec (.copy 1 1) (lengthNext 4 1 1) = .next t ∧ (t.st == .dCopy) = true) ∧
      (∃ t, exec (.copy 2 1) (lengthNext 4 2 1) = .next t ∧ (t.st == .failed) = true) ∧
      (∃ t, exec (.copy 1 1) (copying 4) = .next t ∧ (t.st == .dCopy) = true) :=
  ⟨exists_of_leads (by decide +kernel), exists_of_leads (by decide +kernel), exists_of_leads (by decide +kernel),
    exists_of_leads (by decide +kernel), exists_of_leads (by decide +kernel), exists_of_leads (by decide +kernel)⟩

theorem witness_ItemsNeedTheirState :
    State.reset.st ≠ .uMagic ∧ State.reset.st ≠ .uSize ∧ State.reset.st ≠ .uPad ∧ State.reset.st ≠ .dFlag ∧
      State.reset.st ≠ .dTok ∧ State.reset.st ≠ .dLen ∧ State.reset.st ≠ .dCopy := by decide

/-- Each slot, with nothing from the host; a tick in a state whose item decodes; a command; and a tick in a PACK state, in
a state whose header has a wrong magic, and in a state from which the block's step is a fault. -/
theorem witness_StepRunsTheDecodedItem :
    ((header .uMagic (encode (.header 4 (zeros 120))) 3).itemSlot? = some (.header, 0) ∧
        (header .uMagic (encode (.header 4 (zeros 120))) 3).host = [] ∧
        decoded .header ((header .uMagic (encode (.header 4 (zeros 120))) 3).srcBytes 0 128) =
          some (.header 4 (zeros 120), [])) ∧
      ((body 4 [0x04]).itemSlot? = some (.flag, 128) ∧
        decoded .flag ((body 4 [0x04]).srcBytes 128 1) = some (.flag 0x04, [])) ∧
      ((token 4 [0x04, 0x41] 0x04 0).itemSlot? = some (.token false, 129) ∧
        decoded (.token false) ((token 4 [0x04, 0x41] 0x04 0).srcBytes 129 1) = some (.literal 0x41, [])) ∧
      ((copyNext 4 1 1).itemSlot? = some (.token true, 131) ∧ (lengthNext 4 1 1).itemSlot? = some (.token true, 131) ∧
        ({ copying 4 with host := [.tick] } : State).itemSlot? = some (.token true, 131) ∧
        decoded (.token true) ((copying 4).srcBytes 131 2) = some (.copy 1 1, [])) ∧
      decoded .command [BitVec.ofNat 8 (2 : BitVec 2).toNat] = some (.pack, []) ∧
      (({ flushing with host := [.tick] } : State).host = [.tick] ∧
        leads (step { flushing with host := [] }) (fun t => t.st == .pFlush) = true) ∧
      leads (step { header .uMagic [0x01, 0x00, 0x00, 0x81] 3 with host := [] }) (fun t => t.st == .failed) = true ∧
      faultOf (step { State.reset with st := .dCopy, host := [] }) = some .valueNeverHeld := by decide +kernel

theorem witness_NoStepOutsideARun : State.reset.busy = false ∧ State.reset.host = [] := by decide

/-! ### Witnesses: the steps of UNPACK -/

/-- Exhausted at `SPOS = 0`; a byte that is not the fourth; the fourth, with the magic and without it. -/
theorem witness_MagicStepReadsAndValidates :
    ((header .uMagic [] 0).st = .uMagic ∧ (header .uMagic [] 0).spos = (header .uMagic [] 0).srcLen) ∧
      ((header .uMagic magicBytes 2).spos.toNat ≠ 3 ∧ (header .uMagic magicBytes 2).spos ≠ 4) ∧
      (({ header .uMagic magicBytes 3 with acc := 0x000001 } : State).spos.toNat = 3 ∧
        (0x000001 : Word) ||| (BitVec.setWidth 32 ((header .uMagic magicBytes 3).srcByte 3) <<< (8 * 3)) =
          Config.doc.magic) ∧
      ((header .uMagic magicBytes 3).acc |||
          (BitVec.setWidth 32 ((header .uMagic magicBytes 3).srcByte 3) <<< (8 * 3)) ≠ Config.doc.magic) := by
  decide +kernel

/-- Both fields at both ends, with a byte there; and both with none. -/
theorem witness_SizeAndPaddingSteps :
    (∀ x ∈ [(St.uSize, 4), (St.uSize, 7), (St.uPad, 8), (St.uPad, 127)],
        (header x.1 (zeros 128) x.2).st = x.1 ∧ (header x.1 (zeros 128) x.2).spos.toNat = x.2 ∧
          (header x.1 (zeros 128) x.2).spos ≠ (header x.1 (zeros 128) x.2).srcLen) ∧
      (∀ x ∈ [(St.uSize, 4), (St.uSize, 7), (St.uPad, 8), (St.uPad, 127)],
        (header x.1 (zeros x.2) x.2).spos = (header x.1 (zeros x.2) x.2).srcLen) := by decide +kernel

theorem witness_FlagStepChecksDoneFirst :
    ((body 0 []).st = .dFlag ∧ (body 0 []).outLen = (body 0 []).unpackedSize) ∧
      ((body 1 []).outLen ≠ (body 1 []).unpackedSize ∧ (body 1 []).spos = (body 1 []).srcLen) ∧
      ((body 1 [0x00]).outLen ≠ (body 1 [0x00]).unpackedSize ∧ (body 1 [0x00]).spos ≠ (body 1 [0x00]).srcLen) := by
  decide

theorem witness_TokenStepFollowsTheSelector :
    ((token 4 [0x04] 0x04 0).st = .dTok ∧ (token 4 [0x04] 0x04 0).fcnt.toNat = 8 ∧
        (token 4 [0x04] 0x04 0).outLen.toNat < (token 4 [0x04] 0x04 0).unpackedSize.toNat ∧
        (token 4 [0x04] 0x04 0).spos = (token 4 [0x04] 0x04 0).srcLen) ∧
      ((token 9 (zeros 9) 0x00 7).fcnt.toNat = 1 ∧ (token 9 (zeros 9) 0x00 7).spos ≠ (token 9 (zeros 9) 0x00 7).srcLen ∧
        (token 9 (zeros 9) 0x00 7).selector = false) ∧
      ((copyNext 4 1 1).spos ≠ (copyNext 4 1 1).srcLen ∧ (copyNext 4 1 1).selector = true) := by decide +kernel

/-- Exhausted; the offset one too far; the length one too long under `FAULT`; both at their limits. -/
theorem witness_LengthStepChecksInOrder :
    ((header .dLen [] 0).st = .dLen ∧ (header .dLen [] 0).spos = (header .dLen [] 0).srcLen) ∧
      ((lengthNext 4 2 1).spos ≠ (lengthNext 4 2 1).srcLen ∧
        (lengthNext 4 2 1).outLen.toNat + 1 = mapD Params.default (lengthNext 4 2 1).distb) ∧
      ((withCfg (lengthNext 4 1 2) faulting).cfg.overshoot = .fault ∧
        (lengthNext 4 1 2).unpackedSize.toNat + 1 = (lengthNext 4 1 2).outLen.toNat + mapL faulting 2) ∧
      (mapD faulting (lengthNext 4 1 1).distb = (lengthNext 4 1 1).outLen.toNat ∧
        (lengthNext 4 1 1).outLen.toNat + mapL faulting 1 = (lengthNext 4 1 1).unpackedSize.toNat) := by decide +kernel

theorem witness_CopyStepAppendsTheLookbackByte :
    (copying 4).host = [] ∧ (copying 4).st = .dCopy ∧ 1 ≤ (copying 4).dist.toNat ∧
      (copying 4).dist.toNat ≤ (copying 4).outLen.toNat ∧ 1 ≤ (copying 4).rem.toNat ∧
      (copying 4).rem.toNat ≤ 256 ∧ (copying 4).outLen.toNat < (copying 4).unpackedSize.toNat := by decide

/-! ### Witnesses: the steps of PACK -/

/-- The first and the last header byte. -/
theorem witness_HeaderEmitterStep :
    ∀ k ∈ [0, 127],
      ({ packing .pHdr [0x41] with hcnt := BitVec.ofNat 8 k, dpos := BitVec.ofNat 34 k } : State).hcnt.toNat = k ∧
        k < 128 ∧ ({ packing .pHdr [0x41] with dpos := BitVec.ofNat 34 k } : State).dpos.toNat < 2 ^ 33 := by
  decide +kernel

theorem witness_TokenBoundaryStep :
    (({ packing .pNext [0x41] with p := 1, gcnt := 1 } : State).p.toNat =
          ({ packing .pNext [0x41] with p := 1, gcnt := 1 } : State).srcLen.toNat ∧
        ({ packing .pNext [0x41] with p := 1, gcnt := 1 } : State).gcnt ≠ 0) ∧
      ((packing .pNext []).p.toNat = (packing .pNext []).srcLen.toNat ∧ (packing .pNext []).gcnt = 0) ∧
      ((packing .pNext [0x41]).p.toNat ≠ (packing .pNext [0x41]).srcLen.toNat ∧
        (packing .pNext [0x41]).p.toNat ≤ (packing .pNext [0x41]).srcLen.toNat) := by decide

/-- The scan of ABAB at `P = 2` (95_test_vectors.md P5): its end, an extension, a close that keeps, one that does not. -/
theorem witness_ScanStepKeepsTheStrictlyLonger :
    ((abab .pScan).p.toNat < (abab .pScan).srcLen.toNat ∧ min 256 (abab .pScan).p.toNat < (abab .pScan).cd.toNat) ∧
      ((2 : Nat) ≤ min 256 (abab .pScan).p.toNat ∧ (abab .pScan).srcByte (2 + 1) = (abab .pScan).srcByte (2 + 1 - 2)) ∧
      ((1 : Nat) ≤ min 256 (abab .pScan).p.toNat ∧ (abab .pScan).srcByte (2 + 0) ≠ (abab .pScan).srcByte (2 + 0 - 1) ∧
        (0 : Nat) ≤ ({ abab .pScan with cd := 1, cl := 0, bl := 0 } : State).bl.toNat) ∧
      (min 256 ((abab .pScan).srcLen.toNat - (abab .pScan).p.toNat) ≤ 2 ∧
        ({ abab .pScan with cd := 2, cl := 2, bl := 0 } : State).bl.toNat <
          ({ abab .pScan with cd := 2, cl := 2, bl := 0 } : State).cl.toNat) := by decide +kernel

/-- A Copy, and a Literal where the best match has one byte. -/
theorem witness_EmissionStepQueuesOneToken :
    ∀ bl ∈ [(2 : BitVec 9), 1],
      ({ abab .pEmit with bl := bl } : State).st = .pEmit ∧
        (abab .pEmit).p.toNat < (abab .pEmit).srcLen.toNat ∧ (abab .pEmit).gcnt.toNat ≤ 7 ∧
        (abab .pEmit).glen.toNat ≤ 14 ∧ (abab .pEmit).p.toNat + bl.toNat ≤ (abab .pEmit).srcLen.toNat ∧
        (abab .pEmit).srcLen.toNat < 2 ^ 32 ∧ bl.toNat ≤ 256 ∧
        (2 ≤ bl.toNat → 1 ≤ (abab .pEmit).bd.toNat ∧ (abab .pEmit).bd.toNat ≤ 256) := by decide +kernel

theorem witness_FlushStepWritesTheGroup :
    (flushing.st = .pFlush ∧ 1 ≤ flushing.gcnt.toNat ∧ 1 ≤ flushing.glen.toNat ∧ flushing.glen.toNat ≤ 16 ∧
        flushing.gidx.toNat ≤ flushing.glen.toNat ∧ flushing.dpos.toNat < 2 ^ 33 ∧ flushing.gidx ≠ flushing.glen) ∧
      ({ flushing with gidx := 4 } : State).gidx = ({ flushing with gidx := 4 } : State).glen := by decide

/-! ### States that meet the invariant -/

/-- The invariant of a given state can be computed. -/
def decInv (s : State) : Decidable s.Inv := by
  unfold State.Inv State.storesWf
  have h1 : Decidable s.lookback := by unfold State.lookback Mem.listsBelow; infer_instance
  have h2 : Decidable s.decoding := by unfold State.decoding; infer_instance
  have h3 : Decidable s.readingHeader := by unfold State.readingHeader; infer_instance
  have h4 : Decidable s.packing := by unfold State.packing Mem.listsBelow; infer_instance
  have h5 : Decidable s.groupHeld := by unfold State.groupHeld; infer_instance
  have h6 : ∀ a b, Decidable (s.withinBudget a b) := by intro a b; unfold State.withinBudget; infer_instance
  have h7 : Decidable s.scanHeld := by unfold State.scanHeld; infer_instance
  have h8 : Decidable (Mem.listsBelow s.dst s.dpos.toNat) := by unfold Mem.listsBelow; infer_instance
  have h9 : Decidable s.phaseHeld := by unfold State.phaseHeld; split <;> infer_instance
  infer_instance

theorem inv_of (s : State) (h : @decide s.Inv (decInv s) = true) : s.Inv := @of_decide_eq_true _ (decInv s) h

/-- What a statement about a step from an invariant state assumes. -/
theorem inv_step {s : State} {q : State → Bool} (hi : @decide s.Inv (decInv s) = true) (h : leads (step s) q = true) :
    s.Inv ∧ ∃ t, step s = .next t ∧ q t = true := ⟨inv_of s hi, exists_of_leads h⟩

/-! ### Witnesses: failures -/

/-- The length byte of a Copy is missing (95_test_vectors.md X4). -/
def lengthMissing : State := { lengthNext 4 0x01 0x01 with srcLen := 132 }

/-- Each of the six states in which a byte can be missing. -/
theorem witness_TruncationChangesOnlyStAndErr :
    ∀ s ∈ [header .uMagic [0x01] 1, header .uSize magicBytes 4, header .uPad (zeros 127) 127, body 1 [],
        token 4 [0x04] 0x04 0, lengthMissing],
      @decide s.Inv (decInv s) = true ∧ s.host = [] ∧ s.spos = s.srcLen := by decide +kernel

/-- One state for each kind (95_test_vectors.md HD10, X2, X8, C12). -/
theorem witness_EachFailureHasItsCause :
    (∃ s t, s.Inv ∧ s.st ≠ .failed ∧ step s = .next t ∧ t.st = .failed ∧ t.err = .invalidMagic) ∧
      (∃ s t, s.Inv ∧ s.st ≠ .failed ∧ step s = .next t ∧ t.st = .failed ∧ t.err = .truncatedInput) ∧
      (∃ s t, s.Inv ∧ s.st ≠ .failed ∧ step s = .next t ∧ t.st = .failed ∧ t.err = .invalidOffset) ∧
      (∃ s t, s.Inv ∧ s.st ≠ .failed ∧ step s = .next t ∧ t.st = .failed ∧ t.err = .sizeMismatch) := by
  have fails : ∀ (s : State) (e : Err), @decide s.Inv (decInv s) = true → (s.st != .failed) = true →
      leads (step s) (fun t => t.st == .failed && t.err == e) = true →
      ∃ s t, s.Inv ∧ s.st ≠ .failed ∧ step s = .next t ∧ t.st = .failed ∧ t.err = e := by
    intro s e hi hf h
    obtain ⟨t, ht, hq⟩ := exists_of_leads h
    simp only [Bool.and_eq_true, beq_iff_eq] at hq
    exact ⟨s, t, inv_of s hi, by simpa using hf, ht, hq.1, hq.2⟩
  exact ⟨fails (header .uMagic [0x01, 0x00, 0x00, 0x81] 3) _ (by decide +kernel) (by decide) (by decide +kernel),
    fails (token 4 [0x04] 0x04 0) _ (by decide +kernel) (by decide) (by decide +kernel),
    fails (lengthNext 4 0x02 0x01) _ (by decide +kernel) (by decide) (by decide +kernel),
    fails (withCfg (lengthNext 4 0x01 0x02) faulting) _ (by decide +kernel) (by decide) (by decide +kernel)⟩

theorem witness_FailuresArePrecise :
    ((lengthNext 4 0x02 0x01).Inv ∧
        ∃ t, step (lengthNext 4 0x02 0x01) = .next t ∧ (t.st == .failed && t.err == .invalidOffset) = true) ∧
      (lengthMissing.Inv ∧ ∃ t, step lengthMissing = .next t ∧ (t.st == .failed && t.err == .truncatedInput) = true) :=
  ⟨inv_step (by decide +kernel) (by decide +kernel), inv_step (by decide +kernel) (by decide +kernel)⟩

/-- A failed run, left alone, given a command, and reset. -/
theorem witness_FailedIsLeftByTheHostOnly :
    ∀ x ∈ [([], St.failed), ([HostEvent.writeCmd 1], St.uMagic), ([HostEvent.writeCmd 2], St.pHdr),
        ([HostEvent.reset], St.idle)],
      leads (step { lengthNext 4 2 1 with st := .failed, err := .invalidOffset, host := x.1 }) (fun t => t.st == x.2) =
        true := by decide +kernel

theorem witness_PackRaisesNothing :
    (flushing.Inv ∧ ∃ t, step flushing = .next t ∧ (t.st == .pFlush) = true) ∧ flushing.st.ofPack = true :=
  ⟨inv_step (by decide +kernel) (by decide +kernel), rfl⟩

/-! ### Witnesses: invariants and rules about every step -/

/-- One state of each phase meets the invariant and steps. -/
theorem witness_StepKeepsTheInvariant :
    ∀ s ∈ [State.reset, header .uMagic magicBytes 3, header .uSize (zeros 128) 7, header .uPad (zeros 128) 127,
        body 4 [0x04], copyNext 4 1 1, lengthNext 4 1 1, copying 4, packing .pNext [0x41], abab .pScan, abab .pEmit,
        flushing],
      @decide s.Inv (decInv s) = true ∧ leads (step s) (fun t => @decide t.Inv (decInv t)) = true := by decide +kernel

theorem witness_InvariantMeansNoStop :
    (copying 4).Inv ∧ ({ copying 4 with host := [.load []] } : State).Inv :=
  ⟨inv_of _ (by decide +kernel), inv_of _ (by decide +kernel)⟩

/-- `H(4)` and `04 41 42 01 01` (95_test_vectors.md C1). -/
def containerC1 : List Byte := magicBytes ++ [0x04, 0x00, 0x00, 0x00] ++ zeros 120 ++ [0x04, 0x41, 0x42, 0x01, 0x01]

/-- What the host does to run a command on bytes. -/
def commandOn (bytes : List Byte) (v : BitVec 2) : List HostEvent :=
  [.load bytes, .writeSrcLen (BitVec.ofNat 34 bytes.length), .writeCmd v]

/-- The second `D_COPY` step of C1 is reached from reset; it reads `HIST[1] = 42`. -/
theorem witness_LookbackMirrorsTheOutput :
    ∃ s, Reachable s ∧ (s.st == .dCopy && s.outLen == 3 && s.histByte (lookbackIndex s) == 0x42) = true := by
  obtain ⟨t, ht, hq⟩ := exists_of_leads (o := runFor 137 (bootState Params.default (commandOn containerC1 1)))
    (q := fun t => t.st == .dCopy && t.outLen == 3 && t.histByte (lookbackIndex t) == 0x42) (by decide +kernel)
  exact ⟨t, reachable_runFor (Reachable.boot _ _) ht, hq⟩

/-- The second `P_FLUSH` step of PACK on `41` (95_test_vectors.md E2) is reached from reset. -/
theorem witness_FlushReadsWrittenCellsOnly :
    ∃ s, Reachable s ∧ (s.st == .pFlush && s.gidx == 1 && s.gbufByte 0 == 0x41) = true := by
  obtain ⟨t, ht, hq⟩ := exists_of_leads (o := runFor 136 (bootState Params.default (commandOn [0x41] 2)))
    (q := fun t => t.st == .pFlush && t.gidx == 1 && t.gbufByte 0 == 0x41) (by decide +kernel)
  exact ⟨t, reachable_runFor (Reachable.boot _ _) ht, hq⟩

theorem witness_SizeIsImmutableOnceParsed :
    ∀ s ∈ [header .uPad (zeros 128) 127, body 4 [0x04], copyNext 4 1 1, lengthNext 4 1 1, copying 4],
      leads (step s) (fun _ => true) = true ∧ s.host = [] := by decide +kernel

theorem witness_SourcePositionAdvancesByOne :
    ((copyNext 4 1 1).Inv ∧ ∃ t, step (copyNext 4 1 1) = .next t ∧ (t.spos == 132) = true) ∧
      ((abab .pEmit).Inv ∧ ∃ t, step (abab .pEmit) = .next t ∧ (t.spos == 0) = true) :=
  ⟨inv_step (by decide +kernel) (by decide +kernel), inv_step (by decide +kernel) (by decide +kernel)⟩

theorem witness_SourceIsWrittenByTheHostOnly :
    (∃ t, step (copyNext 4 1 1) = .next t ∧ (t.st == .dLen) = true) ∧
      (∃ t, step { State.reset with host := [.load [0x41]] } = .next t ∧ (t.src == [(0, 0x41)]) = true) :=
  ⟨exists_of_leads (by decide +kernel), exists_of_leads (by decide +kernel)⟩

theorem witness_OutputOnlyGrowsByOneByte :
    ((copyNext 4 1 1).Inv ∧ ∃ t, step (copyNext 4 1 1) = .next t ∧ (t.dst == (copyNext 4 1 1).dst) = true) ∧
      ((copying 4).Inv ∧ ∃ t, step (copying 4) = .next t ∧ (t.dst == (copying 4).dst ++ [(2, 0x41)]) = true) ∧
      (flushing.Inv ∧ ∃ t, step flushing = .next t ∧ (t.dst == flushing.dst ++ [(128, 0x04)]) = true) :=
  ⟨inv_step (by decide +kernel) (by decide +kernel), inv_step (by decide +kernel) (by decide +kernel),
    inv_step (by decide +kernel) (by decide +kernel)⟩

theorem witness_FieldsAreWrittenByTheirUnit :
    (∀ s ∈ [header .uMagic magicBytes 3, header .uSize (zeros 128) 7, header .uPad (zeros 128) 127, body 4 [0x04],
        copyNext 4 1 1, lengthNext 4 1 1, copying 4,
        { packing .pHdr [0x41] with hcnt := 0, dpos := 0, dst := [] }, packing .pNext [0x41], abab .pScan, abab .pEmit,
        flushing],
      s.host = [] ∧ leads (step s) (fun _ => true) = true) ∧
      leads (step { State.reset with host := [.writeSrcLen 7] }) (fun t => t.srcLen == 7) = true ∧
      leads (step { State.reset with host := [.writeCmd 1] }) (fun t => t.op != State.reset.op) = true := by
  decide +kernel

/-- A header with other padding, C1 with bytes after it, and a SRC that differs at `SRC_LEN`. -/
theorem witness_IgnoredInputChangesNothing :
    (magicBytes ++ [0x01, 0x00, 0x00, 0x00]).length = 8 ∧ (zeros 120).length = 120 ∧
      (List.replicate 120 (0xAA : Byte)).length = 120 ∧
      unpackBytes Params.default containerC1 = .ok [0x41, 0x42, 0x41, 0x42] ∧
      (∀ a ∈ List.range (copyNext 4 1 1).srcLen.toNat,
        Mem.cell? ((copyNext 4 1 1).src ++ [(133, 0xDE)]) a = Mem.cell? (copyNext 4 1 1).src a) ∧
      ∃ t, step (copyNext 4 1 1) = .next t ∧ (t.st == .dLen) = true :=
  ⟨rfl, by decide +kernel, List.length_replicate, eq_ok (by decide +kernel), by decide +kernel,
    exists_of_leads (by decide +kernel)⟩

/-- A block fresh from reset and one whose last run failed, given the same source. -/
theorem witness_OperationsAreIndependent :
    let s₁ : State := { State.reset with src := (lengthNext 4 2 1).src, srcLen := 133 }
    let s₂ : State := { lengthNext 4 2 1 with st := .failed, err := .invalidOffset }
    s₁.Inv ∧ s₂.Inv ∧ s₁.busy = false ∧ s₂.busy = false ∧ s₁.host = [] ∧ s₂.host = [] ∧ s₁.cfg = s₂.cfg ∧
      s₁.src = s₂.src ∧ s₁.srcLen = s₂.srcLen ∧ (∃ t, exec .unpack s₁ = .next t) ∧ ∃ t, exec .unpack s₂ = .next t :=
  ⟨inv_of _ (by decide +kernel), inv_of _ (by decide +kernel), rfl, rfl, rfl, rfl, rfl, rfl, by decide +kernel,
    ⟨_, rfl⟩, ⟨_, rfl⟩⟩

/-! ### Witnesses: function level and whole runs -/

/-- Candidates at their limits: `d = 1`, and `d = p`. -/
theorem witness_MatchLengthIsTheLongestAgreement :
    (2 < [0x41, 0x42, 0x41, (0x42 : Byte)].length ∧ 1 ≤ 1 ∧ 1 ≤ min 256 2) ∧ (1 ≤ 2 ∧ 2 ≤ min 256 2) := by decide

theorem witness_BestMatchIsLongestThenNearest :
    (2 < [0x41, 0x42, 0x41, (0x42 : Byte)].length ∧ best [0x41, 0x42, 0x41, 0x42] 2 = (2, 2)) ∧
      best [0x41, 0x42, 0x41, 0x42] 0 = (0, 0) := by decide +kernel

theorem witness_ScanFindsTheBestMatch :
    ({ abab .pNext with p := 2 } : State).Inv ∧ (abab .pNext).host = [] ∧ (abab .pNext).st = .pNext ∧
      (abab .pNext).src = Mem.ofBytes 0 [0x41, 0x42, 0x41, 0x42] ∧ (abab .pNext).srcLen.toNat = 4 ∧
      (abab .pNext).p.toNat < 4 :=
  ⟨inv_of _ (by decide +kernel), rfl, rfl, rfl, by decide +kernel, by decide +kernel⟩

/-- A good header, one cut short, and one with a bad magic. -/
theorem witness_HeaderStepsAgreeWithDecodeHeader :
    containerC1.length < 2 ^ 34 ∧ decodeHeader containerC1 = .ok 4 ∧ decodeHeader magicBytes = .error .truncatedInput ∧
      decodeHeader [0x01, 0x00, 0x00, 0x81] = .error .invalidMagic := by
  exact ⟨by decide +kernel, eq_ok (by decide +kernel), eq_error (by decide +kernel), eq_error (by decide +kernel)⟩

/-- The Copy of C1, its distance all of the output and its length all of the room. -/
theorem witness_CopyTokenRepeatsTheBlock :
    (copyNext 4 1 1).Inv ∧ (copyNext 4 1 1).host = [] ∧ (copyNext 4 1 1).st = .dTok ∧
      (copyNext 4 1 1).selector = true ∧ (copyNext 4 1 1).spos.toNat + 2 ≤ (copyNext 4 1 1).srcLen.toNat ∧
      2 = mapD (copyNext 4 1 1).cfg ((copyNext 4 1 1).srcByte (copyNext 4 1 1).spos.toNat) ∧
      2 = mapL (copyNext 4 1 1).cfg ((copyNext 4 1 1).srcByte ((copyNext 4 1 1).spos.toNat + 1)) ∧
      2 = min 2 ((copyNext 4 1 1).unpackedSize.toNat - (copyNext 4 1 1).outLen.toNat) ∧
      2 ≤ (copyNext 4 1 1).outLen.toNat :=
  ⟨inv_of _ (by decide +kernel), rfl, rfl, rfl, by decide +kernel, by decide +kernel, by decide +kernel,
    by decide +kernel, by decide +kernel⟩

/-- A source that unpacks and one that fails. -/
theorem witness_UnpackRunAgreesWithTheFunction :
    containerC1.length < 2 ^ 34 ∧ unpackBytes Params.default containerC1 = .ok [0x41, 0x42, 0x41, 0x42] ∧
      unpackBytes Params.default magicBytes = .error .truncatedInput := by
  exact ⟨by decide +kernel, eq_ok (by decide +kernel), eq_error (by decide +kernel)⟩

theorem witness_PackRunAgreesWithTheFunction : [0x41, 0x42, 0x41, (0x42 : Byte)].length < 2 ^ 32 := by decide

theorem witness_RoundTrip : ([] : List Byte).length < 2 ^ 32 ∧ (zeros 300).length < 2 ^ 32 := by decide +kernel

theorem witness_EveryRunEnds :
    ((abab .pScan).Inv ∧ (abab .pScan).host = []) ∧ containerC1.length < 2 ^ 34 :=
  ⟨⟨inv_of _ (by decide +kernel), rfl⟩, by decide +kernel⟩

end Sys2Proof.Tests
end

/-! ## Progress: in an invariant state the machine answers a next state

The invariant of a phase implies the Operands clause of its step rule, so no step of the block faults; of the host's
events only a load of SRC can be refused. -/

namespace Sys2Proof.Machine

/-! ### The invariant implies the Operands clause -/

theorem State.groupHeld.glen_le {s : State} (h : s.groupHeld) : s.glen.toNat ≤ 2 * s.gcnt.toNat := h.2.1

theorem State.groupHeld.gcnt_le {s : State} (h : s.groupHeld) : s.gcnt.toNat ≤ s.glen.toNat := h.1

/-- The best match of a scan ends within the source and is at most `MAX_LEN` long (42_encoder.md R181). -/
theorem State.scanHeld.match_fits {s : State} (h : s.scanHeld) :
    s.p.toNat + s.bl.toNat ≤ s.srcLen.toNat ∧ s.bl.toNat ≤ Config.doc.maxLen := by
  obtain ⟨hp, -, -, -, hbl, -⟩ := h
  obtain ⟨hmax, hrest⟩ := Nat.le_min.mp hbl
  exact ⟨by omega, hmax⟩

/-- The best match of a scan, where there is one, lies within `MIN_DIST .. MAX_DIST` (42_encoder.md R183). -/
theorem State.scanHeld.distance_range {s : State} (h : s.scanHeld) (hbl : 1 ≤ s.bl.toNat) :
    Config.doc.minDist ≤ s.bd.toNat ∧ s.bd.toNat ≤ Config.doc.maxDist := by
  obtain ⟨-, -, -, -, -, hbd⟩ := h
  obtain ⟨hlo, hhi⟩ := hbd hbl
  exact ⟨hlo, hhi.trans (Nat.min_le_left _ _)⟩

/-- The bound on the packed size keeps `DPOS` far from the end of its range (42_encoder.md R199). -/
theorem State.withinBudget.dpos_lt {s : State} {flushed slack : Nat} (h : s.withinBudget flushed slack)
    (hp : s.p.toNat < 2 ^ 32) (hflushed : flushed ≤ s.glen.toNat) (hslack : slack ≤ Config.doc.groupSize) :
    s.dpos.toNat < 2 ^ 33 := by
  obtain ⟨-, hbudget⟩ := h
  simp only at hbudget hslack
  omega

theorem operandsHeld_of_pEmit {s : State} (hst : s.st = .pEmit) (hlen : s.srcLen.toNat < 2 ^ 32)
    (hgroup : s.groupHeld) (hcnt : s.gcnt.toNat < Config.doc.groupSize) (hscan : s.scanHeld) :
    s.operandsHeld = true := by
  have hglen := hgroup.glen_le
  obtain ⟨hfit, hmax⟩ := hscan.match_fits
  have hdist : s.bl.toNat < Config.doc.minMatch ∨
      (Config.doc.minDist ≤ s.bd.toNat ∧ s.bd.toNat ≤ Config.doc.maxDist) := by
    rcases Nat.lt_or_ge s.bl.toNat Config.doc.minMatch with hshort | hlong
    · exact .inl hshort
    · exact .inr (hscan.distance_range (Nat.le_of_succ_le hlong))
  have hroom : s.glen.toNat + 2 ≤ Config.doc.gbufSize := by simp only at hcnt ⊢; omega
  simp only [State.operandsHeld, hst, Bool.and_eq_true, Bool.or_eq_true, decide_eq_true_eq]
  exact ⟨⟨⟨⟨⟨⟨hscan.1, hcnt⟩, hroom⟩, hfit⟩, hlen⟩, hmax⟩, hdist⟩

theorem operandsHeld_of_pFlush {s : State} (hst : s.st = .pFlush) (hp : s.p.toNat < 2 ^ 32)
    (hgroup : s.groupHeld) (hcnt : 1 ≤ s.gcnt.toNat) (hcnt' : s.gcnt.toNat ≤ Config.doc.groupSize)
    (hidx : s.gidx.toNat ≤ s.glen.toNat) (hbudget : s.withinBudget s.gidx.toNat 0) : s.operandsHeld = true := by
  have hroom : s.glen.toNat ≤ Config.doc.gbufSize := by
    have := hgroup.glen_le
    simp only at hcnt' ⊢
    omega
  simp only [State.operandsHeld, hst, Bool.and_eq_true, decide_eq_true_eq]
  exact ⟨⟨⟨⟨hcnt, hcnt.trans hgroup.gcnt_le⟩, hroom⟩, hidx⟩, hbudget.dpos_lt hp hidx (Nat.zero_le _)⟩

/-- What the invariant says of a phase implies the Operands clause of the phase's step rule (41_decoder.md R156): no
value the spec excludes is held. -/
theorem State.phaseHeld.operandsHeld {s : State} (h : s.phaseHeld) : s.operandsHeld = true := by
  cases hst : s.st <;> simp only [State.phaseHeld, hst] at h
  case idle | done | failed => simp only [State.operandsHeld, hst]
  case uMagic =>
    obtain ⟨⟨-, hspos, -, -, -⟩, hlt, -⟩ := h
    simp [State.operandsHeld, hst, hspos, hlt]
  case uSize | uPad =>
    obtain ⟨⟨-, hspos, -, -, -⟩, hge, hlt⟩ := h
    simp [State.operandsHeld, hst, hspos, hge, hlt]
  case dFlag | dLen =>
    obtain ⟨⟨-, -, hspos, -⟩, -⟩ := h
    simp [State.operandsHeld, hst, hspos]
  case dTok =>
    obtain ⟨⟨-, -, hspos, -⟩, howed, hlo, hhi⟩ := h
    simp [State.operandsHeld, hst, hspos, howed, hlo, hhi]
  case dCopy =>
    obtain ⟨-, howed, hdist, hdist', hrem, hrem', -⟩ := h
    simp [State.operandsHeld, hst, howed, hdist, hdist'.trans (Nat.min_le_right _ _), hrem, hrem']
  case pHdr =>
    obtain ⟨-, hcnt, hdpos, -⟩ := h
    simp only [State.operandsHeld, hst, Bool.and_eq_true, decide_eq_true_eq]
    exact ⟨hcnt, by omega⟩
  case pNext =>
    obtain ⟨⟨-, -, -, -, -, hp, -⟩, -⟩ := h
    simp [State.operandsHeld, hst, hp]
  case pScan =>
    obtain ⟨-, -, -, -, -, hp, -⟩ := h
    simp [State.operandsHeld, hst, hp]
  case pEmit =>
    obtain ⟨⟨-, hlen, -⟩, hgroup, hcnt, -, -, hscan⟩ := h
    exact operandsHeld_of_pEmit hst hlen hgroup hcnt hscan
  case pFlush =>
    obtain ⟨⟨-, hlen, -, -, -, hp, -⟩, hgroup, hcnt, hcnt', hidx, -, hbudget⟩ := h
    exact operandsHeld_of_pFlush hst (hp.trans_lt hlen) hgroup hcnt hcnt' hidx hbudget

theorem State.Inv.operandsHeld {s : State} (h : s.Inv) : s.operandsHeld = true := by
  obtain ⟨-, -, hphase⟩ := h
  exact hphase.operandsHeld

@[simp] theorem operandsHeld_withHost (s : State) (later : List HostEvent) :
    State.operandsHeld { s with host := later } = s.operandsHeld := rfl

@[simp] theorem busy_withHost (s : State) (later : List HostEvent) :
    State.busy { s with host := later } = s.busy := rfl

/-! ### A step whose Operands clause holds answers a next state -/

theorem bytewiseStep_progress {s : State} (h : s.operandsHeld = true) : ∃ t, bytewiseStep s = .next t := by
  cases hst : s.st <;> simp only [bytewiseStep, hst, guarded_of_held _ h] <;> exact ⟨_, rfl⟩

theorem encoderStep_progress {s : State} (h : s.operandsHeld = true) : ∃ t, encoderStep s = .next t := by
  cases hst : s.st <;> simp only [encoderStep, hst, guarded_of_held _ h] <;> exact ⟨_, rfl⟩

/-- The item that a state fetches is the selected one (`exec_fetched`, by `blockStep_eq`), so the guard alone decides
whether the block steps. -/
theorem blockStep_progress {s : State} (h : s.operandsHeld = true) : ∃ t, blockStep s = .next t := by
  rw [blockStep_eq]
  cases s.st
  case pHdr | pNext | pScan | pEmit | pFlush => exact encoderStep_progress h
  all_goals exact bytewiseStep_progress h

/-! ### The host's events -/

/-- A value written to `CMD` gives UNPACK, PACK or nothing (10_state.md R46). -/
theorem commandOf_cases (v : BitVec 2) :
    commandOf v = none ∨ commandOf v = some .unpack ∨ commandOf v = some .pack := by
  revert v
  decide

/-- A write of `CMD` is answered in every state: both commands are (43_container.md R221, R222). -/
theorem hostWriteCmd_progress (v : BitVec 2) (s : State) : ∃ t, hostWriteCmd v s = .next t := by
  rcases commandOf_cases v with hv | hv | hv <;> simp only [hostWriteCmd, hv]
  · exact ⟨s, rfl⟩
  · exact ⟨_, (rfl : exec .unpack s = _)⟩
  · exact ⟨_, (rfl : exec .pack s = _)⟩

/-- Placing bytes in SRC is refused exactly during a run (20_memory.md R80). -/
theorem hostLoad_cases (bytes : List Byte) (s : State) :
    (s.busy = false ∧ hostLoad bytes s = .next { s with src := Mem.ofBytes 0 bytes }) ∨
    (s.busy = true ∧ hostLoad bytes s = .refused .srcWrittenDuringRun) := by
  cases hb : s.busy
  · exact .inl ⟨rfl, by simp [hostLoad, hb]⟩
  · exact .inr ⟨rfl, by simp [hostLoad, hb]⟩

/-- Settles O40: the invariant implies the Operands clause, which is all a step of the block needs; of the host's
events every other is answered, and a load is refused only while the block is busy. -/
theorem invariantMeansNoStop : Obligations.InvariantMeansNoStop := by
  intro s hinv
  have hheld := hinv.operandsHeld
  rcases step_cases s with ⟨-, hstep⟩ | ⟨e, later, hhost, r, rfl, hevent⟩
  · rw [hstep]
    exact .inl (blockStep_progress hheld)
  · rcases hevent with ⟨-, hstep⟩ | ⟨v, -, hstep⟩ | ⟨v, -, hstep⟩ | ⟨reg, v, -, hstep⟩ | ⟨bytes, rfl, hstep⟩ |
      ⟨-, hstep⟩
    · rw [hstep]
      exact .inl (blockStep_progress ((operandsHeld_withHost s later).trans hheld))
    · rw [hstep]
      exact .inl (hostWriteCmd_progress v _)
    · exact .inl ⟨_, hstep⟩
    · exact .inl ⟨_, hstep⟩
    · rcases hostLoad_cases bytes { s with host := later } with ⟨-, hload⟩ | ⟨hbusy, hload⟩
      · exact .inl ⟨_, hstep.trans hload⟩
      · exact .inr ⟨(busy_withHost s later).symm.trans hbusy, hstep.trans hload, bytes, later, hhost⟩
    · exact .inl ⟨_, hstep⟩

end Sys2Proof.Machine

/-! ## The step of the block as one rule, and the frame of each rule

`State.ruleStep` names the state that the rule of `ST` leads to; `blockStep` is that rule behind the Operands guard
(`blockStep_eq_guarded`). Each rule has its frame: the registers it may write, every other field as it was. -/

namespace Sys2Proof.Machine

/-! ### The rule of `ST` -/

/-- The state that the step rule of `ST` leads to (43_container.md R224); where there is no step, the state itself. -/
def State.ruleStep (s : State) : State :=
  match s.st with
  | .uMagic => magicStep (s.srcByte s.spos.toNat) s
  | .uSize => sizeStep (s.srcByte s.spos.toNat) s
  | .uPad => padStep s
  | .dFlag => flagStep (s.srcByte s.spos.toNat) s
  | .dTok => tokStep (s.srcByte s.spos.toNat) s
  | .dLen => lenStep (s.srcByte s.spos.toNat) s
  | .dCopy => copyStep s
  | .pHdr => hdrStep s
  | .pNext => nextStep s
  | .pScan => scanStep s
  | .pEmit => emitStep s
  | .pFlush => flushStep s
  | .idle | .done | .failed => s

theorem blockStep_eq_guarded (s : State) : blockStep s = s.guarded s.ruleStep := by
  rw [blockStep_eq]
  cases hst : s.st
  case idle | done | failed => simp [bytewiseStep, State.ruleStep, State.guarded, State.operandsHeld, hst]
  case pHdr | pNext | pScan | pEmit | pFlush => simp only [encoderStep, State.ruleStep, hst]
  all_goals simp only [bytewiseStep, State.ruleStep, hst]

theorem blockStep_next_iff {s t : State} : blockStep s = .next t ↔ s.operandsHeld = true ∧ t = s.ruleStep := by
  rw [blockStep_eq_guarded, guarded_next_iff]

theorem step_of_host_nil {s : State} (h : s.host = []) : step s = blockStep s := by
  simp only [step, h]

/-! ### The frame of each rule -/

theorem magicStep_frame (b : Byte) (s : State) :
    magicStep b s =
      { s with acc := (magicStep b s).acc, spos := (magicStep b s).spos, st := (magicStep b s).st,
               err := (magicStep b s).err } := by
  rcases magicStep_cases b s with ⟨-, h⟩ | ⟨-, acc, -, ⟨-, h⟩ | ⟨-, -, h⟩ | ⟨-, -, h⟩⟩ <;> rw [h] <;> rfl

theorem sizeStep_frame (b : Byte) (s : State) :
    sizeStep b s =
      { s with unpackedSize := (sizeStep b s).unpackedSize, spos := (sizeStep b s).spos, st := (sizeStep b s).st,
               err := (sizeStep b s).err } := by
  rcases sizeStep_cases b s with ⟨-, h⟩ | ⟨-, h⟩ <;> rw [h] <;> rfl

theorem padStep_frame (s : State) :
    padStep s = { s with spos := (padStep s).spos, st := (padStep s).st, err := (padStep s).err } := by
  rcases padStep_cases s with ⟨-, h⟩ | ⟨-, h⟩ <;> rw [h] <;> rfl

theorem flagStep_frame (b : Byte) (s : State) :
    flagStep b s =
      { s with flags := (flagStep b s).flags, fcnt := (flagStep b s).fcnt, spos := (flagStep b s).spos,
               st := (flagStep b s).st, err := (flagStep b s).err } := by
  rcases flagStep_cases b s with ⟨-, h⟩ | ⟨-, -, h⟩ | ⟨-, -, h⟩ <;> rw [h] <;> rfl

theorem tokStep_frame (x : Byte) (s : State) :
    tokStep x s =
      { s with flags := (tokStep x s).flags, fcnt := (tokStep x s).fcnt, spos := (tokStep x s).spos,
               distb := (tokStep x s).distb, st := (tokStep x s).st, err := (tokStep x s).err,
               outLen := (tokStep x s).outLen, dst := (tokStep x s).dst, hist := (tokStep x s).hist } := by
  rcases tokStep_cases x s with ⟨-, h⟩ | ⟨-, -, h⟩ | ⟨-, -, h⟩ <;> rw [h] <;> rfl

theorem lenStep_frame (y : Byte) (s : State) :
    lenStep y s =
      { s with spos := (lenStep y s).spos, dist := (lenStep y s).dist, rem := (lenStep y s).rem,
               st := (lenStep y s).st, err := (lenStep y s).err } := by
  rcases lenStep_cases y s with ⟨-, h⟩ | ⟨-, t, rfl, ⟨-, h⟩ | ⟨-, -, -, h⟩ | ⟨-, -, h⟩⟩ <;> rw [h] <;> rfl

theorem copyStep_frame (s : State) :
    copyStep s =
      { s with dst := (copyStep s).dst, hist := (copyStep s).hist, outLen := (copyStep s).outLen,
               rem := (copyStep s).rem, st := (copyStep s).st } := rfl

theorem hdrStep_frame (s : State) :
    hdrStep s =
      { s with dst := (hdrStep s).dst, dpos := (hdrStep s).dpos, hcnt := (hdrStep s).hcnt, st := (hdrStep s).st } := by
  rw [hdrStep_eq]

theorem nextStep_frame (s : State) :
    nextStep s =
      { s with cd := (nextStep s).cd, cl := (nextStep s).cl, bd := (nextStep s).bd, bl := (nextStep s).bl,
               st := (nextStep s).st } := by
  rcases nextStep_cases s with ⟨-, -, h⟩ | ⟨-, -, h⟩ | ⟨-, h⟩ <;> rw [h] <;> rfl

theorem scanStep_frame (s : State) :
    scanStep s =
      { s with cd := (scanStep s).cd, cl := (scanStep s).cl, bd := (scanStep s).bd, bl := (scanStep s).bl,
               st := (scanStep s).st } := by
  rcases scanStep_cases s with ⟨-, h⟩ | ⟨-, -, -, h⟩ | ⟨-, -, ⟨-, h⟩ | ⟨-, h⟩⟩ <;> rw [h]
  rfl

theorem emitStep_frame (s : State) :
    emitStep s =
      { s with gflags := (emitStep s).gflags, gbuf := (emitStep s).gbuf, glen := (emitStep s).glen, p := (emitStep s).p,
               gcnt := (emitStep s).gcnt, st := (emitStep s).st } := by
  rcases emitStep_cases s with ⟨x, -, ⟨-, h⟩ | ⟨-, h⟩⟩ <;> rw [h] <;> rfl

theorem flushStep_frame (s : State) :
    flushStep s =
      { s with dst := (flushStep s).dst, dpos := (flushStep s).dpos, gflags := (flushStep s).gflags,
               gcnt := (flushStep s).gcnt, glen := (flushStep s).glen, gidx := (flushStep s).gidx,
               st := (flushStep s).st } := by
  rcases flushStep_cases s with ⟨-, h⟩ | ⟨-, h⟩ <;> rw [h] <;> rfl

/-! ### The frame of each group of `ST` (10_state.md R20) -/

theorem ruleStep_frame_of_header {s : State} (hst : s.st = .uMagic ∨ s.st = .uSize ∨ s.st = .uPad) :
    s.ruleStep =
      { s with st := s.ruleStep.st, err := s.ruleStep.err, spos := s.ruleStep.spos,
               unpackedSize := s.ruleStep.unpackedSize, acc := s.ruleStep.acc } := by
  rcases hst with hst | hst | hst <;> simp only [State.ruleStep, hst]
  · rw [magicStep_frame]
  · rw [sizeStep_frame]
  · rw [padStep_frame]

theorem ruleStep_frame_of_decoder {s : State}
    (hst : s.st = .dFlag ∨ s.st = .dTok ∨ s.st = .dLen ∨ s.st = .dCopy) :
    s.ruleStep =
      { s with st := s.ruleStep.st, err := s.ruleStep.err, spos := s.ruleStep.spos, outLen := s.ruleStep.outLen,
               flags := s.ruleStep.flags, fcnt := s.ruleStep.fcnt, distb := s.ruleStep.distb, dist := s.ruleStep.dist,
               rem := s.ruleStep.rem, hist := s.ruleStep.hist, dst := s.ruleStep.dst } := by
  rcases hst with hst | hst | hst | hst <;> simp only [State.ruleStep, hst]
  · rw [flagStep_frame]
  · rw [tokStep_frame]
  · rw [lenStep_frame]
  · rw [copyStep_frame]

theorem ruleStep_frame_of_pHdr {s : State} (hst : s.st = .pHdr) :
    s.ruleStep =
      { s with st := s.ruleStep.st, hcnt := s.ruleStep.hcnt, dpos := s.ruleStep.dpos, dst := s.ruleStep.dst } := by
  simp only [State.ruleStep, hst]
  rw [hdrStep_frame]

theorem ruleStep_frame_of_encoder {s : State}
    (hst : s.st = .pNext ∨ s.st = .pScan ∨ s.st = .pEmit ∨ s.st = .pFlush) :
    s.ruleStep =
      { s with st := s.ruleStep.st, p := s.ruleStep.p, cd := s.ruleStep.cd, cl := s.ruleStep.cl, bd := s.ruleStep.bd,
               bl := s.ruleStep.bl, gflags := s.ruleStep.gflags, gcnt := s.ruleStep.gcnt, gbuf := s.ruleStep.gbuf,
               glen := s.ruleStep.glen, gidx := s.ruleStep.gidx, dpos := s.ruleStep.dpos, dst := s.ruleStep.dst } := by
  rcases hst with hst | hst | hst | hst <;> simp only [State.ruleStep, hst]
  · rw [nextStep_frame]
  · rw [scanStep_frame]
  · rw [emitStep_frame]
  · rw [flushStep_frame]

end Sys2Proof.Machine

/-! ## The host's side: STATUS, the commands, reset -/

namespace Sys2Proof.Machine

/-! ### The `STATUS` word (10_state.md R47) -/

theorem stCode_lt (x : St) : stCode x < 16 := by cases x <;> decide

theorem opCode_lt (x : Op) : opCode x < 4 := by cases x <;> decide

theorem errCode_lt (x : Err) : errCode x < 16 := by cases x <;> decide

/-- The status word is the sum of its fields: they fit below bit 10, so nothing is lost in the 32 bits. -/
theorem status_toNat (s : State) :
    s.status.toNat =
      stCode s.st + 2 ^ 4 * s.busy.toNat + 2 ^ 5 * s.isDone.toNat + 2 ^ 6 * s.isFailed.toNat + 2 ^ 8 * opCode s.op := by
  have hst := stCode_lt s.st
  have hop := opCode_lt s.op
  have hb := s.busy.toNat_le
  have hd := s.isDone.toNat_le
  have hf := s.isFailed.toNat_le
  rw [State.status, BitVec.toNat_ofNat, Nat.mod_eq_of_lt (by omega)]

theorem busy_eq_decide (s : State) : s.busy = decide (s.st ≠ .idle ∧ s.st ≠ .done ∧ s.st ≠ .failed) := by
  cases hst : s.st <;> simp [State.busy, hst]

theorem isDone_eq_decide (s : State) : s.isDone = decide (s.st = .done) := rfl

theorem isFailed_eq_decide (s : State) : s.isFailed = decide (s.st = .failed) := rfl

/-- A bit of a word is set where its quotient is odd; so a one-bit field of the word is that bit. -/
theorem getLsbD_eq_of_field {w : BitVec 32} {i : Nat} {b : Bool} (h : w.toNat / 2 ^ i % 2 = b.toNat) :
    w.getLsbD i = b := by
  rw [BitVec.getLsbD, Nat.testBit_eq_decide_div_mod_eq, h]
  cases b <;> rfl

/-- Settles O8: each field of the status word by its place in the sum; the other registers read as they are. -/
theorem statusWordFields : Obligations.StatusWordFields := by
  intro s
  have hword := status_toNat s
  have hst := stCode_lt s.st
  have hop := opCode_lt s.op
  have hb := s.busy.toNat_le
  have hd := s.isDone.toNat_le
  have hf := s.isFailed.toNat_le
  refine ⟨by omega, ?_, ?_, ?_, ?_, by omega, by omega, rfl, ?_, rfl, ?_, ?_, ?_, rfl, rfl⟩
  · rw [← busy_eq_decide]
    exact getLsbD_eq_of_field (by omega)
  · rw [← isDone_eq_decide]
    exact getLsbD_eq_of_field (by omega)
  · rw [← isFailed_eq_decide]
    exact getLsbD_eq_of_field (by omega)
  · exact getLsbD_eq_of_field (by simp only [Bool.toNat_false]; omega)
  · intro v later hhost
    simp only [step, hhost]
  · exact Nat.mod_eq_of_lt ((errCode_lt s.err).trans (by decide))
  · exact BitVec.toNat_setWidth_of_le (by decide)
  · exact BitVec.toNat_setWidth_of_le (by decide)

/-! ### The two commands (43_container.md R221, R222) -/

theorem execUnpack_of_busy {s : State} (h : s.busy = true) : execUnpack s = .next s := by
  simp only [execUnpack, h, if_true]

theorem execUnpack_of_not_busy {s : State} (h : s.busy = false) : execUnpack s = .next (s.start .unpack .uMagic 0) := by
  simp [execUnpack, h]

theorem execPack_of_busy {s : State} (h : s.busy = true) : execPack s = .next s := by
  simp only [execPack, h, if_true]

theorem execPack_of_not_busy {s : State} (h : s.busy = false) (hlen : s.srcLen.toNat < 2 ^ 32) :
    execPack s = .next (s.start .pack .pHdr (s.srcLen.setWidth 32)) := by
  simp only [execPack, h, if_pos hlen, Bool.false_eq_true, if_false]

theorem execPack_of_long {s : State} (hlen : 2 ^ 32 ≤ s.srcLen.toNat) : execPack s = .next s := by
  simp only [execPack, if_neg (Nat.not_lt.mpr hlen), ite_self]

/-- Settles O10: the answers of the two commands are `State.start`, field by field, or the state itself. -/
theorem commandsStartOrAreIgnored : Obligations.CommandsStartOrAreIgnored := by
  intro s
  refine ⟨fun hbusy => ⟨execUnpack_of_busy hbusy, execPack_of_busy hbusy⟩, fun hidle => execUnpack_of_not_busy hidle,
    fun hidle hlen => ⟨s.srcLen.setWidth 32, ?_, execPack_of_not_busy hidle hlen⟩, fun _ hlong => execPack_of_long hlong⟩
  rw [BitVec.toNat_setWidth, Nat.mod_eq_of_lt hlen]

/-! ### Writes of `CMD` (10_state.md R46) -/

theorem hostWriteCmd_one (s : State) : hostWriteCmd 1 s = execUnpack s := rfl

theorem hostWriteCmd_two (s : State) : hostWriteCmd 2 s = execPack s := rfl

theorem hostWriteCmd_of_no_command {v : BitVec 2} (h : v = 0 ∨ v = 3) (s : State) : hostWriteCmd v s = .next s := by
  rcases h with rfl | rfl <;> rfl

theorem cmd_value_cases (v : BitVec 2) : v = 1 ∨ v = 2 ∨ v = 0 ∨ v = 3 := by
  revert v
  decide

theorem hostWriteCmd_of_busy (v : BitVec 2) {s : State} (h : s.busy = true) : hostWriteCmd v s = .next s := by
  rcases cmd_value_cases v with rfl | rfl | hv
  · exact execUnpack_of_busy h
  · exact execPack_of_busy h
  · exact hostWriteCmd_of_no_command hv s

/-- What a write of `CMD` can answer: nothing changes, or the command of its value starts on a block that is not
busy. -/
theorem hostWriteCmd_next {v : BitVec 2} {s t : State} (h : hostWriteCmd v s = .next t) :
    t = s ∨ (v = 1 ∧ s.busy = false ∧ t = s.start .unpack .uMagic 0) ∨
      (v = 2 ∧ s.busy = false ∧ t = s.start .pack .pHdr (s.srcLen.setWidth 32)) := by
  rcases cmd_value_cases v with rfl | rfl | hv
  · rcases execUnpack_next h with ⟨-, ht⟩ | ⟨hidle, ht⟩
    · exact .inl ht
    · exact .inr (.inl ⟨rfl, hidle, ht⟩)
  · rcases execPack_next h with ⟨-, ht⟩ | ⟨hidle, -, ht⟩ | ⟨-, -, ht⟩
    · exact .inl ht
    · exact .inr (.inr ⟨rfl, hidle, ht⟩)
    · exact .inl ht
  · rw [hostWriteCmd_of_no_command hv] at h
    cases h
    exact .inl rfl

/-- Settles O11: the value of the write gives the command or none, and the command starts or is ignored. -/
theorem commandRegisterWrites : Obligations.CommandRegisterWrites := by
  intro s v later hhost
  have hstep : step s = hostWriteCmd v { s with host := later } := by simp only [step, hhost]
  rw [hstep]
  refine ⟨?_, ?_, ?_, rfl⟩
  · rintro rfl hidle
    exact execUnpack_of_not_busy hidle
  · rintro rfl hidle hlen
    exact execPack_of_not_busy hidle hlen
  · rintro (h0 | h3 | hbusy | ⟨rfl, hlong⟩)
    · exact hostWriteCmd_of_no_command (.inl h0) _
    · exact hostWriteCmd_of_no_command (.inr h3) _
    · exact hostWriteCmd_of_busy v hbusy
    · exact execPack_of_long hlong

/-! ### Reset (10_state.md R50) -/

/-- Settles O9: the written-out state is `hostReset` of the state with the reset event taken off the list. -/
theorem resetValues : Obligations.ResetValues := by
  intro s later hhost
  have hstep : step s = .next (hostReset { s with host := later }) := by simp only [step, hhost]
  rw [hstep]
  rfl

theorem storesWf_bootState (c : Params) (host : List HostEvent) : (bootState c host).storesWf := by
  refine ⟨rfl, rfl, rfl, rfl, ?_, ?_⟩ <;> exact fun _ hmem => absurd hmem (List.not_mem_nil)

/-- Before anything has happened the block is in `IDLE` with no error and no operation, whatever its parameters. -/
theorem inv_bootState (c : Params) (host : List HostEvent) : (bootState c host).Inv :=
  ⟨storesWf_bootState c host, ⟨fun herr => absurd rfl herr, fun hst => St.noConfusion hst⟩, rfl⟩

/-- Settles O38: the stores are empty and the phase is `IDLE`. -/
theorem bootMeetsTheInvariant : Obligations.BootMeetsTheInvariant :=
  ⟨inv_bootState Params.default [], inv_bootState⟩

end Sys2Proof.Machine

/-! ## Frames: what an item, a group of `ST` and a host event leave unchanged -/

namespace Sys2Proof.Machine

/-! ### HEADER and FLAG -/

/-- Settles O17: each path of HEADER is one of its three rules and FLAG is one, so their frames give it. -/
theorem headerAndFlagFrame : Obligations.HeaderAndFlagFrame := by
  intro s t
  refine ⟨fun n pad h => ?_, fun f h => ?_⟩
  · obtain ⟨-, ⟨hst, rfl⟩ | ⟨hst, rfl⟩ | ⟨hst, rfl⟩⟩ := execHeader_next h
    · rw [magicStep_frame]
      exact ⟨rfl, fun hne => absurd hst hne, fun _ => rfl⟩
    · rw [sizeStep_frame]
      exact ⟨rfl, fun _ => rfl, fun hne => absurd hst hne⟩
    · rw [padStep_frame]
      exact ⟨rfl, fun _ => rfl, fun _ => rfl⟩
  · obtain ⟨-, -, rfl⟩ := execFlag_next h
    exact flagStep_frame f s

/-! ### What a rule does to the output

A rule of the decoder leaves DST, HIST and `OUT_LEN` alone, or it is one `Append` (41_decoder.md R148). -/

/-- DST, HIST and `OUT_LEN` are as they were. -/
def KeepsOutput (s t : State) : Prop := t.dst = s.dst ∧ t.hist = s.hist ∧ t.outLen = s.outLen

/-- One byte was appended to the output, and the step did not fail. -/
def AppendsOutput (s t : State) : Prop :=
  t.st ≠ .failed ∧ ∃ v, t.dst = (s.append v).dst ∧ t.hist = (s.append v).hist ∧ t.outLen = (s.append v).outLen

theorem keepsOutput_refl (s : State) : KeepsOutput s s := ⟨rfl, rfl, rfl⟩

theorem afterToken_ne_failed (s : State) : s.afterToken ≠ .failed := by
  unfold State.afterToken
  split_ifs <;> exact nofun

theorem afterToken_ne_dCopy (s : State) : s.afterToken ≠ .dCopy := by
  unfold State.afterToken
  split_ifs <;> exact nofun

theorem afterCopiedByte_ne_failed (s : State) : s.afterCopiedByte ≠ .failed := by
  unfold State.afterCopiedByte
  split_ifs <;> exact nofun

theorem lenStep_keepsOutput (y : Byte) (s : State) : KeepsOutput s (lenStep y s) := by
  rw [lenStep_frame]
  exact keepsOutput_refl s

theorem tokStep_output (x : Byte) (s : State) : KeepsOutput s (tokStep x s) ∨ AppendsOutput s (tokStep x s) := by
  rcases tokStep_cases x s with ⟨-, h⟩ | ⟨-, -, h⟩ | ⟨-, -, h⟩ <;> rw [h]
  · exact .inl ⟨rfl, rfl, rfl⟩
  · exact .inr ⟨afterToken_ne_failed _, x, rfl, rfl, rfl⟩
  · exact .inl ⟨rfl, rfl, rfl⟩

theorem tokStep_keepsOutput_of_lz (x : Byte) {s : State} (hsel : s.selector = true) :
    KeepsOutput s (tokStep x s) := by
  rcases tokStep_cases x s with ⟨-, h⟩ | ⟨-, hraw, -⟩ | ⟨-, -, h⟩
  · rw [h]
    exact ⟨rfl, rfl, rfl⟩
  · exact absurd (hraw.symm.trans hsel) nofun
  · rw [h]
    exact ⟨rfl, rfl, rfl⟩

theorem tokStep_distb_of_raw (x : Byte) {s : State} (hsel : s.selector = false) : (tokStep x s).distb = s.distb := by
  rcases tokStep_cases x s with ⟨-, h⟩ | ⟨-, -, h⟩ | ⟨-, hlz, -⟩
  · rw [h, raise_distb]
  · rw [h]
    rfl
  · exact absurd (hsel.symm.trans hlz) nofun

theorem copyStep_appendsOutput (s : State) : AppendsOutput s (copyStep s) :=
  ⟨afterCopiedByte_ne_failed _, _, rfl, rfl, rfl⟩

/-! ### LITERAL and COPY -/

/-- A Literal appends one byte or fails. -/
theorem execLiteral_output {b : Byte} {s t : State} (h : execLiteral b s = .next t) :
    KeepsOutput s t ∨ AppendsOutput s t := by
  obtain ⟨-, -, -, rfl⟩ := execLiteral_next h
  exact tokStep_output b s

/-- A Copy appends in `D_COPY` alone. -/
theorem execCopy_output {x y : Byte} {s t : State} (h : execCopy x y s = .next t) :
    KeepsOutput s t ∨ s.st = .dCopy ∧ AppendsOutput s t := by
  obtain ⟨-, ⟨-, hsel, rfl⟩ | ⟨-, rfl⟩ | ⟨hst, rfl⟩⟩ := execCopy_next h
  · exact .inl (tokStep_keepsOutput_of_lz x hsel)
  · exact .inl (lenStep_keepsOutput y s)
  · exact .inr ⟨hst, copyStep_appendsOutput s⟩

/-- Where the output is kept or appended to, only the byte at `OUT_LEN` and its HIST cell may differ, and a failing
step kept both stores whole (41_decoder.md R148; 60_exceptions.md R246). -/
theorem stores_frame_of_output {s t : State} (h : KeepsOutput s t ∨ AppendsOutput s t) :
    (∀ a, a ≠ s.outLen.toNat → Mem.cell? t.dst a = Mem.cell? s.dst a) ∧
      (∀ j, j ≠ s.outLen.toNat % 256 → Mem.cell? t.hist j = Mem.cell? s.hist j) ∧
      (t.st = .failed → KeepsOutput s t) := by
  rcases h with hkeep | ⟨hst, v, hdst, hhist, -⟩
  · have ⟨hdst, hhist, _⟩ := hkeep
    exact ⟨fun a _ => by rw [hdst], fun j _ => by rw [hhist], fun _ => hkeep⟩
  · rw [hdst, hhist]
    exact ⟨fun a ha => cell?_put_other _ v ha, fun j hj => cell?_put_other _ v hj, fun hfail => absurd hfail hst⟩

theorem execLiteral_frame {b : Byte} {s t : State} (h : execLiteral b s = .next t) :
    t = { s with flags := t.flags, fcnt := t.fcnt, spos := t.spos, st := t.st, err := t.err, outLen := t.outLen,
                 dst := t.dst, hist := t.hist } := by
  obtain ⟨-, -, hsel, rfl⟩ := execLiteral_next h
  have hframe := tokStep_frame b s
  rw [tokStep_distb_of_raw b hsel] at hframe
  exact hframe

theorem execCopy_frame {x y : Byte} {s t : State} (h : execCopy x y s = .next t) :
    t = { s with flags := t.flags, fcnt := t.fcnt, spos := t.spos, distb := t.distb, dist := t.dist, rem := t.rem,
                 st := t.st, err := t.err, outLen := t.outLen, dst := t.dst, hist := t.hist } := by
  obtain ⟨-, ⟨-, -, rfl⟩ | ⟨-, rfl⟩ | ⟨-, rfl⟩⟩ := execCopy_next h
  · rw [tokStep_frame]
  · rw [lenStep_frame]
  · rw [copyStep_frame]

/-- Settles O18: the frames of the rules, and that each path keeps the output or is one `Append`. -/
theorem literalAndCopyFrame : Obligations.LiteralAndCopyFrame := by
  intro s t
  refine ⟨fun b h => execLiteral_frame h, fun x y h => ⟨execCopy_frame h, fun hst => ?_⟩, ?_⟩
  · rcases execCopy_output h with hkeep | ⟨hcopy, -⟩
    · exact hkeep
    · exact absurd hcopy hst
  · rintro i (⟨b, rfl⟩ | ⟨x, y, rfl⟩) h
    · exact stores_frame_of_output (execLiteral_output h)
    · exact stores_frame_of_output ((execCopy_output h).imp_right And.right)

/-! ### `OP` and the groups of `ST` -/

/-- The configuration, the operation, the source and what is not the block's own are written by no rule
(10_state.md R48, R61). -/
theorem ruleStep_fixed (s : State) :
    s.ruleStep.cfg = s.cfg ∧ s.ruleStep.op = s.op ∧ s.ruleStep.srcLen = s.srcLen ∧ s.ruleStep.src = s.src ∧
      s.ruleStep.host = s.host ∧ s.ruleStep.epoch = s.epoch := by
  cases hst : s.st
  case idle | done | failed => simp [State.ruleStep, hst]
  case uMagic | uSize | uPad =>
    rw [ruleStep_frame_of_header (by simp [hst])]
    exact ⟨rfl, rfl, rfl, rfl, rfl, rfl⟩
  case dFlag | dTok | dLen | dCopy =>
    rw [ruleStep_frame_of_decoder (by simp [hst])]
    exact ⟨rfl, rfl, rfl, rfl, rfl, rfl⟩
  case pHdr =>
    rw [ruleStep_frame_of_pHdr hst]
    exact ⟨rfl, rfl, rfl, rfl, rfl, rfl⟩
  case pNext | pScan | pEmit | pFlush =>
    rw [ruleStep_frame_of_encoder (by simp [hst])]
    exact ⟨rfl, rfl, rfl, rfl, rfl, rfl⟩

theorem ruleStep_op (s : State) : s.ruleStep.op = s.op := by
  obtain ⟨-, hop, -⟩ := ruleStep_fixed s
  exact hop

theorem ruleStep_srcLen (s : State) : s.ruleStep.srcLen = s.srcLen := by
  obtain ⟨-, -, hlen, -⟩ := ruleStep_fixed s
  exact hlen

theorem hostWriteSrcLen_frame (v : Pos) (s : State) :
    hostWriteSrcLen v s = { s with srcLen := (hostWriteSrcLen v s).srcLen } := by
  cases hb : s.busy <;> simp [hostWriteSrcLen, hb]

theorem hostLoad_next {bytes : List Byte} {s t : State} (h : hostLoad bytes s = .next t) :
    t = { s with src := Mem.ofBytes 0 bytes } := by
  rcases hostLoad_cases bytes s with ⟨-, hload⟩ | ⟨-, hload⟩ <;> rw [hload] at h <;> cases h
  rfl

/-- What a step can answer: the rule of `ST` where the host lets the block step, or what the host's event does. -/
theorem step_next {s t : State} (h : step s = .next t) :
    (s.host = [] ∧ s.operandsHeld = true ∧ t = s.ruleStep) ∨
    ∃ e later, s.host = e :: later ∧ ∃ r, r = { s with host := later } ∧
      ((e = .tick ∧ r.operandsHeld = true ∧ t = r.ruleStep) ∨
       (∃ v, e = .writeCmd v ∧
          (t = r ∨ (v = 1 ∧ s.busy = false ∧ t = r.start .unpack .uMagic 0) ∨
            (v = 2 ∧ s.busy = false ∧ t = r.start .pack .pHdr (r.srcLen.setWidth 32)))) ∨
       (e ≠ .tick ∧ e ≠ .reset ∧ (∀ v, e ≠ .writeCmd v) ∧ t = { r with src := t.src, srcLen := t.srcLen }) ∨
       (e = .reset ∧ t = hostReset r)) := by
  rcases step_cases s with ⟨hhost, hstep⟩ | ⟨e, later, hhost, r, hr, hevent⟩
  · exact .inl ⟨hhost, blockStep_next_iff.mp (hstep.symm.trans h)⟩
  refine .inr ⟨e, later, hhost, r, hr, ?_⟩
  rcases hevent with ⟨rfl, hstep⟩ | ⟨v, rfl, hstep⟩ | ⟨v, rfl, hstep⟩ | ⟨reg, v, rfl, hstep⟩ | ⟨bytes, rfl, hstep⟩ |
    ⟨rfl, hstep⟩ <;> rw [hstep] at h
  · exact .inl ⟨rfl, blockStep_next_iff.mp h⟩
  · subst hr
    exact .inr (.inl ⟨v, rfl, hostWriteCmd_next h⟩)
  · cases h
    exact .inr (.inr (.inl ⟨nofun, nofun, nofun, by rw [hostWriteSrcLen_frame]⟩))
  · cases h
    exact .inr (.inr (.inl ⟨nofun, nofun, nofun, rfl⟩))
  · rw [hostLoad_next h]
    exact .inr (.inr (.inl ⟨nofun, nofun, nofun, rfl⟩))
  · cases h
    exact .inr (.inr (.inr ⟨rfl, rfl⟩))

theorem step_frame_of_other_event {s t : State} {e : HostEvent} {later : List HostEvent} (h : step s = .next t)
    (hhost : s.host = e :: later) (htick : e ≠ .tick) (hreset : e ≠ .reset) (hcmd : ∀ v, e ≠ .writeCmd v) :
    t = { s with src := t.src, srcLen := t.srcLen, host := later } := by
  rcases step_next h with ⟨hnil, -⟩ | ⟨e', later', hhost', r, rfl, hevent⟩
  · exact absurd (hhost.symm.trans hnil) nofun
  obtain ⟨rfl, rfl⟩ : e = e' ∧ later = later' := List.cons.inj (hhost.symm.trans hhost')
  rcases hevent with ⟨he, -⟩ | ⟨v, he, -⟩ | ⟨-, -, -, ht⟩ | ⟨he, -⟩
  · exact absurd he htick
  · exact absurd he (hcmd v)
  · exact ht
  · exact absurd he hreset

theorem op_changed_by_start_or_reset {s t : State} (h : step s = .next t) (hop : t.op ≠ s.op) :
    ∃ later, s.host = .reset :: later ∨
      ((s.host = .writeCmd 1 :: later ∨ s.host = .writeCmd 2 :: later) ∧ s.busy = false) := by
  rcases step_next h with ⟨-, -, rfl⟩ | ⟨e, later, hhost, r, rfl, hevent⟩
  · exact absurd (ruleStep_op s) hop
  refine ⟨later, ?_⟩
  rcases hevent with ⟨-, -, rfl⟩ | ⟨v, rfl, rfl | ⟨rfl, hidle, -⟩ | ⟨rfl, hidle, -⟩⟩ | ⟨-, -, -, ht⟩ | ⟨rfl, -⟩
  · exact absurd (ruleStep_op _) hop
  · exact absurd rfl hop
  · exact .inr ⟨.inl hhost, hidle⟩
  · exact .inr ⟨.inr hhost, hidle⟩
  · exact absurd (congrArg State.op ht) hop
  · exact .inl hhost

/-- Settles O47: the frame of each group's rules, of the other host events, and what can change `OP`. -/
theorem fieldsAreWrittenByTheirUnit : Obligations.FieldsAreWrittenByTheirUnit := by
  intro s t h
  have hrule : s.host = [] → t = s.ruleStep := fun hhost =>
    (blockStep_next_iff.mp ((step_of_host_nil hhost).symm.trans h)).2
  refine ⟨fun hhost hst => ?_, fun hhost hst => ?_, fun hhost hst => ?_, fun hhost hst => ?_,
    fun e later hhost htick hreset hcmd => step_frame_of_other_event h hhost htick hreset hcmd,
    op_changed_by_start_or_reset h⟩ <;> rw [hrule hhost]
  · exact ruleStep_frame_of_header hst
  · exact ruleStep_frame_of_decoder hst
  · exact ruleStep_frame_of_pHdr hst
  · exact ruleStep_frame_of_encoder hst

/-! ### `SPOS` (10_state.md R26) -/

/-- A rule of an UNPACK state takes at most one byte, and none from an exhausted source. -/
theorem ruleStep_spos_of_unpack {s : State} (hst : s.st.ofUnpack = true) :
    s.ruleStep.spos = s.spos ∨ s.srcExhausted = false ∧ s.ruleStep.spos = s.spos + 1 := by
  cases hs : s.st <;> simp only [State.ruleStep, hs]
  case uMagic =>
    rcases magicStep_cases (s.srcByte s.spos.toNat) s with ⟨-, h⟩ | ⟨he, acc, -, ⟨-, h⟩ | ⟨-, -, h⟩ | ⟨-, -, h⟩⟩ <;> rw [h]
    · exact .inl rfl
    all_goals exact .inr ⟨he, rfl⟩
  case uSize =>
    rcases sizeStep_cases (s.srcByte s.spos.toNat) s with ⟨-, h⟩ | ⟨he, h⟩ <;> rw [h]
    · exact .inl rfl
    · exact .inr ⟨he, rfl⟩
  case uPad =>
    rcases padStep_cases s with ⟨-, h⟩ | ⟨he, h⟩ <;> rw [h]
    · exact .inl rfl
    · exact .inr ⟨he, rfl⟩
  case dFlag =>
    rcases flagStep_cases (s.srcByte s.spos.toNat) s with ⟨-, h⟩ | ⟨-, -, h⟩ | ⟨-, he, h⟩ <;> rw [h]
    · exact .inl rfl
    · exact .inl rfl
    · exact .inr ⟨he, rfl⟩
  case dTok =>
    rcases tokStep_cases (s.srcByte s.spos.toNat) s with ⟨-, h⟩ | ⟨he, -, h⟩ | ⟨he, -, h⟩ <;> rw [h]
    · exact .inl rfl
    all_goals exact .inr ⟨he, rfl⟩
  case dLen =>
    rcases lenStep_cases (s.srcByte s.spos.toNat) s with ⟨-, h⟩ | ⟨he, u, rfl, ⟨-, h⟩ | ⟨-, -, -, h⟩ | ⟨-, -, h⟩⟩ <;> rw [h]
    · exact .inl rfl
    all_goals exact .inr ⟨he, rfl⟩
  case dCopy => exact .inl rfl
  all_goals simp [St.ofUnpack, hs] at hst

theorem ruleStep_spos_of_pack {s : State} (hst : s.st.ofPack = true) : s.ruleStep.spos = s.spos := by
  cases hs : s.st
  case pHdr => rw [ruleStep_frame_of_pHdr hs]
  case pNext | pScan | pEmit | pFlush => rw [ruleStep_frame_of_encoder (by simp [hs])]
  all_goals simp [St.ofPack, hs] at hst

theorem State.Inv.spos_le {s : State} (h : s.Inv) (hst : s.st.ofUnpack = true) : s.spos.toNat ≤ s.srcLen.toNat := by
  obtain ⟨-, -, hphase⟩ := h
  cases hs : s.st <;> simp only [State.phaseHeld, hs] at hphase
  case uMagic | uSize | uPad =>
    obtain ⟨⟨-, hspos, -⟩, -⟩ := hphase
    exact hspos
  case dFlag | dTok | dLen | dCopy =>
    obtain ⟨⟨-, -, hspos, -⟩, -⟩ := hphase
    exact hspos
  all_goals simp [St.ofUnpack, hs] at hst

/-- A source that is not exhausted leaves room for one more byte, so `SPOS` does not wrap. -/
theorem spos_succ_of_not_exhausted {s : State} (hle : s.spos.toNat ≤ s.srcLen.toNat) (he : s.srcExhausted = false) :
    (s.spos + 1).toNat = s.spos.toNat + 1 ∧ s.spos.toNat + 1 ≤ s.srcLen.toNat := by
  have hne : s.spos ≠ s.srcLen := by simpa [State.srcExhausted] using he
  bv_omega

/-- Settles O44: the rule of an UNPACK state keeps `SPOS` or takes the byte at it, which lies below `SRC_LEN`. -/
theorem sourcePositionAdvancesByOne : Obligations.SourcePositionAdvancesByOne := by
  intro s t hinv hhost h
  obtain ⟨-, rfl⟩ := blockStep_next_iff.mp ((step_of_host_nil hhost).symm.trans h)
  refine ⟨fun hst => ?_, ruleStep_spos_of_pack⟩
  have hle := hinv.spos_le hst
  rw [ruleStep_srcLen]
  rcases ruleStep_spos_of_unpack hst with hkeep | ⟨he, hnext⟩
  · rw [hkeep]
    exact ⟨.inl rfl, hle⟩
  · obtain ⟨hsucc, hroom⟩ := spos_succ_of_not_exhausted hle he
    rw [hnext, hsucc]
    exact ⟨.inr rfl, hroom⟩

end Sys2Proof.Machine

/-! ## The lookback: HIST mirrors the end of DST in every reached UNPACK state

`State.lookback` is kept by what keeps the output and by one `Append`; START empties the output. -/

namespace Sys2Proof.Machine

/-! ### Stores that list exactly the addresses below a bound -/

theorem cell?_isSome_iff (m : Mem) (a : Nat) : (Mem.cell? m a).isSome = true ↔ a ∈ m.map Prod.fst := by
  induction m with
  | nil => simp
  | cons c m ih =>
    by_cases h : a = c.1 <;> simp [Mem.cell?, h, ih]

theorem cell?_isSome_of_listsBelow {m : Mem} {n a : Nat} (h : m.listsBelow n) (ha : a < n) :
    (Mem.cell? m a).isSome = true := by
  rw [cell?_isSome_iff, h]
  exact List.mem_range.mpr ha

/-- A write above every listed address goes to the end of the list. -/
theorem put_eq_concat {m : Mem} {n : Nat} (v : Byte) (h : ∀ a ∈ m.map Prod.fst, a < n) :
    Mem.put m n v = m ++ [(n, v)] := by
  induction m with
  | nil => rfl
  | cons c m ih =>
    obtain ⟨hc, hm⟩ := List.forall_mem_cons.mp h
    rw [Mem.put, if_neg (Nat.not_lt_of_gt hc), if_neg (Nat.ne_of_gt hc), ih hm, List.cons_append]

theorem put_of_listsBelow {m : Mem} {n : Nat} (v : Byte) (h : m.listsBelow n) : Mem.put m n v = m ++ [(n, v)] :=
  put_eq_concat v fun a ha => List.mem_range.mp (by rwa [← h])

theorem listsBelow_put {m : Mem} {n : Nat} (v : Byte) (h : m.listsBelow n) : (Mem.put m n v).listsBelow (n + 1) := by
  rw [put_of_listsBelow v h, Mem.listsBelow, List.map_append, h, List.range_succ]
  rfl

/-! ### What keeps the lookback -/

theorem lookback_of_keepsOutput {s t : State} (h : s.lookback) (hkeep : KeepsOutput s t) : t.lookback := by
  obtain ⟨hdst, hhist, hlen⟩ := hkeep
  rwa [State.lookback, hdst, hhist, hlen]

/-- `Append` writes the byte to DST and HIST alike; the 255 cells before it are other cells of HIST. -/
theorem lookback_append {s : State} (v : Byte) (h : s.lookback) (hroom : s.outLen.toNat + 1 < 2 ^ 32) :
    (s.append v).lookback := by
  obtain ⟨hlists, hmirror⟩ := h
  have hsucc : (s.outLen + 1).toNat = s.outLen.toNat + 1 := by bv_omega
  rw [State.lookback, append_dst, append_hist, append_outLen, hsucc]
  refine ⟨listsBelow_put v hlists, fun i hi hlast => ?_⟩
  simp only at hlast hmirror ⊢
  rcases Nat.lt_succ_iff_lt_or_eq.mp hi with hold | rfl
  · rw [cell?_put_other _ v (by omega), cell?_put_other _ v (by omega)]
    exact hmirror i hold (by omega)
  · rw [cell?_put_self, cell?_put_self]

theorem lookback_of_appendsOutput {s t : State} (h : s.lookback) (hroom : s.outLen.toNat + 1 < 2 ^ 32)
    (happ : AppendsOutput s t) : t.lookback := by
  obtain ⟨-, v, hout⟩ := happ
  exact lookback_of_keepsOutput (lookback_append v h hroom) hout

theorem lookback_start (s : State) (op : Op) (st : St) (n : Word) : (s.start op st n).lookback :=
  ⟨rfl, fun _ hi => absurd hi (Nat.not_lt_zero _)⟩

/-! ### The lookback read of a Copy stays within the output -/

theorem mapRaw_range (m : FieldMap) (raw : Byte) : 1 ≤ mapRaw m 1 256 raw ∧ mapRaw m 1 256 raw ≤ 256 := by
  have hraw := raw.isLt
  cases m <;> simp only [mapRaw]
  · omega
  · split <;> omega

theorem mapD_range (c : Params) (raw : Byte) : 1 ≤ mapD c raw ∧ mapD c raw ≤ 256 := mapRaw_range c.distMap raw

/-- `DIST` lies within the lookback and the output (10_state.md R33). -/
def State.distanceHeld (s : State) : Prop := 1 ≤ s.dist.toNat ∧ s.dist.toNat ≤ min 256 s.outLen.toNat

/-- `D_LEN` enters `D_COPY` with the checked distance (41_decoder.md R145). -/
theorem lenStep_distanceHeld {y : Byte} {s : State} (hst : (lenStep y s).st = .dCopy) :
    (lenStep y s).distanceHeld := by
  obtain ⟨hlo, hhi⟩ := mapD_range s.cfg s.distb
  rcases lenStep_cases y s with ⟨-, h⟩ | ⟨-, t, rfl, ⟨-, h⟩ | ⟨-, -, -, h⟩ | ⟨hle, -, h⟩⟩ <;> rw [h] at hst ⊢
  · cases hst
  · cases hst
  · cases hst
  · simp only [State.distanceHeld, goto_dist, goto_outLen, advance_outLen, BitVec.toNat_ofNat]
    omega

theorem copyStep_distanceHeld {s : State} (h : s.distanceHeld) (hroom : s.outLen.toNat + 1 < 2 ^ 32) :
    (copyStep s).distanceHeld := by
  have hsucc : (s.outLen + 1).toNat = s.outLen.toNat + 1 := by bv_omega
  obtain ⟨hlo, hhi⟩ := h
  rw [State.distanceHeld, copyStep_eq]
  exact ⟨hlo, by simp only [hsucc]; omega⟩

/-! ### A rule of an UNPACK state keeps the lookback -/

/-- Output is owed in the two states that append, so `OUT_LEN` does not wrap (41_decoder.md R156). -/
theorem outLen_room_of_operandsHeld {s : State} (hst : s.st = .dTok ∨ s.st = .dCopy) (h : s.operandsHeld = true) :
    s.outLen.toNat + 1 < 2 ^ 32 := by
  have howed : s.outLen.toNat < s.unpackedSize.toNat := by
    rcases hst with hst | hst <;> simp only [State.operandsHeld, hst, Bool.and_eq_true, decide_eq_true_eq] at h
    · obtain ⟨⟨-, howed⟩, -⟩ := h
      exact howed
    · obtain ⟨-, howed⟩ := h
      exact howed
  have := s.unpackedSize.isLt
  omega

theorem ruleStep_output {s : State} (hst : s.st.ofUnpack = true) :
    KeepsOutput s s.ruleStep ∨ (s.st = .dTok ∨ s.st = .dCopy) ∧ AppendsOutput s s.ruleStep := by
  cases hs : s.st
  case uMagic | uSize | uPad =>
    rw [ruleStep_frame_of_header (by simp [hs])]
    exact .inl (keepsOutput_refl s)
  case dFlag =>
    rw [State.ruleStep, hs, flagStep_frame]
    exact .inl (keepsOutput_refl s)
  case dTok =>
    rw [State.ruleStep, hs]
    exact (tokStep_output _ s).imp_right fun happ => ⟨.inl rfl, happ⟩
  case dLen =>
    rw [State.ruleStep, hs]
    exact .inl (lenStep_keepsOutput _ s)
  case dCopy =>
    rw [State.ruleStep, hs]
    exact .inr ⟨.inr rfl, copyStep_appendsOutput s⟩
  all_goals simp [St.ofUnpack, hs] at hst

theorem ruleStep_lookback {s : State} (hst : s.st.ofUnpack = true) (hheld : s.operandsHeld = true) (h : s.lookback) :
    s.ruleStep.lookback := by
  rcases ruleStep_output hst with hkeep | ⟨happends, happ⟩
  · exact lookback_of_keepsOutput h hkeep
  · exact lookback_of_appendsOutput h (outLen_room_of_operandsHeld happends hheld) happ

/-- A rule leads into an UNPACK state from an UNPACK state alone: the runs are entered by START (10_state.md R22). -/
theorem ofUnpack_of_ruleStep {s : State} (h : s.ruleStep.st.ofUnpack = true) : s.st.ofUnpack = true := by
  cases hs : s.st <;> simp only [State.ruleStep, hs] at h
  case pHdr =>
    rw [hdrStep_eq] at h
    simp only [hs] at h
    split at h <;> cases h
  case pNext => rcases nextStep_cases s with ⟨-, -, hn⟩ | ⟨-, -, hn⟩ | ⟨-, hn⟩ <;> rw [hn] at h <;> cases h
  case pScan =>
    rcases scanStep_cases s with ⟨-, hn⟩ | ⟨-, -, -, hn⟩ | ⟨-, -, ⟨-, hn⟩ | ⟨-, hn⟩⟩ <;> rw [hn] at h <;>
      simp [St.ofUnpack, hs] at h
  case pEmit =>
    obtain ⟨x, hx, ⟨-, hn⟩ | ⟨-, hn⟩⟩ := emitStep_cases s <;> rw [hn] at h <;> simp only [hx] at h
    all_goals split at h <;> cases h
  case pFlush =>
    rcases flushStep_cases s with ⟨-, hn⟩ | ⟨-, hn⟩ <;> rw [hn] at h <;> simp [St.ofUnpack, hs] at h
  case idle | done | failed => exact h
  all_goals rfl

/-- `D_COPY` is entered from `D_LEN` alone. -/
theorem dLen_or_dCopy_of_ruleStep {s : State} (h : s.ruleStep.st = .dCopy) : s.st = .dLen ∨ s.st = .dCopy := by
  have hst : s.st.ofUnpack = true := ofUnpack_of_ruleStep (by rw [h]; rfl)
  cases hs : s.st <;> simp only [State.ruleStep, hs] at h
  case dLen => exact .inl rfl
  case dCopy => exact .inr rfl
  case uMagic =>
    rcases magicStep_cases (s.srcByte s.spos.toNat) s with ⟨-, hn⟩ | ⟨-, acc, -, ⟨-, hn⟩ | ⟨-, -, hn⟩ | ⟨-, -, hn⟩⟩ <;>
      simp [hn, hs] at h
  case uSize =>
    rcases sizeStep_cases (s.srcByte s.spos.toNat) s with ⟨-, hn⟩ | ⟨-, hn⟩ <;> rw [hn] at h
    · cases h
    · simp only [hs] at h
      split at h <;> cases h
  case uPad =>
    rcases padStep_cases s with ⟨-, hn⟩ | ⟨-, hn⟩ <;> rw [hn] at h
    · cases h
    · simp only [hs] at h
      split at h <;> cases h
  case dFlag =>
    rcases flagStep_cases (s.srcByte s.spos.toNat) s with ⟨-, hn⟩ | ⟨-, -, hn⟩ | ⟨-, -, hn⟩ <;> simp [hn] at h
  case dTok =>
    rcases tokStep_cases (s.srcByte s.spos.toNat) s with ⟨-, hn⟩ | ⟨-, -, hn⟩ | ⟨-, -, hn⟩ <;> rw [hn] at h
    · cases h
    · exact absurd h (afterToken_ne_dCopy _)
    · cases h
  all_goals simp [St.ofUnpack, hs] at hst

/-! ### Every reached state -/

/-- In an UNPACK state HIST mirrors the output, and a Copy in progress reaches back within it. -/
def State.mirrored (s : State) : Prop := s.st.ofUnpack = true → s.lookback ∧ (s.st = .dCopy → s.distanceHeld)

theorem mirrored_of_not_unpack {s : State} (h : s.st.ofUnpack = false) : s.mirrored :=
  fun hst => absurd (h.symm.trans hst) nofun

theorem mirrored_ruleStep {s : State} (hheld : s.operandsHeld = true) (h : s.mirrored) : s.ruleStep.mirrored := by
  intro hnext
  have hst := ofUnpack_of_ruleStep hnext
  obtain ⟨hlook, hdist⟩ := h hst
  refine ⟨ruleStep_lookback hst hheld hlook, fun hcopy => ?_⟩
  rcases dLen_or_dCopy_of_ruleStep hcopy with hs | hs <;> simp only [State.ruleStep, hs] at hcopy ⊢
  · exact lenStep_distanceHeld hcopy
  · exact copyStep_distanceHeld (hdist hs) (outLen_room_of_operandsHeld (.inr hs) hheld)

theorem mirrored_start_unpack (s : State) : (s.start .unpack .uMagic 0).mirrored :=
  fun _ => ⟨lookback_start s _ _ _, nofun⟩

theorem step_keeps_mirrored {s t : State} (h : s.mirrored) (hstep : step s = .next t) : t.mirrored := by
  rcases step_next hstep with ⟨-, hheld, rfl⟩ | ⟨e, later, -, r, rfl, hevent⟩
  · exact mirrored_ruleStep hheld h
  have hr : State.mirrored { s with host := later } := h
  rcases hevent with ⟨-, hheld, rfl⟩ | ⟨v, -, rfl | ⟨-, -, rfl⟩ | ⟨-, -, rfl⟩⟩ | ⟨-, -, -, ht⟩ | ⟨-, rfl⟩
  · exact mirrored_ruleStep hheld hr
  · exact hr
  · exact mirrored_start_unpack _
  · exact mirrored_of_not_unpack rfl
  · rw [ht]
    exact h
  · exact mirrored_of_not_unpack rfl

theorem mirrored_of_reachable {s : State} (h : Reachable s) : s.mirrored :=
  reachable_induction (fun _ _ => mirrored_of_not_unpack rfl) (fun _ _ => step_keeps_mirrored) h

/-- The HIST cell at a distance within the lookback and the output holds the byte of DST there, and both are
written. -/
theorem hist_at_distance {s : State} (h : s.lookback) {d : Nat} (hlo : 1 ≤ d) (hhi : d ≤ min 256 s.outLen.toNat) :
    ∃ b, Mem.cell? s.dst (s.outLen.toNat - d) = some b ∧ Mem.cell? s.hist ((s.outLen.toNat - d) % 256) = some b := by
  obtain ⟨hlists, hmirror⟩ := h
  obtain ⟨hhist, hout⟩ := Nat.le_min.mp hhi
  have hwritten := cell?_isSome_of_listsBelow hlists (a := s.outLen.toNat - d) (by omega)
  obtain ⟨b, hb⟩ := Option.isSome_iff_exists.mp hwritten
  exact ⟨b, hb, (hmirror _ (by omega) (by simp only; omega)).trans hb⟩

/-- Settles O41: the mirror holds of every reached state by induction over the run, and a written cell of DST makes the
cell of HIST a written one with its value. -/
theorem lookbackMirrorsTheOutput : Obligations.LookbackMirrorsTheOutput := by
  intro s hreach hst
  obtain ⟨hlook, hdist⟩ := mirrored_of_reachable hreach hst
  have ⟨_, hmirror⟩ := hlook
  refine ⟨hmirror, fun d hlo hhi => ?_, fun hcopy => ?_⟩
  · obtain ⟨b, hdst, hhist⟩ := hist_at_distance hlook hlo hhi
    rw [hdst, State.histByte, hhist, Option.getD_some]
  · obtain ⟨hlo, hhi⟩ := hdist hcopy
    obtain ⟨b, -, hhist⟩ := hist_at_distance hlook hlo hhi
    exact Option.isSome_of_eq_some hhist

end Sys2Proof.Machine

/-! ## The buffers: the host alone writes SRC, the block alone extends DST (20_memory.md R61, R63) -/

namespace Sys2Proof.Machine

/-! ### SRC and the configuration -/

/-- No step writes the configuration, and a step that is not a load by the host, answered only while the block is not
busy, keeps SRC (10_state.md R48; 20_memory.md R61, R80). -/
theorem step_keeps_cfg_and_src_unless_load {s t : State} (h : step s = .next t) :
    t.cfg = s.cfg ∧ (t.src = s.src ∨ s.busy = false ∧ ∃ bytes later, s.host = .load bytes :: later) := by
  have hrule : ∀ {r : State}, blockStep r = .next t → t.cfg = r.cfg ∧ t.src = r.src := by
    intro r hr
    obtain ⟨-, rfl⟩ := blockStep_next_iff.mp hr
    obtain ⟨hcfg, -, -, hsrc, -, -⟩ := ruleStep_fixed r
    exact ⟨hcfg, hsrc⟩
  rcases step_cases s with ⟨-, hstep⟩ | ⟨e, later, hhost, r, rfl, hevent⟩
  · exact (hrule (hstep.symm.trans h)).imp_right .inl
  rcases hevent with ⟨-, hstep⟩ | ⟨v, -, hstep⟩ | ⟨v, -, hstep⟩ | ⟨reg, v, -, hstep⟩ | ⟨bytes, rfl, hstep⟩ |
    ⟨-, hstep⟩ <;> rw [hstep] at h
  · exact (hrule h).imp_right .inl
  · rcases hostWriteCmd_next h with rfl | ⟨-, -, rfl⟩ | ⟨-, -, rfl⟩ <;> exact ⟨rfl, .inl rfl⟩
  · cases h
    rw [hostWriteSrcLen_frame]
    exact ⟨rfl, .inl rfl⟩
  · cases h
    exact ⟨rfl, .inl rfl⟩
  · rcases hostLoad_cases bytes { s with host := later } with ⟨hidle, hload⟩ | ⟨-, hload⟩ <;> rw [hload] at h <;> cases h
    exact ⟨rfl, .inr ⟨hidle, bytes, later, hhost⟩⟩
  · cases h
    exact ⟨rfl, .inl rfl⟩

/-- Settles O45: the rules keep the source, and only a load on a block that is not busy changes SRC. -/
theorem sourceIsWrittenByTheHostOnly : Obligations.SourceIsWrittenByTheHostOnly := by
  intro s t h
  obtain ⟨hcfg, hsrc⟩ := step_keeps_cfg_and_src_unless_load h
  refine ⟨hcfg, fun hhost => ?_, fun hload => ?_, fun hbusy => ?_⟩
  · obtain ⟨-, rfl⟩ := blockStep_next_iff.mp ((step_of_host_nil hhost).symm.trans h)
    obtain ⟨-, -, hlen, hkeep, -, -⟩ := ruleStep_fixed s
    exact ⟨hkeep, hlen⟩
  · rcases hsrc with hkeep | ⟨-, bytes, later, hhost⟩
    · exact hkeep
    · exact absurd hhost (hload bytes later)
  · rcases hsrc with hkeep | ⟨hidle, -⟩
    · exact hkeep
    · exact absurd (hidle.symm.trans hbusy) nofun

/-! ### What the two runs do to DST -/

/-- A busy block is in a state of an UNPACK run or of a PACK run (10_state.md R21, R35). -/
theorem ofUnpack_or_ofPack_of_busy {s : State} (h : s.busy = true) : s.st.ofUnpack = true ∨ s.st.ofPack = true := by
  rw [State.busy] at h
  cases hs : s.st
  case idle | done | failed => simp [hs] at h
  case pHdr | pNext | pScan | pEmit | pFlush => exact .inr rfl
  all_goals exact .inl rfl

/-- UNPACK does not use `DPOS` (10_state.md R44). -/
theorem ruleStep_dpos_of_unpack {s : State} (hst : s.st.ofUnpack = true) : s.ruleStep.dpos = s.dpos := by
  cases hs : s.st
  case uMagic | uSize | uPad => rw [ruleStep_frame_of_header (by simp [hs])]
  case dFlag | dTok | dLen | dCopy => rw [ruleStep_frame_of_decoder (by simp [hs])]
  all_goals simp [St.ofUnpack, hs] at hst

/-- PACK does not use `OUT_LEN` (10_state.md R25). -/
theorem ruleStep_outLen_of_pack {s : State} (hst : s.st.ofPack = true) : s.ruleStep.outLen = s.outLen := by
  cases hs : s.st
  case pHdr => rw [ruleStep_frame_of_pHdr hs]
  case pNext | pScan | pEmit | pFlush => rw [ruleStep_frame_of_encoder (by simp [hs])]
  all_goals simp [St.ofPack, hs] at hst

/-- A rule of a PACK state leaves DST and `DPOS` alone, or emits one byte: `P_HDR` of the header, `P_FLUSH` of a group
(40_header_codec.md R126; 42_encoder.md R190). -/
theorem ruleStep_emits_of_pack {s : State} (hst : s.st.ofPack = true) :
    (s.ruleStep.dst = s.dst ∧ s.ruleStep.dpos = s.dpos) ∨
    (s.st = .pHdr ∨ s.st = .pFlush) ∧
      ∃ v, s.ruleStep.dst = (s.emit v).dst ∧ s.ruleStep.dpos = (s.emit v).dpos := by
  cases hs : s.st
  case pHdr =>
    rw [State.ruleStep, hs, hdrStep_eq]
    exact .inr ⟨.inl rfl, _, rfl, rfl⟩
  case pNext =>
    rw [State.ruleStep, hs, nextStep_frame]
    exact .inl ⟨rfl, rfl⟩
  case pScan =>
    rw [State.ruleStep, hs, scanStep_frame]
    exact .inl ⟨rfl, rfl⟩
  case pEmit =>
    rw [State.ruleStep, hs, emitStep_frame]
    exact .inl ⟨rfl, rfl⟩
  case pFlush =>
    rw [State.ruleStep, hs]
    refine .inr ⟨.inr rfl, flushedByte s, ?_⟩
    rcases flushStep_cases s with ⟨-, h⟩ | ⟨-, h⟩ <;> rw [h] <;> exact ⟨rfl, rfl⟩
  all_goals simp [St.ofPack, hs] at hst

/-! ### The positions are the ends of DST, and do not wrap -/

theorem dpos_room_of_operandsHeld {s : State} (hst : s.st = .pHdr ∨ s.st = .pFlush) (h : s.operandsHeld = true) :
    s.dpos.toNat < 2 ^ 33 := by
  rcases hst with hst | hst <;> simp only [State.operandsHeld, hst, Bool.and_eq_true, decide_eq_true_eq] at h <;>
    obtain ⟨-, hroom⟩ := h <;> exact hroom

theorem State.Inv.dst_listsBelow_outLen {s : State} (h : s.Inv) (hst : s.st.ofUnpack = true) :
    s.dst.listsBelow s.outLen.toNat := by
  obtain ⟨-, -, hphase⟩ := h
  cases hs : s.st <;> simp only [State.phaseHeld, hs] at hphase
  case uMagic | uSize | uPad =>
    obtain ⟨⟨-, -, hout, -, hdst⟩, -⟩ := hphase
    rw [hdst, hout]
    rfl
  case dFlag | dTok | dLen | dCopy =>
    obtain ⟨⟨-, -, -, hlists, -⟩, -⟩ := hphase
    exact hlists
  all_goals simp [St.ofUnpack, hs] at hst

theorem State.Inv.dst_listsBelow_dpos {s : State} (h : s.Inv) (hst : s.st.ofPack = true) :
    s.dst.listsBelow s.dpos.toNat := by
  obtain ⟨-, -, hphase⟩ := h
  cases hs : s.st <;> simp only [State.phaseHeld, hs] at hphase
  case pHdr | pNext | pScan | pEmit | pFlush =>
    obtain ⟨⟨-, -, -, -, -, -, hlists⟩, -⟩ := hphase
    exact hlists
  all_goals simp [St.ofPack, hs] at hst

/-- The output of an UNPACK step (20_memory.md R63, R64): `Append` at the end of DST, or nothing. -/
theorem ruleStep_extends_dst_of_unpack {s : State} (hinv : s.Inv) (hst : s.st.ofUnpack = true) :
    (s.ruleStep.dst = s.dst ∧ s.ruleStep.outLen = s.outLen) ∨
    ∃ v, s.ruleStep.dst = s.dst ++ [(s.outLen.toNat, v)] ∧ s.ruleStep.outLen.toNat = s.outLen.toNat + 1 := by
  rcases ruleStep_output hst with ⟨hdst, -, hlen⟩ | ⟨happends, -, v, hdst, -, hlen⟩
  · exact .inl ⟨hdst, hlen⟩
  · have hroom := outLen_room_of_operandsHeld happends hinv.operandsHeld
    rw [append_dst, put_of_listsBelow v (hinv.dst_listsBelow_outLen hst)] at hdst
    rw [append_outLen] at hlen
    exact .inr ⟨v, hdst, by rw [hlen]; bv_omega⟩

/-- The output of a PACK step (20_memory.md R63, R64): one byte emitted at the end of DST, or nothing. -/
theorem ruleStep_extends_dst_of_pack {s : State} (hinv : s.Inv) (hst : s.st.ofPack = true) :
    (s.ruleStep.dst = s.dst ∧ s.ruleStep.dpos = s.dpos) ∨
    ∃ v, s.ruleStep.dst = s.dst ++ [(s.dpos.toNat, v)] ∧ s.ruleStep.dpos.toNat = s.dpos.toNat + 1 := by
  rcases ruleStep_emits_of_pack hst with hkeep | ⟨hemits, v, hdst, hpos⟩
  · exact .inl hkeep
  · have hroom := dpos_room_of_operandsHeld hemits hinv.operandsHeld
    rw [emit_dst, put_of_listsBelow v (hinv.dst_listsBelow_dpos hst)] at hdst
    rw [emit_dpos] at hpos
    exact .inr ⟨v, hdst, by rw [hpos]; bv_omega⟩

/-- Settles O46: the invariant has DST list exactly the addresses below the position, so the one byte a rule may write
goes to its end; the position of the other operation is in the frame. -/
theorem outputOnlyGrowsByOneByte : Obligations.OutputOnlyGrowsByOneByte := by
  intro s t hinv hbusy hhost h
  obtain ⟨-, rfl⟩ := blockStep_next_iff.mp ((step_of_host_nil hhost).symm.trans h)
  rcases ofUnpack_or_ofPack_of_busy hbusy with hst | hst
  · have hpos := ruleStep_dpos_of_unpack hst
    rcases ruleStep_extends_dst_of_unpack hinv hst with ⟨hdst, hlen⟩ | ⟨v, hdst, hlen⟩
    · exact .inl ⟨hdst, hlen, hpos⟩
    · exact .inr (.inl ⟨v, hst, hdst, hlen, hpos⟩)
  · have hlen := ruleStep_outLen_of_pack hst
    rcases ruleStep_extends_dst_of_pack hinv hst with ⟨hdst, hpos⟩ | ⟨v, hdst, hpos⟩
    · exact .inl ⟨hdst, hlen, hpos⟩
    · exact .inr (.inr ⟨v, hst, hdst, hpos, hlen⟩)

end Sys2Proof.Machine

/-! ## Encodings: the decoder and the encoder are inverse, and the fields of a header (30_encoding.md R90 to R100) -/

namespace Sys2Proof.Machine

/-! ### The little-endian words of a header -/

/-- The word assembled from the four bytes of a word is that word (20_memory.md R66). -/
theorem leWord_wordBytes (w : Word) : leWord (wordByte w 0) (wordByte w 1) (wordByte w 2) (wordByte w 3) = w := by
  have hw := w.isLt
  apply BitVec.eq_of_toNat_eq
  rw [leWord_toNat]
  simp only [wordByte_toNat]
  omega

/-- The four bytes of the magic are `01 00 00 80`, in that order (30_encoding.md R100). -/
theorem leWord_eq_magic_iff (b0 b1 b2 b3 : Byte) :
    leWord b0 b1 b2 b3 = Config.doc.magic ↔ b0 = 0x01 ∧ b1 = 0x00 ∧ b2 = 0x00 ∧ b3 = 0x80 := by
  constructor
  · intro h
    have hbytes := leBytes_leWord b0 b1 b2 b3
    rw [h, show leBytes Config.doc.magic = [0x01, 0x00, 0x00, 0x80] by decide] at hbytes
    simp only [List.cons.injEq] at hbytes
    obtain ⟨rfl, rfl, rfl, rfl, -⟩ := hbytes
    exact ⟨rfl, rfl, rfl, rfl⟩
  · rintro ⟨rfl, rfl, rfl, rfl⟩
    decide

/-- Bytes 4 to 7 of a header record are those of its size (30_encoding.md R99). -/
theorem sizeByte_of_record (n : Word) (tail : List Byte) {k : Nat} (hlo : 4 ≤ k) (hhi : k < 8) :
    (leBytes Config.doc.magic ++ leBytes n ++ tail).getD k 0 = wordByte n (k - 4) := by
  obtain rfl | rfl | rfl | rfl : k = 4 ∨ k = 5 ∨ k = 6 ∨ k = 7 := by omega
  all_goals rfl

/-! ### The header slot -/

/-- Enough bytes that begin with the magic decode as a header. -/
theorem decodeHeaderItem_of_magic {bytes : List Byte} (hlen : 128 ≤ bytes.length)
    (hmagic : leWordAt bytes 0 = Config.doc.magic) :
    decodeHeaderItem bytes = .ok (.header (leWordAt bytes 4) ((bytes.drop 8).take 120), bytes.drop 128) := by
  rw [decodeHeaderItem, if_neg (by simp only; omega), if_neg (not_not.mpr hmagic), if_neg (Nat.not_lt.mpr hlen)]
  rfl

/-- Four bytes that are not the magic are rejected as such, whatever follows (30_encoding.md R103 (a)). -/
theorem decodeHeaderItem_of_badMagic {bytes : List Byte} (hlen : 4 ≤ bytes.length)
    (hmagic : leWordAt bytes 0 ≠ Config.doc.magic) : decodeHeaderItem bytes = .error .badMagic := by
  rw [decodeHeaderItem, if_neg (Nat.not_lt.mpr hlen), if_pos hmagic]

/-- The record written for a size and 120 padding bytes reads back as them. -/
theorem decodeHeaderItem_record (n : Word) {pad : List Byte} (rest : List Byte) (hpad : pad.length = 120) :
    decodeHeaderItem (leBytes Config.doc.magic ++ leBytes n ++ pad ++ rest) = .ok (.header n pad, rest) := by
  have hfront : (leBytes Config.doc.magic ++ leBytes n).length = 8 := rfl
  have hmagic : leWordAt (leBytes Config.doc.magic ++ leBytes n ++ pad ++ rest) 0 = Config.doc.magic :=
    leWord_wordBytes Config.doc.magic
  have hsize : leWordAt (leBytes Config.doc.magic ++ leBytes n ++ pad ++ rest) 4 = n := leWord_wordBytes n
  have hrecord : (leBytes Config.doc.magic ++ leBytes n ++ pad).length = 128 := by
    rw [List.length_append, hfront, hpad]
  rw [decodeHeaderItem_of_magic (by rw [List.length_append, hrecord]; omega) hmagic, hsize, List.drop_left' hrecord,
    List.append_assoc _ pad rest, List.drop_left' hfront, List.take_left' hpad]

/-- Settles O1: the header by its record; every other item is its bytes. -/
theorem decodeOfEncodeIsTheInstruction : Obligations.DecodeOfEncodeIsTheInstruction := by
  intro i rest hwf
  cases i with
  | header n pad => exact decodeHeaderItem_record n rest (by simpa [Instr.wf] using hwf)
  | flag f => rfl
  | literal b => rfl
  | copy x y => rfl
  | unpack => rfl
  | pack => rfl

/-- Settles O3: the words are the encodings of well-formed instructions. -/
theorem specWordsDecode : Obligations.SpecWordsDecode :=
  ⟨decodeOfEncodeIsTheInstruction (.header 300 (List.replicate 120 0x00)) [] (by decide),
    decodeOfEncodeIsTheInstruction (.flag 0x04) [] rfl, decodeOfEncodeIsTheInstruction (.literal 0x7E) [] rfl,
    decodeOfEncodeIsTheInstruction (.copy 0xFF 0x03) [] rfl, decodeOfEncodeIsTheInstruction .unpack [] rfl,
    decodeOfEncodeIsTheInstruction .pack [] rfl⟩

theorem decode_command_ok {bytes rest : List Byte} {i : Instr} (h : decode .command bytes = .ok (i, rest)) :
    (i = .unpack ∧ bytes = 1 :: rest) ∨ (i = .pack ∧ bytes = 2 :: rest) := by
  cases bytes with
  | nil => cases h
  | cons c more =>
    simp only [decode] at h
    split_ifs at h with hunpack hpack
    · cases h
      obtain rfl : c = 1 := BitVec.eq_of_toNat_eq hunpack
      exact .inl ⟨rfl, rfl⟩
    · cases h
      obtain rfl : c = 2 := BitVec.eq_of_toNat_eq hpack
      exact .inr ⟨rfl, rfl⟩

/-- Settles O2: slot by slot, what a successful decode says of the bytes. -/
theorem encodeOfDecodeIsTheBytes : Obligations.EncodeOfDecodeIsTheBytes := by
  intro slot bytes rest i h
  match slot with
  | .header =>
    obtain ⟨n, pad, rfl, hpad, hbytes⟩ := decodeHeaderItem_bytes h
    exact ⟨by simp [Instr.wf, hpad], rfl, hbytes⟩
  | .flag =>
    obtain ⟨f, rfl, rfl⟩ := decode_flag_ok h
    exact ⟨rfl, rfl, rfl⟩
  | .token false =>
    obtain ⟨b, rfl, rfl⟩ := decode_raw_ok h
    exact ⟨rfl, rfl, rfl⟩
  | .token true =>
    obtain ⟨x, y, rfl, rfl⟩ := decode_lz_ok h
    exact ⟨rfl, rfl, rfl⟩
  | .command => obtain ⟨rfl, rfl⟩ | ⟨rfl, rfl⟩ := decode_command_ok h <;> exact ⟨rfl, rfl, rfl⟩

/-- Settles O4: the magic's four bytes are the only ones that assemble to it, and the decoder compares the assembled
word alone. -/
theorem headerIsValidExactlyWithTheMagic : Obligations.HeaderIsValidExactlyWithTheMagic := by
  refine ⟨leWord_toNat, leWord_eq_magic_iff, fun b0 b1 b2 b3 rest hlen => ⟨?_, fun hmagic => ?_⟩, fun rest => ?_⟩
  · rintro ⟨i, tail, h⟩
    by_contra hmagic
    have hbad : decode .header (b0 :: b1 :: b2 :: b3 :: rest) = .error .badMagic :=
      decodeHeaderItem_of_badMagic (by simp) hmagic
    exact nomatch hbad.symm.trans h
  · exact ⟨_, _, decodeHeaderItem_of_magic (by simp only [List.length_cons]; omega) hmagic⟩
  · exact decodeHeaderItem_of_badMagic (by simp) (show leWord 0x80 0x00 0x00 0x01 ≠ Config.doc.magic by decide)

/-- Settles O5: the record of the assembled word has the four bytes it was assembled from, and byte `k` of a record is
byte `k - 4` of its size. -/
theorem sizeFieldIsLittleEndian : Obligations.SizeFieldIsLittleEndian := by
  refine ⟨fun b4 b5 b6 b7 pad hpad => ⟨leWord b4 b5 b6 b7, ?_, leWord_toNat b4 b5 b6 b7⟩, fun n k hlo hhi => ⟨?_, ?_⟩⟩
  · have h := decodeHeaderItem_record (leWord b4 b5 b6 b7) [] hpad
    rw [leBytes_leWord, List.append_nil] at h
    exact h
  · rw [encodeHeader, sizeByte_of_record n _ hlo hhi, wordByte_toNat]
  · intro pad
    rw [itemByte, encode, sizeByte_of_record n _ hlo hhi, wordByte_toNat]

end Sys2Proof.Machine

/-! ## Operand forms: the field maps and the queue of selectors (30_encoding.md R97, R98, R101) -/

namespace Sys2Proof.Machine

/-! ### Raw and logical values -/

/-- `map` by its formula (30_encoding.md R97, R98). -/
theorem mapRaw_eq (m : FieldMap) (raw : Byte) :
    (m = .bias1 → mapRaw m 1 256 raw = raw.toNat + 1) ∧
      (m = .zeroIs256 → mapRaw m 1 256 raw = if raw.toNat = 0 then 256 else raw.toNat) := by
  constructor <;> rintro rfl <;> rfl

/-- `unmap` by its formula, which fits in a byte over the whole range (30_encoding.md R97, R98). -/
theorem toNat_unmapLogical (m : FieldMap) {v : Nat} (hhi : v ≤ 256) :
    (m = .bias1 → (unmapLogical m 1 256 v).toNat = v - 1) ∧
      (m = .zeroIs256 → (unmapLogical m 1 256 v).toNat = v % 256) := by
  constructor <;> rintro rfl <;> simp only [unmapLogical, BitVec.toNat_ofNat] <;> omega

theorem unmapLogical_mapRaw (m : FieldMap) (raw : Byte) : unmapLogical m 1 256 (mapRaw m 1 256 raw) = raw := by
  obtain ⟨-, hhi⟩ := mapRaw_range m raw
  obtain ⟨hbias, hzero⟩ := toNat_unmapLogical m hhi
  have hraw := raw.isLt
  apply BitVec.eq_of_toNat_eq
  cases m with
  | bias1 => rw [hbias rfl, mapRaw, Nat.add_sub_cancel]
  | zeroIs256 =>
    rw [hzero rfl, mapRaw]
    split <;> omega

theorem mapRaw_unmapLogical (m : FieldMap) {v : Nat} (hlo : 1 ≤ v) (hhi : v ≤ 256) :
    mapRaw m 1 256 (unmapLogical m 1 256 v) = v := by
  obtain ⟨hbias, hzero⟩ := toNat_unmapLogical m hhi
  cases m with
  | bias1 => rw [mapRaw, hbias rfl, Nat.sub_add_cancel hlo]
  | zeroIs256 =>
    rw [mapRaw, hzero rfl]
    split <;> omega

/-- Settles O6: both fields use one pair of maps, which are inverse to each other. -/
theorem fieldMapsAreBijections : Obligations.FieldMapsAreBijections := by
  refine ⟨fun c raw => ?_, fun c v _ hhi => ?_, fun c raw => ?_, fun c v hlo hhi => ?_⟩
  · obtain ⟨hdbias, hdzero⟩ := mapRaw_eq c.distMap raw
    obtain ⟨hlbias, hlzero⟩ := mapRaw_eq c.lenMap raw
    exact ⟨hdbias, hdzero, hlbias, hlzero⟩
  · obtain ⟨hdbias, hdzero⟩ := toNat_unmapLogical c.distMap hhi
    obtain ⟨hlbias, hlzero⟩ := toNat_unmapLogical c.lenMap hhi
    exact ⟨hdbias, hdzero, hlbias, hlzero⟩
  · obtain ⟨hdlo, hdhi⟩ := mapRaw_range c.distMap raw
    obtain ⟨hllo, hlhi⟩ := mapRaw_range c.lenMap raw
    exact ⟨hdlo, hdhi, unmapLogical_mapRaw c.distMap raw, hllo, hlhi, unmapLogical_mapRaw c.lenMap raw⟩
  · exact ⟨mapRaw_unmapLogical c.distMap hlo hhi, mapRaw_unmapLogical c.lenMap hlo hhi⟩

/-! ### The queue of selectors -/

/-- A pop brings the next selector's bit to each place of the queue (10_state.md R30). -/
theorem getLsbD_shiftFlags (o : FlagOrder) (f : Byte) {k : Nat} (hk : k + 1 < 8) :
    (shiftFlags o f).getLsbD (flagpos o k) = f.getLsbD (flagpos o (k + 1)) := by
  cases o with
  | lsbFirst => simp [shiftFlags, flagpos, Nat.add_comm]
  | msbFirst =>
    have hbefore : ¬ 8 - 1 - k < 1 := by omega
    have hbelow : 8 - 1 - k < 8 := by omega
    simp only [shiftFlags, flagpos, BitVec.getLsbD_shiftLeft, hbefore, hbelow, decide_true, decide_false,
      Bool.not_false, Bool.true_and, Nat.sub_add_eq]


/-- After `k` pops the queue's places hold the selectors from the `k`-th on (41_decoder.md R142). -/
theorem flags_popFlag_iterate (s : State) {j k : Nat} (hk : j + k < 8) :
    (State.popFlag^[k] s).flags.getLsbD (flagpos s.cfg.flagOrder j) =
      s.flags.getLsbD (flagpos s.cfg.flagOrder (j + k)) := by
  induction k generalizing s with
  | zero => rfl
  | succ k ih =>
    rw [Function.iterate_succ_apply]
    exact (ih s.popFlag (by omega)).trans (getLsbD_shiftFlags _ _ hk)

theorem cfg_popFlag_iterate (s : State) (k : Nat) : (State.popFlag^[k] s).cfg = s.cfg := by
  induction k generalizing s with
  | zero => rfl
  | succ k ih => exact ih s.popFlag

theorem fcnt_popFlag_iterate (s : State) {k : Nat} (hk : k ≤ s.fcnt.toNat) :
    (State.popFlag^[k] s).fcnt.toNat = s.fcnt.toNat - k := by
  induction k generalizing s with
  | zero => rfl
  | succ k ih =>
    have hpop : s.popFlag.fcnt.toNat = s.fcnt.toNat - 1 := by rw [popFlag_fcnt]; bv_omega
    rw [Function.iterate_succ_apply, ih s.popFlag (by omega), hpop]
    omega

/-- Settles O7: the selector at the consumption end is the queue's place 0, and `load` puts 8 bits in it. -/
theorem popsFollowFlagpos : Obligations.PopsFollowFlagpos := by
  refine ⟨fun k => ⟨rfl, rfl⟩, fun s b k hk => ⟨?_, fcnt_popFlag_iterate (s.loadFlags b) (Nat.le_of_lt hk)⟩⟩
  have hflags := flags_popFlag_iterate (s.loadFlags b) (j := 0) (k := k) (by omega)
  rw [Nat.zero_add] at hflags
  rw [State.selector, headSelector, cfg_popFlag_iterate]
  exact hflags

end Sys2Proof.Machine

/-! ## Ignored input: padding, trailing bytes and the bytes of SRC at or above `SRC_LEN` -/

namespace Sys2Proof.Machine

/-! ### The function level: the padding and the bytes after the last item (30_encoding.md R104) -/

theorem leWordAt_append {bytes : List Byte} {offset : Nat} (more : List Byte) (h : offset + 4 ≤ bytes.length) :
    leWordAt (bytes ++ more) offset = leWordAt bytes offset := by
  have hget : ∀ k < 4, (bytes ++ more).getD (offset + k) 0 = bytes.getD (offset + k) 0 := fun k hk =>
    List.getD_append _ _ _ _ (by omega)
  rw [leWordAt, leWordAt, hget 1 (by omega), hget 2 (by omega), hget 3 (by omega), ← Nat.add_zero offset,
    hget 0 (by omega)]

/-- A header decodes from its first eight bytes and the number of those after them (40_header_codec.md R124). -/
theorem decodeHeader_append {front more more' : List Byte} (hfront : 8 ≤ front.length)
    (hlen : more.length = more'.length) : decodeHeader (front ++ more) = decodeHeader (front ++ more') := by
  rw [decodeHeader, decodeHeader, List.length_append, List.length_append, hlen]
  simp only [leWordAt_append _ (show 0 + 4 ≤ front.length by omega),
    leWordAt_append _ (show 4 + 4 ≤ front.length by omega)]

theorem decodeHeader_ok_iff {bytes : List Byte} {n : Word} :
    decodeHeader bytes = .ok n ↔ 128 ≤ bytes.length ∧ leWordAt bytes 0 = Config.doc.magic ∧ leWordAt bytes 4 = n := by
  rw [decodeHeader]
  split_ifs with hshort hmagic hlen
  · exact iff_of_false nofun (by simp only at hshort; omega)
  · exact iff_of_false nofun fun ⟨_, h, _⟩ => hmagic h
  · exact iff_of_false nofun (by simp only at hlen; omega)
  · simp only [Except.ok.injEq]
    exact ⟨fun h => ⟨Nat.le_of_not_lt hlen, not_not.mp hmagic, h⟩, fun ⟨_, _, h⟩ => h⟩

theorem decodeHeader_append_of_ok {bytes : List Byte} {n : Word} (more : List Byte) (h : decodeHeader bytes = .ok n) :
    decodeHeader (bytes ++ more) = .ok n := by
  obtain ⟨hlen, hmagic, hsize⟩ := decodeHeader_ok_iff.mp h
  rw [decodeHeader_ok_iff, List.length_append, leWordAt_append _ (by omega), leWordAt_append _ (by omega)]
  exact ⟨by omega, hmagic, hsize⟩

/-- Once the output is complete nothing more is read (41_decoder.md R155). -/
theorem decodeFrom_of_complete (c : Params) {size : Nat} (sels : List Bool) (body : List Byte) {out : List Byte}
    (h : out.length = size) : decodeFrom c size sels body out = .ok out := by
  match body, sels with
  | [], _ => rw [decodeFrom, if_pos h]
  | _ :: _, [] => rw [decodeFrom, if_pos h]
  | [_], _ :: _ => rw [decodeFrom, if_pos h]
  | _ :: _ :: _, _ :: _ => rw [decodeFrom, if_pos h]

/-- A Literal, whether or not a byte follows it (41_decoder.md R155). -/
theorem decodeFrom_literal (c : Params) {size : Nat} (sels : List Bool) (x : Byte) (body : List Byte) {out : List Byte}
    (h : out.length ≠ size) :
    decodeFrom c size (Config.doc.flagRaw :: sels) (x :: body) out = decodeFrom c size sels body (out ++ [x]) := by
  cases body with
  | nil => rw [decodeFrom.eq_3, if_neg h, if_pos rfl]
  | cons y rest => rw [decodeFrom.eq_4, if_neg h, if_pos rfl]

/-- A body that decodes does so with any bytes after it: one that ends within an item fails instead. -/
theorem decodeFrom_append (c : Params) (size : Nat) (sels : List Bool) (body more out : List Byte) {result : List Byte}
    (h : decodeFrom c size sels body out = .ok result) : decodeFrom c size sels (body ++ more) out = .ok result := by
  fun_induction decodeFrom c size sels body out with
  | case1 sels out hdone => rw [decodeFrom_of_complete c _ _ hdone, h]
  | case2 => cases h
  | case3 f body out hdone => rw [decodeFrom_of_complete c _ _ hdone, h]
  | case4 f body out howed ih => rw [List.cons_append, decodeFrom, if_neg howed, ih h]
  | case5 sel sels x body out hdone => rw [decodeFrom_of_complete c _ _ hdone, h]
  | case6 sels x body out howed ih => rw [List.cons_append, decodeFrom_literal c _ _ _ howed, ih h]
  | case7 => cases h
  | case8 => cases h
  | case9 => cases h
  | case10 sel sels x out howed hlz y rest hoffset hfits ih =>
    rw [List.cons_append, List.cons_append, decodeFrom, if_neg howed, if_neg hlz]
    simp only [if_neg hoffset, if_neg hfits]
    exact ih h

/-- `unpack` reads the header's first eight bytes and what follows its padding (30_encoding.md R104 (a)). -/
theorem unpackBytes_padding (c : Params) {front pad pad' : List Byte} (rest : List Byte) (hfront : front.length = 8)
    (hpad : pad.length = 120) (hpad' : pad'.length = 120) :
    unpackBytes c (front ++ pad ++ rest) = unpackBytes c (front ++ pad' ++ rest) := by
  have hheader : decodeHeader (front ++ pad ++ rest) = decodeHeader (front ++ pad' ++ rest) := by
    rw [List.append_assoc, List.append_assoc]
    exact decodeHeader_append (Nat.le_of_eq hfront.symm) (by rw [List.length_append, List.length_append, hpad, hpad'])
  have hbody : ∀ p : List Byte, p.length = 120 → (front ++ p ++ rest).drop Config.doc.bodyOffset = rest := fun p hp =>
    List.drop_left' (by rw [List.length_append, hfront, hp])
  rw [unpackBytes, unpackBytes, hheader, hbody pad hpad, hbody pad' hpad']

theorem unpackBytes_ok_iff {c : Params} {src out : List Byte} :
    unpackBytes c src = .ok out ↔
      ∃ n, decodeHeader src = .ok n ∧ decodeBody c (src.drop Config.doc.bodyOffset) n.toNat = .ok out := by
  rw [unpackBytes]
  split <;> simp_all

theorem unpackBytes_append {c : Params} {src out : List Byte} (more : List Byte) (h : unpackBytes c src = .ok out) :
    unpackBytes c (src ++ more) = .ok out := by
  obtain ⟨n, hheader, hbody⟩ := unpackBytes_ok_iff.mp h
  obtain ⟨hlen, -, -⟩ := decodeHeader_ok_iff.mp hheader
  refine unpackBytes_ok_iff.mpr ⟨n, decodeHeader_append_of_ok more hheader, ?_⟩
  rw [List.drop_append_of_le_length hlen]
  exact decodeFrom_append c _ _ _ more _ hbody

/-! ### The step level: the bytes of SRC at or above `SRC_LEN` (20_memory.md R62) -/

/-- The state with other contents of SRC. -/
def State.withSrc (s : State) (src : Mem) : State := { s with src := src }

@[simp] theorem srcExhausted_withSrc (s : State) (m : Mem) : (s.withSrc m).srcExhausted = s.srcExhausted := rfl

@[simp] theorem operandsHeld_withSrc (s : State) (m : Mem) : (s.withSrc m).operandsHeld = s.operandsHeld := rfl

theorem srcByte_withSrc {s : State} {m : Mem} {a : Nat} (h : Mem.cell? m a = Mem.cell? s.src a) :
    (s.withSrc m).srcByte a = s.srcByte a := by
  rw [State.srcByte, State.srcByte, ← h]
  rfl

/-! Each rule commutes with a change of SRC, given the bytes it takes. -/

theorem magicStep_withSrc {b b' : Byte} {s : State} (m : Mem) (h : s.srcExhausted = false → b' = b) :
    magicStep b' (s.withSrc m) = (magicStep b s).withSrc m := by
  simp only [magicStep, apply_ite (State.withSrc · m)]
  exact ite_congr rfl (fun _ => rfl) fun he => by rw [h (Bool.eq_false_of_not_eq_true he)]; rfl

theorem sizeStep_withSrc {b b' : Byte} {s : State} (m : Mem) (h : s.srcExhausted = false → b' = b) :
    sizeStep b' (s.withSrc m) = (sizeStep b s).withSrc m := by
  simp only [sizeStep, apply_ite (State.withSrc · m)]
  exact ite_congr rfl (fun _ => rfl) fun he => by rw [h (Bool.eq_false_of_not_eq_true he)]; rfl

theorem padStep_withSrc (s : State) (m : Mem) : padStep (s.withSrc m) = (padStep s).withSrc m := by
  simp only [padStep, apply_ite (State.withSrc · m)]
  rfl

theorem flagStep_withSrc {b b' : Byte} {s : State} (m : Mem) (h : s.srcExhausted = false → b' = b) :
    flagStep b' (s.withSrc m) = (flagStep b s).withSrc m := by
  simp only [flagStep, apply_ite (State.withSrc · m)]
  exact ite_congr rfl (fun _ => rfl) fun _ => ite_congr rfl (fun _ => rfl) fun he => by
    rw [h (Bool.eq_false_of_not_eq_true he)]; rfl

theorem tokStep_withSrc {b b' : Byte} {s : State} (m : Mem) (h : s.srcExhausted = false → b' = b) :
    tokStep b' (s.withSrc m) = (tokStep b s).withSrc m := by
  simp only [tokStep, apply_ite (State.withSrc · m)]
  exact ite_congr rfl (fun _ => rfl) fun he => by rw [h (Bool.eq_false_of_not_eq_true he)]; rfl

theorem lenStep_withSrc {b b' : Byte} {s : State} (m : Mem) (h : s.srcExhausted = false → b' = b) :
    lenStep b' (s.withSrc m) = (lenStep b s).withSrc m := by
  simp only [lenStep, apply_ite (State.withSrc · m)]
  exact ite_congr rfl (fun _ => rfl) fun he => by rw [h (Bool.eq_false_of_not_eq_true he)]; rfl

theorem hdrStep_withSrc (s : State) (m : Mem) : hdrStep (s.withSrc m) = (hdrStep s).withSrc m := by
  simp only [hdrStep, apply_ite (State.withSrc · m)]
  rfl

theorem nextStep_withSrc (s : State) (m : Mem) : nextStep (s.withSrc m) = (nextStep s).withSrc m := by
  simp only [nextStep, apply_ite (State.withSrc · m)]
  rfl

theorem flushStep_withSrc (s : State) (m : Mem) : flushStep (s.withSrc m) = (flushStep s).withSrc m := by
  simp only [flushStep, apply_ite (State.withSrc · m)]
  rfl

theorem copyStep_withSrc (s : State) (m : Mem) : copyStep (s.withSrc m) = (copyStep s).withSrc m := rfl

theorem scanStep_withSrc {s : State} {m : Mem}
    (h : s.cl.toNat < maxLenAt s →
      ((s.withSrc m).srcByte (s.p.toNat + s.cl.toNat) = (s.withSrc m).srcByte (s.p.toNat + s.cl.toNat - s.cd.toNat) ↔
        s.srcByte (s.p.toNat + s.cl.toNat) = s.srcByte (s.p.toNat + s.cl.toNat - s.cd.toNat))) :
    scanStep (s.withSrc m) = (scanStep s).withSrc m := by
  have hagrees := propext (and_congr_right h)
  simp only [scanStep, apply_ite (State.withSrc · m), ← hagrees]
  rfl

theorem emitStep_withSrc {s : State} {m : Mem} (h : (s.withSrc m).srcByte s.p.toNat = s.srcByte s.p.toNat) :
    emitStep (s.withSrc m) = (emitStep s).withSrc m := by
  have hliteral : queueLiteral (s.withSrc m) = (queueLiteral s).withSrc m := by
    rw [queueLiteral, queueLiteral, ← h]
    rfl
  have hqueue : (if 2 ≤ s.bl.toNat then queueCopy (s.withSrc m) else queueLiteral (s.withSrc m)) =
      (if 2 ≤ s.bl.toNat then queueCopy s else queueLiteral s).withSrc m := by
    rw [hliteral, apply_ite (State.withSrc · m)]
    rfl
  rw [emitStep]
  simp only [show (s.withSrc m).bl = s.bl from rfl, hqueue]
  rfl

/-- The Operands clauses keep the byte at `SPOS`, where a rule takes it, below `SRC_LEN`. -/
theorem spos_le_of_operandsHeld {s : State} (hst : s.st.ofUnpack = true) (hcopy : s.st ≠ .dCopy)
    (h : s.operandsHeld = true) : s.spos.toNat ≤ s.srcLen.toNat := by
  cases hs : s.st <;> simp only [State.operandsHeld, hs, Bool.and_eq_true, decide_eq_true_eq] at h
  case dFlag | dLen => exact h
  case uMagic | uSize | uPad | dTok =>
    obtain ⟨-, hspos⟩ := h
    exact hspos
  case dCopy => exact absurd hs hcopy
  all_goals simp [St.ofUnpack, hs] at hst

/-- A rule reads SRC below `SRC_LEN` alone (20_memory.md R62). -/
theorem ruleStep_withSrc {s : State} {m : Mem} (hheld : s.operandsHeld = true)
    (h : ∀ a < s.srcLen.toNat, Mem.cell? m a = Mem.cell? s.src a) :
    (s.withSrc m).ruleStep = s.ruleStep.withSrc m := by
  have hread : ∀ a < s.srcLen.toNat, (s.withSrc m).srcByte a = s.srcByte a := fun a ha => srcByte_withSrc (h a ha)
  have hbyte (hst : s.st.ofUnpack = true) (hcopy : s.st ≠ .dCopy) (he : s.srcExhausted = false) :
      (s.withSrc m).srcByte s.spos.toNat = s.srcByte s.spos.toNat := by
    obtain ⟨-, hroom⟩ := spos_succ_of_not_exhausted (spos_le_of_operandsHeld hst hcopy hheld) he
    exact hread _ hroom
  have hst' : (s.withSrc m).st = s.st := rfl
  cases hs : s.st <;> rw [hs] at hbyte hst' <;> simp only [State.ruleStep, hs, hst']
  case uMagic => exact magicStep_withSrc m (hbyte rfl nofun)
  case uSize => exact sizeStep_withSrc m (hbyte rfl nofun)
  case uPad => exact padStep_withSrc s m
  case dFlag => exact flagStep_withSrc m (hbyte rfl nofun)
  case dTok => exact tokStep_withSrc m (hbyte rfl nofun)
  case dLen => exact lenStep_withSrc m (hbyte rfl nofun)
  case dCopy => exact copyStep_withSrc s m
  case pHdr => exact hdrStep_withSrc s m
  case pNext => exact nextStep_withSrc s m
  case pScan =>
    refine scanStep_withSrc fun hcl => ?_
    have hend : s.p.toNat + s.cl.toNat < s.srcLen.toNat := by
      have := hcl.trans_le (Nat.min_le_right _ _)
      omega
    rw [hread _ hend, hread _ (by omega)]
  case pEmit =>
    simp only [State.operandsHeld, hs, Bool.and_eq_true, decide_eq_true_eq] at hheld
    exact emitStep_withSrc (hread _ (by omega))
  case pFlush => exact flushStep_withSrc s m

/-- Settles O48: the padding and the bytes after the last item at the function level, and at the step level that each
rule reads SRC below `SRC_LEN` alone. -/
theorem ignoredInputChangesNothing : Obligations.IgnoredInputChangesNothing := by
  refine ⟨fun c front pad pad' rest => unpackBytes_padding c rest, fun c src more out => unpackBytes_append more,
    fun s t m hhost hagree hstep => ?_⟩
  rw [step_of_host_nil hhost, blockStep_next_iff] at hstep
  obtain ⟨hheld, rfl⟩ := hstep
  have hother : step (s.withSrc m) = blockStep (s.withSrc m) := step_of_host_nil hhost
  exact hother.trans (blockStep_next_iff.mpr ⟨hheld, (ruleStep_withSrc hheld hagree).symm⟩)

end Sys2Proof.Machine

/-! ## Items in states that do not select them (30_encoding.md R90, R95) -/

namespace Sys2Proof.Machine

theorem execHeader_not_selected (n : Word) (pad : List Byte) {s : State} (hmagic : s.st ≠ .uMagic)
    (hsize : s.st ≠ .uSize) (hpad : s.st ≠ .uPad) : execHeader n pad s = .fault .itemNotSelected := by
  unfold execHeader
  split
  · exact absurd ‹_› hmagic
  · exact absurd ‹_› hsize
  · exact absurd ‹_› hpad
  · rfl

theorem execFlag_not_selected (f : Byte) {s : State} (h : s.st ≠ .dFlag) :
    execFlag f s = .fault .itemNotSelected := by
  unfold execFlag
  split
  · exact absurd ‹_› h
  · rfl

theorem execLiteral_not_selected (b : Byte) {s : State} (h : ¬ (s.st = .dTok ∧ s.selector = false)) :
    execLiteral b s = .fault .itemNotSelected := by
  unfold execLiteral
  split
  · exact if_neg fun hraw => h ⟨‹_›, hraw⟩
  · rfl

theorem execCopy_not_selected (x y : Byte) {s : State} (hlen : s.st ≠ .dLen) (hcopy : s.st ≠ .dCopy)
    (h : ¬ (s.st = .dTok ∧ s.selector = true)) : execCopy x y s = .fault .itemNotSelected := by
  unfold execCopy
  split
  · exact if_neg fun hlz => h ⟨‹_›, hlz⟩
  · exact absurd ‹_› hlen
  · exact absurd ‹_› hcopy
  · rfl

/-- Settles O19: each item's meaning answers the fault on every path but those of its own states. -/
theorem itemsNeedTheirState : Obligations.ItemsNeedTheirState := fun _ =>
  ⟨fun n pad => execHeader_not_selected n pad, fun f => execFlag_not_selected f, fun b => execLiteral_not_selected b,
    fun x y => execCopy_not_selected x y⟩

end Sys2Proof.Machine

/-! ## The Header Codec: the header steps of both runs, and their agreement with `decode_header`
(40_header_codec.md R121 to R129) -/

namespace Sys2Proof.Machine

/-! ### Where the registers admit a header step (40_header_codec.md R121 to R123, R126) -/

theorem operandsHeld_uMagic_iff {s : State} (hst : s.st = .uMagic) :
    s.operandsHeld = true ↔ s.spos.toNat < 4 ∧ s.spos.toNat ≤ s.srcLen.toNat := by
  simp [State.operandsHeld, hst]

theorem operandsHeld_uSize_iff {s : State} (hst : s.st = .uSize) :
    s.operandsHeld = true ↔ 4 ≤ s.spos.toNat ∧ s.spos.toNat < 8 ∧ s.spos.toNat ≤ s.srcLen.toNat := by
  simp [State.operandsHeld, hst, and_assoc]

theorem operandsHeld_uPad_iff {s : State} (hst : s.st = .uPad) :
    s.operandsHeld = true ↔ 8 ≤ s.spos.toNat ∧ s.spos.toNat < 128 ∧ s.spos.toNat ≤ s.srcLen.toNat := by
  simp [State.operandsHeld, hst, and_assoc]

theorem operandsHeld_pHdr_iff {s : State} (hst : s.st = .pHdr) :
    s.operandsHeld = true ↔ s.hcnt.toNat < 128 ∧ s.dpos.toNat < 2 ^ 33 := by
  simp [State.operandsHeld, hst]

/-! ### The rules on a byte that is there, and on an exhausted source -/

theorem srcExhausted_eq_false_iff {s : State} : s.srcExhausted = false ↔ s.spos ≠ s.srcLen := by
  simp [State.srcExhausted]

theorem srcExhausted_eq_true_iff {s : State} : s.srcExhausted = true ↔ s.spos = s.srcLen := by
  simp [State.srcExhausted]

theorem srcExhausted_of_lt {s : State} (h : s.spos.toNat < s.srcLen.toNat) : s.srcExhausted = false :=
  srcExhausted_eq_false_iff.mpr fun heq => Nat.ne_of_lt h (congrArg BitVec.toNat heq)

/-- The magic validator takes its byte; the fourth is followed by the one comparison (40_header_codec.md R121). -/
theorem magicStep_of_more (b : Byte) {s : State} (he : s.srcExhausted = false) (hst : s.st = .uMagic) :
    ∃ acc : Word, acc = s.acc ||| (b.setWidth 32 <<< (8 * s.spos.toNat)) ∧
      magicStep b s =
        { s with acc := acc, spos := s.spos + 1,
                 st := if s.spos.toNat = 3 then (if acc = Config.doc.magic then .uSize else .failed) else .uMagic,
                 err := if s.spos.toNat = 3 ∧ acc ≠ Config.doc.magic then .invalidMagic else s.err } := by
  rcases magicStep_cases b s with ⟨hex, -⟩ | ⟨-, acc, hacc, hcase⟩
  · exact absurd (he.symm.trans hex) nofun
  refine ⟨acc, hacc, ?_⟩
  rcases hcase with ⟨hpos, h⟩ | ⟨hpos, hmagic, h⟩ | ⟨hpos, hmagic, h⟩ <;> rw [h]
  · have hpos' : s.spos.toNat ≠ 3 := fun h3 => hpos (by rw [h3])
    simp [hpos', hst, State.advance]
  · simp [Nat.succ.inj hpos, hmagic, State.advance]
  · simp only [Nat.succ.inj hpos, hmagic, State.advance, if_true, if_false, true_and, ne_eq, not_false_eq_true]

/-- The size extractor takes its byte, whatever it is (40_header_codec.md R122). -/
theorem sizeStep_of_more (b : Byte) {s : State} (he : s.srcExhausted = false) (hst : s.st = .uSize) :
    sizeStep b s =
      { s with unpackedSize := s.unpackedSize ||| (b.setWidth 32 <<< (8 * (s.spos.toNat - 4))), spos := s.spos + 1,
               st := if s.spos.toNat = 7 then .uPad else .uSize } := by
  rcases sizeStep_cases b s with ⟨hex, -⟩ | ⟨-, h⟩
  · exact absurd (he.symm.trans hex) nofun
  · simp [h, hst, State.advance]

/-- The padding skip moves on without its byte (40_header_codec.md R123). -/
theorem padStep_of_more {s : State} (he : s.srcExhausted = false) (hst : s.st = .uPad) :
    padStep s = { s with spos := s.spos + 1, st := if s.spos.toNat = 127 then .dFlag else .uPad } := by
  rcases padStep_cases s with ⟨hex, -⟩ | ⟨-, h⟩
  · exact absurd (he.symm.trans hex) nofun
  · simp [h, hst, State.advance]

/-- A header rule on an exhausted source is the failure entry alone (60_exceptions.md R246). -/
theorem ruleStep_of_exhausted_header {s : State} (hst : s.st = .uMagic ∨ s.st = .uSize ∨ s.st = .uPad)
    (he : s.srcExhausted = true) : s.ruleStep = { s with st := .failed, err := .truncatedInput } := by
  rcases hst with hst | hst | hst <;> simp only [State.ruleStep, hst] <;> exact if_pos he

theorem step_eq_next_ruleStep {s : State} (hhost : s.host = []) (hheld : s.operandsHeld = true) :
    step s = .next s.ruleStep := by
  rw [step_of_host_nil hhost, blockStep_next_iff]
  exact ⟨hheld, rfl⟩

theorem step_of_exhausted_header {s : State} (hhost : s.host = [])
    (hst : s.st = .uMagic ∨ s.st = .uSize ∨ s.st = .uPad) (hheld : s.operandsHeld = true) (he : s.spos = s.srcLen) :
    step s = .next { s with st := .failed, err := .truncatedInput } := by
  rw [step_eq_next_ruleStep hhost hheld, ruleStep_of_exhausted_header hst (srcExhausted_eq_true_iff.mpr he)]

/-! ### HEADER, run by `exec` -/

theorem exec_header_uMagic (n : Word) (pad : List Byte) {s : State} (hst : s.st = .uMagic) :
    exec (.header n pad) s = s.guarded (magicStep (itemByte (.header n pad) s.spos.toNat) s) := by
  simp only [exec, execHeader, hst]

theorem exec_header_uSize (n : Word) (pad : List Byte) {s : State} (hst : s.st = .uSize) :
    exec (.header n pad) s = s.guarded (sizeStep (itemByte (.header n pad) s.spos.toNat) s) := by
  simp only [exec, execHeader, hst]

theorem exec_header_uPad (n : Word) (pad : List Byte) {s : State} (hst : s.st = .uPad) :
    exec (.header n pad) s = s.guarded (padStep s) := by
  simp only [exec, execHeader, hst]

theorem getD_leBytes (w : Word) {k : Nat} (hk : k < 4) : (leBytes w).getD k 0 = wordByte w k := by
  obtain rfl | rfl | rfl | rfl : k = 0 ∨ k = 1 ∨ k = 2 ∨ k = 3 := by omega
  all_goals rfl

/-- Settles O13: in each state HEADER is the state's rule on the record's byte, which is there to take. -/
theorem headerItemCompletes : Obligations.HeaderItemCompletes := by
  intro n pad s _ hmore
  have he := srcExhausted_of_lt hmore
  refine ⟨fun hst hhi => ?_, fun hst hlo hhi => ?_, fun hst hlo hhi => ?_⟩
  · obtain ⟨acc, hacc, hstep⟩ := magicStep_of_more (itemByte (.header n pad) s.spos.toNat) he hst
    refine ⟨acc, hacc, ?_⟩
    rw [exec_header_uMagic n pad hst, guarded_of_held _ ((operandsHeld_uMagic_iff hst).mpr ⟨hhi, hmore.le⟩), hstep]
  · have hbyte : itemByte (.header n pad) s.spos.toNat = (leBytes n).getD (s.spos.toNat - 4) 0 :=
      (sizeByte_of_record n pad hlo hhi).trans (getD_leBytes n (by omega)).symm
    rw [exec_header_uSize n pad hst, guarded_of_held _ ((operandsHeld_uSize_iff hst).mpr ⟨hlo, hhi, hmore.le⟩),
      sizeStep_of_more _ he hst, hbyte]
  · rw [exec_header_uPad n pad hst, guarded_of_held _ ((operandsHeld_uPad_iff hst).mpr ⟨hlo, hhi, hmore.le⟩),
      padStep_of_more he hst]

/-! ### The header steps of UNPACK -/

/-- Settles O22: the source is exhausted, or the rule takes the byte at `SPOS`; the three outcomes of the latter are the
branches of its written-out state. -/
theorem magicStepReadsAndValidates : Obligations.MagicStepReadsAndValidates := by
  intro s hhost hst hhi hle
  have hheld := (operandsHeld_uMagic_iff hst).mpr ⟨hhi, hle⟩
  refine ⟨step_of_exhausted_header hhost (.inl hst) hheld, fun hmore => ?_⟩
  obtain ⟨acc, hacc, hrule⟩ :=
    magicStep_of_more (s.srcByte s.spos.toNat) (srcExhausted_eq_false_iff.mpr hmore) hst
  have hstep := step_eq_next_ruleStep hhost hheld
  simp only [State.ruleStep, hst, hrule] at hstep
  refine ⟨acc, hacc, fun h3 => ?_, fun h3 hmagic => ?_, fun h3 hmagic => ?_⟩ <;> rw [hstep]
  · simp [h3, hst]
  · simp [h3, hmagic]
  · simp only [h3, hmagic, if_true, if_false, true_and, ne_eq, not_false_eq_true]

/-- Settles O23: in both states the source is exhausted, or the rule takes the byte at `SPOS`. -/
theorem sizeAndPaddingSteps : Obligations.SizeAndPaddingSteps := by
  intro s hhost hle
  refine ⟨fun hst hlo hhi => ?_, fun hst hlo hhi => ?_⟩
  · have hheld := (operandsHeld_uSize_iff hst).mpr ⟨hlo, hhi, hle⟩
    refine ⟨step_of_exhausted_header hhost (.inr (.inl hst)) hheld, fun hmore => ?_⟩
    rw [step_eq_next_ruleStep hhost hheld, ← sizeStep_of_more _ (srcExhausted_eq_false_iff.mpr hmore) hst]
    simp only [State.ruleStep, hst]
  · have hheld := (operandsHeld_uPad_iff hst).mpr ⟨hlo, hhi, hle⟩
    refine ⟨step_of_exhausted_header hhost (.inr (.inr hst)) hheld, fun hmore => ?_⟩
    rw [step_eq_next_ruleStep hhost hheld, ← padStep_of_more (srcExhausted_eq_false_iff.mpr hmore) hst]
    simp only [State.ruleStep, hst]

/-! ### The header emitter of PACK (40_header_codec.md R126) -/

theorem emittedHeaderByte_toNat (s : State) :
    (emittedHeaderByte s).toNat =
      if s.hcnt.toNat < 4 then 0x80000001 / 2 ^ (8 * s.hcnt.toNat) % 256
      else if s.hcnt.toNat < 8 then s.unpackedSize.toNat / 2 ^ (8 * (s.hcnt.toNat - 4)) % 256 else 0 := by
  rw [emittedHeaderByte, apply_ite BitVec.toNat, apply_ite BitVec.toNat, wordByte_toNat, wordByte_toNat]
  rfl

/-- Settles O28: the rule of `P_HDR` with the emitted byte by its formula. -/
theorem headerEmitterStep : Obligations.HeaderEmitterStep := by
  intro s hhost hst hcnt hdpos
  refine ⟨emittedHeaderByte s, emittedHeaderByte_toNat s, ?_⟩
  rw [step_eq_next_ruleStep hhost ((operandsHeld_pHdr_iff hst).mpr ⟨hcnt, hdpos⟩)]
  simp [State.ruleStep, hdrStep_eq, hst]

/-! ### The function level (40_header_codec.md R127) -/

theorem length_encodeHeader (n : Word) : (encodeHeader n).length = 128 := by
  simp [encodeHeader, leBytes]

/-- Settles O50: the magic and the size are the words at offsets 0 and 4 of the emitted bytes. -/
theorem headerRoundTrip : Obligations.HeaderRoundTrip := fun n =>
  ⟨decodeHeader_ok_iff.mpr
    ⟨(length_encodeHeader n).ge, leWord_wordBytes Config.doc.magic, leWord_wordBytes n⟩, length_encodeHeader n⟩

/-! ### `UNPACKED_SIZE` once the size field is read (40_header_codec.md R128) -/

/-- The states of an UNPACK run after its size field. -/
def St.pastSize (x : St) : Prop := x = .uPad ∨ x = .dFlag ∨ x = .dTok ∨ x = .dLen ∨ x = .dCopy

/-- The states after the size field and the two ends of a run. -/
def St.pastSizeOrEnded (x : St) : Prop :=
  x = .uPad ∨ x = .dFlag ∨ x = .dTok ∨ x = .dLen ∨ x = .dCopy ∨ x = .done ∨ x = .failed

theorem St.pastSize.orEnded {x : St} (h : x.pastSize) : x.pastSizeOrEnded := by
  rcases h with h | h | h | h | h <;> simp [h, St.pastSizeOrEnded]

theorem busy_of_pastSize {s : State} (h : s.st.pastSize) : s.busy = true := by
  rcases h with h | h | h | h | h <;> simp [h, State.busy]

theorem afterToken_pastSizeOrEnded (s : State) : s.afterToken.pastSizeOrEnded := by
  unfold State.afterToken
  split_ifs <;> simp [St.pastSizeOrEnded]

theorem afterCopiedByte_pastSizeOrEnded (s : State) : s.afterCopiedByte.pastSizeOrEnded := by
  unfold State.afterCopiedByte
  split_ifs <;> simp [St.pastSizeOrEnded]

theorem ruleStep_unpackedSize_of_pastSize {s : State} (h : s.st.pastSize) :
    s.ruleStep.unpackedSize = s.unpackedSize := by
  rcases h with hst | hst
  · simp only [State.ruleStep, hst]
    rw [padStep_frame]
  · rw [ruleStep_frame_of_decoder hst]

/-- The rules after the size field lead to each other, to `Done` or to `Failed`. -/
theorem ruleStep_pastSizeOrEnded {s : State} (h : s.st.pastSize) : s.ruleStep.st.pastSizeOrEnded := by
  rcases h with hst | hst | hst | hst | hst <;> simp only [State.ruleStep, hst]
  · rcases padStep_cases s with ⟨-, h⟩ | ⟨-, h⟩ <;> rw [h]
    · simp [St.pastSizeOrEnded]
    · simp only [hst]
      split_ifs <;> simp [St.pastSizeOrEnded]
  · rcases flagStep_cases (s.srcByte s.spos.toNat) s with ⟨-, h⟩ | ⟨-, -, h⟩ | ⟨-, -, h⟩ <;>
      simp [h, St.pastSizeOrEnded]
  · rcases tokStep_cases (s.srcByte s.spos.toNat) s with ⟨-, h⟩ | ⟨-, -, h⟩ | ⟨-, -, h⟩ <;> rw [h]
    · simp [St.pastSizeOrEnded]
    · exact afterToken_pastSizeOrEnded _
    · simp [St.pastSizeOrEnded]
  · rcases lenStep_cases (s.srcByte s.spos.toNat) s with ⟨-, h⟩ | ⟨-, t, -, ⟨-, h⟩ | ⟨-, -, -, h⟩ | ⟨-, -, h⟩⟩ <;>
      simp [h, St.pastSizeOrEnded]
  · exact afterCopiedByte_pastSizeOrEnded _

/-- Settles O43: the rules keep the size and stay past it or end the run; a busy block ignores the commands, and of the
host's other events reset alone writes a register of the run. -/
theorem sizeIsImmutableOnceParsed : Obligations.SizeIsImmutableOnceParsed := by
  intro s t hst h hreset
  have hst : s.st.pastSize := hst
  have hidle : s.busy ≠ false := by simp [busy_of_pastSize hst]
  rcases step_next h with ⟨-, -, rfl⟩ | ⟨e, later, hhost, r, rfl, hevent⟩
  · exact ⟨ruleStep_unpackedSize_of_pastSize hst, ruleStep_pastSizeOrEnded hst⟩
  have hr : (State.st { s with host := later }).pastSize := hst
  rcases hevent with ⟨-, -, rfl⟩ | ⟨v, -, rfl | ⟨-, hnot, -⟩ | ⟨-, hnot, -⟩⟩ | ⟨-, -, -, ht⟩ | ⟨rfl, -⟩
  · exact ⟨ruleStep_unpackedSize_of_pastSize hr, ruleStep_pastSizeOrEnded hr⟩
  · exact ⟨rfl, hst.orEnded⟩
  · exact absurd hnot hidle
  · exact absurd hnot hidle
  · rw [ht]
    exact ⟨rfl, hst.orEnded⟩
  · exact absurd hhost (hreset later)

end Sys2Proof.Machine

/-! ## The header steps agree with `decode_header` (40_header_codec.md R129)

`headerRead c src k` is the state after `k` header bytes; a header step leads from it to that of `k + 1`, to the failure
of the magic's comparison at `k = 3`, or to truncation where the source ends. -/

namespace Sys2Proof.Machine

/-! ### Runs: one more step at the end, and no step outside a run -/

theorem runFor_succ_of_last {k : Nat} {s t u : State} (hrun : runFor k s = .next t) (hstep : step t = .next u) :
    runFor (k + 1) s = .next u := by
  rw [runFor_add hrun, runFor_succ_of_next hstep, runFor_zero]

theorem step_of_not_busy {s : State} (hhost : s.host = []) (hidle : s.busy = false) : step s = .next s := by
  rw [step_of_host_nil hhost]
  cases hst : s.st
  case idle | done | failed => simp only [blockStep, hst]
  all_goals simp [State.busy, hst] at hidle

theorem runFor_of_not_busy {s : State} (hhost : s.host = []) (hidle : s.busy = false) (k : Nat) :
    runFor k s = .next s := by
  induction k with
  | zero => rfl
  | succ k ih => exact runFor_succ_of_last ih (step_of_not_busy hhost hidle)

/-! ### When `decode_header` fails (40_header_codec.md R124) -/

theorem decodeHeader_truncated_iff {bytes : List Byte} :
    decodeHeader bytes = .error .truncatedInput ↔
      bytes.length < 128 ∧ (4 ≤ bytes.length → leWordAt bytes 0 = Config.doc.magic) := by
  rw [decodeHeader]
  split_ifs with hshort hmagic hlen
  · exact iff_of_true rfl (by simp only at hshort; omega)
  · exact iff_of_false nofun fun ⟨_, h⟩ => hmagic (h (Nat.le_of_not_lt hshort))
  · exact iff_of_true rfl ⟨hlen, fun _ => not_not.mp hmagic⟩
  · exact iff_of_false nofun fun ⟨h, _⟩ => hlen h

theorem decodeHeader_invalidMagic_iff {bytes : List Byte} :
    decodeHeader bytes = .error .invalidMagic ↔ 4 ≤ bytes.length ∧ leWordAt bytes 0 ≠ Config.doc.magic := by
  rw [decodeHeader]
  split_ifs with hshort hmagic hlen
  · exact iff_of_false nofun fun ⟨h, _⟩ => Nat.not_lt_of_le h hshort
  · exact iff_of_true rfl ⟨Nat.le_of_not_lt hshort, hmagic⟩
  · exact iff_of_false nofun fun ⟨_, h⟩ => hmagic h
  · exact iff_of_false nofun fun ⟨_, h⟩ => hmagic h

/-! ### The little-endian word a header step builds byte by byte -/

/-- The word that holds the first `k` of the bytes at an offset, each at its place, and 0 above them. -/
def partialWord (bytes : List Byte) (offset : Nat) : Nat → Word
  | 0 => 0
  | k + 1 => partialWord bytes offset k ||| ((bytes.getD (offset + k) 0).setWidth 32 <<< (8 * k))

/-- A byte placed above a word's value adds to it (40_header_codec.md R121, R122). -/
theorem toNat_or_placedByte {w : Word} (b : Byte) {k : Nat} (hk : k < 4) (hw : w.toNat < 2 ^ (8 * k)) :
    (w ||| (b.setWidth 32 <<< (8 * k))).toNat = w.toNat + 2 ^ (8 * k) * b.toNat := by
  have hplaced : (b.setWidth 32 <<< (8 * k)).toNat = b.toNat <<< (8 * k) := by
    have hb := b.isLt
    rw [BitVec.toNat_shiftLeft, BitVec.toNat_setWidth_of_le (by decide), Nat.mod_eq_of_lt]
    obtain rfl | rfl | rfl | rfl : k = 0 ∨ k = 1 ∨ k = 2 ∨ k = 3 := by omega
    all_goals simp only [Nat.shiftLeft_eq]; omega
  rw [BitVec.toNat_or, hplaced, Nat.or_comm, ← Nat.shiftLeft_add_eq_or_of_lt hw, Nat.shiftLeft_eq, Nat.add_comm,
    Nat.mul_comm]

theorem toNat_partialWord_succ (bytes : List Byte) (offset : Nat) {k : Nat} (hk : k < 4)
    (hw : (partialWord bytes offset k).toNat < 2 ^ (8 * k)) :
    (partialWord bytes offset (k + 1)).toNat =
      (partialWord bytes offset k).toNat + 2 ^ (8 * k) * (bytes.getD (offset + k) 0).toNat :=
  toNat_or_placedByte _ hk hw

theorem partialWord_lt (bytes : List Byte) (offset : Nat) {k : Nat} (hk : k ≤ 4) :
    (partialWord bytes offset k).toNat < 2 ^ (8 * k) := by
  induction k with
  | zero => exact Nat.one_pos
  | succ k ih =>
    have hw := ih (Nat.le_of_succ_le hk)
    have hb := (bytes.getD (offset + k) 0).isLt
    rw [toNat_partialWord_succ bytes offset hk hw, Nat.mul_succ, Nat.pow_add]
    calc (partialWord bytes offset k).toNat + 2 ^ (8 * k) * (bytes.getD (offset + k) 0).toNat
      _ < 2 ^ (8 * k) + 2 ^ (8 * k) * (bytes.getD (offset + k) 0).toNat := Nat.add_lt_add_right hw _
      _ = 2 ^ (8 * k) * ((bytes.getD (offset + k) 0).toNat + 1) := by ring
      _ ≤ 2 ^ (8 * k) * 2 ^ 8 := Nat.mul_le_mul_left _ hb

/-- While bytes are missing, the next byte goes to its place (40_header_codec.md R121, R122). -/
theorem partialWord_min_succ (bytes : List Byte) (offset : Nat) {k : Nat} (hk : k < 4) :
    partialWord bytes offset (min (k + 1) 4) =
      partialWord bytes offset (min k 4) ||| ((bytes.getD (offset + k) 0).setWidth 32 <<< (8 * k)) := by
  rw [min_eq_left (Nat.succ_le_of_lt hk), min_eq_left hk.le, partialWord]

/-- All four bytes make the word that `decode_header` reads there (20_memory.md R66). -/
theorem partialWord_four (bytes : List Byte) (offset : Nat) : partialWord bytes offset 4 = leWordAt bytes offset := by
  apply BitVec.eq_of_toNat_eq
  rw [leWordAt, leWord_toNat, toNat_partialWord_succ _ _ (by omega) (partialWord_lt _ _ (by omega)),
    toNat_partialWord_succ _ _ (by omega) (partialWord_lt _ _ (by omega)),
    toNat_partialWord_succ _ _ (by omega) (partialWord_lt _ _ (by omega)),
    toNat_partialWord_succ _ _ (by omega) (partialWord_lt _ _ (by omega))]
  simp [partialWord]

/-! ### The state after `k` bytes of the header -/

/-- The header state in which byte `k` is read, `D_FLAG` past the last (40_header_codec.md R121 to R123). -/
def headerSt (k : Nat) : St := if k < 4 then .uMagic else if k < 8 then .uSize else if k < 128 then .uPad else .dFlag

theorem headerSt_eq_uMagic {k : Nat} (h : k < 4) : headerSt k = .uMagic := if_pos h

theorem headerSt_eq_uSize {k : Nat} (hlo : 4 ≤ k) (hhi : k < 8) : headerSt k = .uSize := by
  rw [headerSt, if_neg (Nat.not_lt.mpr hlo), if_pos hhi]

theorem headerSt_eq_uPad {k : Nat} (hlo : 8 ≤ k) (hhi : k < 128) : headerSt k = .uPad := by
  rw [headerSt, if_neg (by omega), if_neg (Nat.not_lt.mpr hlo), if_pos hhi]

theorem headerSt_of_lt {k : Nat} (h : k < 128) : headerSt k = .uMagic ∨ headerSt k = .uSize ∨ headerSt k = .uPad := by
  unfold headerSt
  split_ifs <;> simp

/-- An UNPACK run on `src` in its header steps: what those steps may write is given, all else is as START left it. -/
def headerState (c : Params) (src : List Byte) (st : St) (spos : Pos) (acc size : Word) : State :=
  { unpackStarted c src with st := st, spos := spos, acc := acc, unpackedSize := size }

/-- The state once the first `k` bytes have been taken and none has failed. -/
def headerRead (c : Params) (src : List Byte) (k : Nat) : State :=
  headerState c src (headerSt k) (BitVec.ofNat 34 k) (partialWord src 0 (min k 4)) (partialWord src 4 (min (k - 4) 4))

section
variable {c : Params} {src : List Byte} {k : Nat}

theorem headerRead_spos (hk : k < 2 ^ 34) : (headerRead c src k).spos.toNat = k := Nat.mod_eq_of_lt hk

theorem headerRead_srcLen (hlen : src.length < 2 ^ 34) : (headerRead c src k).srcLen.toNat = src.length :=
  Nat.mod_eq_of_lt hlen

/-- The run has not read past its source (00_scope.md R12). -/
theorem headerRead_spos_le (hlen : src.length < 2 ^ 34) (hk : k ≤ src.length) :
    (headerRead c src k).spos.toNat ≤ (headerRead c src k).srcLen.toNat := by
  rwa [headerRead_spos (hk.trans_lt hlen), headerRead_srcLen hlen]

theorem headerRead_srcByte (hk : k < src.length) : (headerRead c src k).srcByte k = src.getD k 0 := by
  have hcell : Mem.cell? (headerRead c src k).src k = some src[k] := by
    rw [show (headerRead c src k).src = Mem.ofBytes 0 src from rfl, cell?_ofBytes, if_pos (Nat.zero_le k), Nat.sub_zero,
      List.getElem?_eq_getElem hk]
  rw [State.srcByte, hcell, Option.getD_some, List.getD_eq_getElem _ _ hk]

theorem headerRead_not_exhausted (hlen : src.length < 2 ^ 34) (hk : k < src.length) :
    (headerRead c src k).spos ≠ (headerRead c src k).srcLen := fun heq => by
  have hnat := congrArg BitVec.toNat heq
  rw [headerRead_spos (hk.trans hlen), headerRead_srcLen hlen] at hnat
  exact Nat.ne_of_lt hk hnat

theorem ofNat_succ_pos (k : Nat) : BitVec.ofNat 34 k + 1 = BitVec.ofNat 34 (k + 1) := (BitVec.ofNat_add k 1).symm

/-! ### The steps from it -/

theorem headerState_eq_headerRead_succ {st : St} {acc size : Word} (hst : st = headerSt (k + 1))
    (hacc : acc = partialWord src 0 (min (k + 1) 4)) (hsize : size = partialWord src 4 (min (k + 1 - 4) 4)) :
    headerState c src st (BitVec.ofNat 34 k + 1) acc size = headerRead c src (k + 1) := by
  rw [hst, hacc, hsize, headerRead, ofNat_succ_pos]

/-- The value the magic validator assembles is `decode_header`'s (40_header_codec.md R121, R124). -/
theorem headerRead_acc_succ (hlen : src.length < 2 ^ 34) (hk : k < src.length) (hphase : k < 4) :
    (headerRead c src k).acc ||| (((headerRead c src k).srcByte (headerRead c src k).spos.toNat).setWidth 32 <<<
        (8 * (headerRead c src k).spos.toNat)) = partialWord src 0 (min (k + 1) 4) := by
  rw [headerRead_spos (hk.trans hlen), headerRead_srcByte hk, partialWord_min_succ src 0 hphase, Nat.zero_add]
  rfl

theorem headerRead_size_succ (hlen : src.length < 2 ^ 34) (hk : k < src.length) (hlo : 4 ≤ k) (hhi : k < 8) :
    (headerRead c src k).unpackedSize |||
        (((headerRead c src k).srcByte (headerRead c src k).spos.toNat).setWidth 32 <<<
          (8 * ((headerRead c src k).spos.toNat - 4))) = partialWord src 4 (min (k + 1 - 4) 4) := by
  rw [headerRead_spos (hk.trans hlen), headerRead_srcByte hk, Nat.sub_add_comm hlo,
    partialWord_min_succ src 4 (by omega), Nat.add_sub_cancel' hlo]
  rfl

/-- Byte 3 completes the word that is compared with the magic (40_header_codec.md R121). -/
theorem headerRead_acc_three (hlen : src.length < 2 ^ 34) (hk : 3 < src.length) :
    (headerRead c src 3).acc ||| (((headerRead c src 3).srcByte (headerRead c src 3).spos.toNat).setWidth 32 <<<
        (8 * (headerRead c src 3).spos.toNat)) = leWordAt src 0 :=
  (headerRead_acc_succ hlen hk (by omega)).trans (partialWord_four src 0)

theorem step_headerRead_uMagic (hlen : src.length < 2 ^ 34) (hk : k < src.length) (hphase : k < 4)
    (hmagic : k = 3 → leWordAt src 0 = Config.doc.magic) :
    step (headerRead c src k) = .next (headerRead c src (k + 1)) := by
  have hpos := headerRead_spos (c := c) (src := src) (hk.trans hlen)
  have hsize : partialWord src 4 (min (k - 4) 4) = partialWord src 4 (min (k + 1 - 4) 4) := by
    rw [Nat.sub_eq_zero_of_le hphase.le, Nat.sub_eq_zero_of_le hphase]
  obtain ⟨-, hmore⟩ := magicStepReadsAndValidates (headerRead c src k) rfl (headerSt_eq_uMagic hphase)
    (hpos.trans_lt hphase) (headerRead_spos_le hlen hk.le)
  obtain ⟨acc, hacc, hearly, hgood, -⟩ := hmore (headerRead_not_exhausted hlen hk)
  rw [hpos] at hearly hgood
  have hnext := hacc.trans (headerRead_acc_succ hlen hk hphase)
  by_cases h3 : k = 3
  · subst h3
    rw [hgood rfl (hnext.trans ((partialWord_four src 0).trans (hmagic rfl)))]
    exact congrArg _ (headerState_eq_headerRead_succ rfl hnext hsize)
  · have hst : headerSt k = headerSt (k + 1) := by rw [headerSt_eq_uMagic hphase, headerSt_eq_uMagic (by omega)]
    rw [hearly h3]
    exact congrArg _ (headerState_eq_headerRead_succ hst hnext hsize)

theorem step_headerRead_uSize (hlen : src.length < 2 ^ 34) (hk : k < src.length) (hlo : 4 ≤ k) (hhi : k < 8) :
    step (headerRead c src k) = .next (headerRead c src (k + 1)) := by
  have hpos := headerRead_spos (c := c) (src := src) (hk.trans hlen)
  have hst' : (if k = 7 then St.uPad else .uSize) = headerSt (k + 1) := by
    split_ifs with h7
    · rw [h7]
      rfl
    · exact (headerSt_eq_uSize (by omega) (by omega)).symm
  have hacc : partialWord src 0 (min k 4) = partialWord src 0 (min (k + 1) 4) := by
    rw [min_eq_right hlo, min_eq_right (by omega)]
  obtain ⟨hsizeStep, -⟩ := sizeAndPaddingSteps (headerRead c src k) rfl (headerRead_spos_le hlen hk.le)
  obtain ⟨-, hmore⟩ := hsizeStep (headerSt_eq_uSize hlo hhi) (hlo.trans hpos.ge) (hpos.trans_lt hhi)
  rw [hmore (headerRead_not_exhausted hlen hk), headerRead_size_succ hlen hk hlo hhi, hpos]
  exact congrArg _ (headerState_eq_headerRead_succ hst' hacc rfl)

theorem step_headerRead_uPad (hlen : src.length < 2 ^ 34) (hk : k < src.length) (hlo : 8 ≤ k) (hhi : k < 128) :
    step (headerRead c src k) = .next (headerRead c src (k + 1)) := by
  have hpos := headerRead_spos (c := c) (src := src) (hk.trans hlen)
  have hst' : (if k = 127 then St.dFlag else .uPad) = headerSt (k + 1) := by
    split_ifs with h127
    · rw [h127]
      rfl
    · exact (headerSt_eq_uPad (by omega) (by omega)).symm
  have hacc : partialWord src 0 (min k 4) = partialWord src 0 (min (k + 1) 4) := by
    rw [min_eq_right (by omega), min_eq_right (by omega)]
  have hsize : partialWord src 4 (min (k - 4) 4) = partialWord src 4 (min (k + 1 - 4) 4) := by
    rw [min_eq_right (by omega), min_eq_right (by omega)]
  obtain ⟨-, hpadStep⟩ := sizeAndPaddingSteps (headerRead c src k) rfl (headerRead_spos_le hlen hk.le)
  obtain ⟨-, hmore⟩ := hpadStep (headerSt_eq_uPad hlo hhi) (hlo.trans hpos.ge) (hpos.trans_lt hhi)
  rw [hmore (headerRead_not_exhausted hlen hk), hpos]
  exact congrArg _ (headerState_eq_headerRead_succ hst' hacc hsize)

theorem step_headerRead (hlen : src.length < 2 ^ 34) (hk : k < src.length) (hhi : k < 128)
    (hmagic : k = 3 → leWordAt src 0 = Config.doc.magic) :
    step (headerRead c src k) = .next (headerRead c src (k + 1)) := by
  rcases Nat.lt_or_ge k 4 with h4 | h4
  · exact step_headerRead_uMagic hlen hk h4 hmagic
  rcases Nat.lt_or_ge k 8 with h8 | h8
  · exact step_headerRead_uSize hlen hk h4 h8
  · exact step_headerRead_uPad hlen hk h8 hhi

/-- A wrong magic fails right after its fourth byte (40_header_codec.md R121). -/
theorem step_headerRead_badMagic (hlen : src.length < 2 ^ 34) (hk : 3 < src.length)
    (hmagic : leWordAt src 0 ≠ Config.doc.magic) :
    ∃ t, step (headerRead c src 3) = .next t ∧ t.host = [] ∧ t.st = .failed ∧ t.err = .invalidMagic ∧
      t.spos.toNat = 4 := by
  obtain ⟨-, hmore⟩ := magicStepReadsAndValidates (headerRead c src 3) rfl rfl
    ((headerRead_spos (by decide)).trans_lt (by decide)) (headerRead_spos_le hlen hk.le)
  obtain ⟨acc, hacc, -, -, hbad⟩ := hmore (headerRead_not_exhausted hlen hk)
  exact ⟨_, hbad rfl (hacc.trans_ne ((headerRead_acc_three hlen hk).trans_ne hmagic)), rfl, rfl, rfl, rfl⟩

theorem headerRead_operandsHeld (hlen : src.length < 2 ^ 34) (hk : k ≤ src.length) (hhi : k < 128) :
    (headerRead c src k).operandsHeld = true := by
  have hpos := headerRead_spos (c := c) (src := src) (hk.trans_lt hlen)
  have hle := headerRead_spos_le (c := c) hlen hk
  rcases Nat.lt_or_ge k 4 with h4 | h4
  · exact (operandsHeld_uMagic_iff (headerSt_eq_uMagic h4)).mpr (by omega)
  rcases Nat.lt_or_ge k 8 with h8 | h8
  · exact (operandsHeld_uSize_iff (headerSt_eq_uSize h4 h8)).mpr (by omega)
  · exact (operandsHeld_uPad_iff (headerSt_eq_uPad h8 hhi)).mpr (by omega)

/-- A source that ends within the header fails at its end (40_header_codec.md R121 to R123). -/
theorem step_headerRead_truncated (hlen : src.length < 2 ^ 34) (hshort : src.length < 128) :
    ∃ t, step (headerRead c src src.length) = .next t ∧ t.host = [] ∧ t.st = .failed ∧ t.err = .truncatedInput ∧
      t.spos.toNat = src.length :=
  ⟨_, step_of_exhausted_header rfl (headerSt_of_lt hshort) (headerRead_operandsHeld hlen le_rfl hshort) rfl,
    rfl, rfl, rfl, headerRead_spos (c := c) (src := src) hlen⟩

/-! ### The run from START -/

/-- The first `k` steps take the first `k` bytes, as long as they are there and the magic is right where it is
complete. -/
theorem runFor_unpackStarted (hlen : src.length < 2 ^ 34) (hk : k ≤ src.length) (hhi : k ≤ 128)
    (hmagic : 4 ≤ k → leWordAt src 0 = Config.doc.magic) :
    runFor k (unpackStarted c src) = .next (headerRead c src k) := by
  induction k with
  | zero => rfl
  | succ k ih =>
    have hbefore := ih (Nat.le_of_succ_le hk) (Nat.le_of_succ_le hhi) fun h4 => hmagic (h4.trans k.le_succ)
    exact runFor_succ_of_last hbefore (step_headerRead hlen hk hhi fun h3 => hmagic (by omega))

/-- `decode_header` is `Ok`: 128 steps take the whole record. -/
theorem runFor_of_decodeHeader_ok {n : Word} (hlen : src.length < 2 ^ 34) (h : decodeHeader src = .ok n) :
    ∃ t, runFor 128 (unpackStarted c src) = .next t ∧ t.st = .dFlag ∧ t.spos.toNat = 128 ∧ t.unpackedSize = n := by
  obtain ⟨hlong, hmagic, hsize⟩ := decodeHeader_ok_iff.mp h
  exact ⟨_, runFor_unpackStarted hlen hlong le_rfl fun _ => hmagic, rfl, rfl, (partialWord_four src 4).trans hsize⟩

/-- `decode_header` is `Err(TruncatedInput)`: the step after the last byte fails. -/
theorem runFor_of_decodeHeader_truncated (hlen : src.length < 2 ^ 34) (h : decodeHeader src = .error .truncatedInput) :
    ∃ t, runFor (src.length + 1) (unpackStarted c src) = .next t ∧ t.host = [] ∧ t.st = .failed ∧
      t.err = .truncatedInput ∧ t.spos.toNat = src.length := by
  obtain ⟨hshort, hmagic⟩ := decodeHeader_truncated_iff.mp h
  obtain ⟨t, hstep, ht⟩ := step_headerRead_truncated (c := c) hlen hshort
  exact ⟨t, runFor_succ_of_last (runFor_unpackStarted hlen le_rfl hshort.le hmagic) hstep, ht⟩

/-- `decode_header` is `Err(InvalidMagic)`: the fourth step fails. -/
theorem runFor_of_decodeHeader_invalidMagic (hlen : src.length < 2 ^ 34) (h : decodeHeader src = .error .invalidMagic) :
    ∃ t, runFor 4 (unpackStarted c src) = .next t ∧ t.host = [] ∧ t.st = .failed ∧ t.err = .invalidMagic ∧
      t.spos.toNat = 4 := by
  obtain ⟨hfour, hmagic⟩ := decodeHeader_invalidMagic_iff.mp h
  obtain ⟨t, hstep, ht⟩ := step_headerRead_badMagic (c := c) hlen hfour hmagic
  exact ⟨t, runFor_succ_of_last (runFor_unpackStarted hlen (by omega) (by omega) (by omega)) hstep, ht⟩

end

/-- A run that has failed within its first `k` steps is in `Failed` after `k` of them. -/
theorem failed_of_runFor {j k : Nat} {s t u : State} (hjk : j ≤ k) (hj : runFor j s = .next u) (hhost : u.host = [])
    (hfail : u.st = .failed) (hk : runFor k s = .next t) : t.st = .failed := by
  have hrun := runFor_add (k := k - j) hj
  rw [Nat.add_sub_cancel' hjk, hk, runFor_of_not_busy hhost (by simp [State.busy, hfail])] at hrun
  injection hrun with hrun
  rw [hrun, hfail]

/-- `decode_header` raises the two errors of a header only (40_header_codec.md R124). -/
theorem decodeHeader_cases (bytes : List Byte) :
    (∃ n, decodeHeader bytes = .ok n) ∨ decodeHeader bytes = .error .truncatedInput ∨
      decodeHeader bytes = .error .invalidMagic := by
  rw [decodeHeader]
  split_ifs
  · exact .inr (.inl rfl)
  · exact .inr (.inr rfl)
  · exact .inr (.inl rfl)
  · exact .inl ⟨_, rfl⟩

/-- Settles O54: the steps follow the bytes in each outcome of `decode_header`; a run that failed stays in `Failed`, so
`D_FLAG` after 128 steps leaves the outcome `Ok` alone. -/
theorem headerStepsAgreeWithDecodeHeader : Obligations.HeaderStepsAgreeWithDecodeHeader := by
  intro c src hlen
  have htrunc := runFor_of_decodeHeader_truncated (c := c) hlen
  have hbad := runFor_of_decodeHeader_invalidMagic (c := c) hlen
  refine ⟨fun n => ⟨runFor_of_decodeHeader_ok hlen, ?_⟩, fun h => ?_, fun h => ?_⟩
  · rintro ⟨t, hrun, hst, -, rfl⟩
    rcases decodeHeader_cases src with ⟨n, h⟩ | h | h
    · obtain ⟨u, hrun', -, -, hsize⟩ := runFor_of_decodeHeader_ok (c := c) hlen h
      cases hrun.symm.trans hrun'
      rw [h, hsize]
    · obtain ⟨hshort, -⟩ := decodeHeader_truncated_iff.mp h
      obtain ⟨u, hfail, hhost, hst', -⟩ := htrunc h
      exact absurd (hst.symm.trans (failed_of_runFor hshort hfail hhost hst' hrun)) nofun
    · obtain ⟨u, hfail, hhost, hst', -⟩ := hbad h
      exact absurd (hst.symm.trans (failed_of_runFor (by omega) hfail hhost hst' hrun)) nofun
  · obtain ⟨t, hrun, -, ht⟩ := htrunc h
    exact ⟨t, hrun, ht⟩
  · obtain ⟨t, hrun, -, ht⟩ := hbad h
    exact ⟨t, hrun, ht⟩

end Sys2Proof.Machine

/-! ## The Decoder: FLAG, LITERAL and COPY, and the decode steps of UNPACK (41_decoder.md R141 to R151) -/

namespace Sys2Proof.Machine

/-! ### Where the registers admit a decode step -/

theorem operandsHeld_dFlag_iff {s : State} (hst : s.st = .dFlag) :
    s.operandsHeld = true ↔ s.spos.toNat ≤ s.srcLen.toNat := by
  simp [State.operandsHeld, hst]

theorem operandsHeld_dTok_iff {s : State} (hst : s.st = .dTok) :
    s.operandsHeld = true ↔ 1 ≤ s.fcnt.toNat ∧ s.fcnt.toNat ≤ 8 ∧ s.outLen.toNat < s.unpackedSize.toNat ∧
      s.spos.toNat ≤ s.srcLen.toNat := by
  simp [State.operandsHeld, hst, and_assoc]

theorem operandsHeld_dLen_iff {s : State} (hst : s.st = .dLen) :
    s.operandsHeld = true ↔ s.spos.toNat ≤ s.srcLen.toNat := by
  simp [State.operandsHeld, hst]

theorem operandsHeld_dCopy_iff {s : State} (hst : s.st = .dCopy) :
    s.operandsHeld = true ↔ 1 ≤ s.dist.toNat ∧ s.dist.toNat ≤ s.outLen.toNat ∧ 1 ≤ s.rem.toNat ∧
      s.rem.toNat ≤ 256 ∧ s.outLen.toNat < s.unpackedSize.toNat := by
  simp [State.operandsHeld, hst, and_assoc]

/-! ### The rules on a byte that is there, written out -/

/-- The last bit of the queue, or the last byte of a Copy, is the one at count 1. -/
theorem sub_one_eq_zero_iff {w : Nat} (hw : 0 < w) (x : BitVec w) : x - 1 = 0 ↔ x.toNat = 1 := by
  have hone : (1 : BitVec w).toNat = 1 := Nat.mod_eq_of_lt (Nat.one_lt_two_pow hw.ne')
  rw [sub_eq_zero, ← BitVec.toNat_inj, hone]

/-- With output owed, the byte at `SPOS` is loaded as the queue (41_decoder.md R141, R142). -/
theorem flagStep_of_more (b : Byte) {s : State} (howed : s.outLen ≠ s.unpackedSize) (he : s.srcExhausted = false) :
    flagStep b s = { s with flags := b, fcnt := 8, spos := s.spos + 1, st := .dTok } := by
  rcases flagStep_cases b s with ⟨hdone, -⟩ | ⟨-, hex, -⟩ | ⟨-, -, h⟩
  · exact absurd hdone howed
  · exact absurd (he.symm.trans hex) nofun
  · exact h

/-- A Literal is appended and completes its token (41_decoder.md R143, R144, R148, R149). -/
theorem tokStep_of_raw (x : Byte) {s : State} (he : s.srcExhausted = false) (hsel : s.selector = false) :
    tokStep x s =
      { s with flags := shiftFlags s.cfg.flagOrder s.flags, fcnt := s.fcnt - 1, spos := s.spos + 1,
               outLen := s.outLen + 1, dst := Mem.put s.dst s.outLen.toNat x,
               hist := Mem.put s.hist (s.outLen.toNat % 256) x,
               st := if s.outLen + 1 = s.unpackedSize then .done else if s.fcnt.toNat = 1 then .dFlag else .dTok } := by
  rcases tokStep_cases x s with ⟨hex, -⟩ | ⟨-, -, h⟩ | ⟨-, hlz, -⟩
  · exact absurd (he.symm.trans hex) nofun
  · simp only [h, ← sub_one_eq_zero_iff (by decide : 0 < 4) s.fcnt]
    rfl
  · exact absurd (hsel.symm.trans hlz) nofun

/-- The state in which a Copy has its selector and its distance byte taken (41_decoder.md R143, R145). -/
def distanceLatched (x : Byte) (s : State) : State :=
  { s with flags := shiftFlags s.cfg.flagOrder s.flags, fcnt := s.fcnt - 1, spos := s.spos + 1, distb := x,
           st := .dLen }

theorem tokStep_of_lz (x : Byte) {s : State} (he : s.srcExhausted = false) (hsel : s.selector = true) :
    tokStep x s = distanceLatched x s := by
  rcases tokStep_cases x s with ⟨hex, -⟩ | ⟨-, hraw, -⟩ | ⟨-, -, h⟩
  · exact absurd (he.symm.trans hex) nofun
  · exact absurd (hraw.symm.trans hsel) nofun
  · exact h

/-- The state that `D_LEN` has written before its checks (41_decoder.md R145). -/
def lengthLatched (y : Byte) (s : State) : State :=
  { s with spos := s.spos + 1, dist := BitVec.ofNat 9 (mapD s.cfg s.distb), rem := BitVec.ofNat 9 (mapL s.cfg y) }

theorem mapL_range (c : Params) (raw : Byte) : 1 ≤ mapL c raw ∧ mapL c raw ≤ 256 := mapRaw_range c.lenMap raw

theorem lengthLatched_dist (y : Byte) (s : State) : (lengthLatched y s).dist.toNat = mapD s.cfg s.distb := by
  obtain ⟨-, hhi⟩ := mapD_range s.cfg s.distb
  exact Nat.mod_eq_of_lt (hhi.trans_lt (by decide))

theorem lengthLatched_rem (y : Byte) (s : State) : (lengthLatched y s).rem.toNat = mapL s.cfg y := by
  obtain ⟨-, hhi⟩ := mapL_range s.cfg y
  exact Nat.mod_eq_of_lt (hhi.trans_lt (by decide))

/-- The three outcomes of the checks, in their order (41_decoder.md R145). -/
theorem lenStep_of_more (y : Byte) {s : State} (he : s.srcExhausted = false) :
    (s.outLen.toNat < mapD s.cfg s.distb → lenStep y s = (lengthLatched y s).raise .invalidOffset) ∧
    (mapD s.cfg s.distb ≤ s.outLen.toNat → s.cfg.overshoot = .fault →
      s.unpackedSize.toNat < s.outLen.toNat + mapL s.cfg y → lenStep y s = (lengthLatched y s).raise .sizeMismatch) ∧
    (mapD s.cfg s.distb ≤ s.outLen.toNat →
      (s.cfg.overshoot = .fault → s.outLen.toNat + mapL s.cfg y ≤ s.unpackedSize.toNat) →
      lenStep y s = (lengthLatched y s).goto .dCopy) := by
  rcases lenStep_cases y s with ⟨hex, -⟩ | ⟨-, t, rfl, hcase⟩
  · exact absurd (he.symm.trans hex) nofun
  rcases hcase with ⟨hd, h⟩ | ⟨hd, hf, hl, h⟩ | ⟨hd, hfits, h⟩
  · exact ⟨fun _ => h, fun hle => absurd hd (Nat.not_lt.mpr hle), fun hle => absurd hd (Nat.not_lt.mpr hle)⟩
  · exact ⟨fun hlt => absurd hlt (Nat.not_lt.mpr hd), fun _ _ _ => h, fun _ hroom =>
      absurd hl (Nat.not_lt.mpr (hroom hf))⟩
  · exact ⟨fun hlt => absurd hlt (Nat.not_lt.mpr hd), fun _ hf hl => absurd ⟨hf, hl⟩ hfits, fun _ _ => h⟩

/-- One copied byte, the read before the write (41_decoder.md R146). -/
theorem copyStep_written (s : State) :
    copyStep s =
      { s with outLen := s.outLen + 1, rem := s.rem - 1,
               dst := Mem.put s.dst s.outLen.toNat (s.histByte (lookbackIndex s)),
               hist := Mem.put s.hist (s.outLen.toNat % 256) (s.histByte (lookbackIndex s)),
               st := if s.outLen + 1 = s.unpackedSize then .done
                     else if s.rem.toNat = 1 then (if s.fcnt = 0 then .dFlag else .dTok) else .dCopy } := by
  simp only [copyStep_eq, ← sub_one_eq_zero_iff (by decide : 0 < 9) s.rem]

/-! ### FLAG, LITERAL and COPY, run by `exec` -/

theorem exec_flag (f : Byte) {s : State} (hst : s.st = .dFlag) : exec (.flag f) s = s.guarded (flagStep f s) := by
  simp only [exec, execFlag, hst]

theorem exec_literal (b : Byte) {s : State} (hst : s.st = .dTok) (hsel : s.selector = false) :
    exec (.literal b) s = s.guarded (tokStep b s) := by
  simp only [exec, execLiteral, hst, hsel, if_true]

theorem exec_copy_dTok (x y : Byte) {s : State} (hst : s.st = .dTok) (hsel : s.selector = true) :
    exec (.copy x y) s = s.guarded (tokStep x s) := by
  simp only [exec, execCopy, hst, hsel, if_true]

theorem exec_copy_dLen (x y : Byte) {s : State} (hst : s.st = .dLen) :
    exec (.copy x y) s = s.guarded (lenStep y s) := by
  simp only [exec, execCopy, hst]

theorem exec_copy_dCopy (x y : Byte) {s : State} (hst : s.st = .dCopy) :
    exec (.copy x y) s = s.guarded (copyStep s) := by
  simp only [exec, execCopy, hst]

/-- Settles O14: FLAG is the rule of `D_FLAG` on its byte, the Done check first. -/
theorem flagItemCompletes : Obligations.FlagItemCompletes := by
  intro f s hst hle
  have hheld := (operandsHeld_dFlag_iff hst).mpr hle
  refine ⟨fun hdone => ?_, fun howed hmore => ?_⟩ <;> rw [exec_flag f hst, guarded_of_held _ hheld]
  · rw [flagStep, if_pos hdone]
    rfl
  · rw [flagStep_of_more f howed (srcExhausted_of_lt hmore)]

/-- Settles O15: LITERAL is the rule of `D_TOK` for a 0 selector, and its two writes are read back by address. -/
theorem literalItemCompletes : Obligations.LiteralItemCompletes := by
  intro b s hst hsel hlo hhi howed hmore
  have hheld := (operandsHeld_dTok_iff hst).mpr ⟨hlo, hhi, howed, hmore.le⟩
  have hstep := tokStep_of_raw b (srcExhausted_of_lt hmore) hsel
  refine ⟨tokStep b s, ?_, ?_, fun a => ?_, fun i => ?_⟩
  · rw [exec_literal b hst hsel, guarded_of_held _ hheld]
  · rw [hstep]
  · rw [hstep, cell?_put]
  · rw [hstep, cell?_put]

/-- Settles O16: in each state COPY is that state's rule, and the writes of `D_COPY` are read back by address. -/
theorem copyItemCompletes : Obligations.CopyItemCompletes := by
  intro x y s
  refine ⟨fun hst hsel hlo hhi howed hmore => ?_, fun hst hmore hd hroom => ?_,
    fun hst hdlo hdhi hrlo hrhi howed => ?_⟩
  · rw [exec_copy_dTok x y hst hsel,
      guarded_of_held _ ((operandsHeld_dTok_iff hst).mpr ⟨hlo, hhi, howed, hmore.le⟩),
      tokStep_of_lz x (srcExhausted_of_lt hmore) hsel]
    rfl
  · obtain ⟨-, -, hfits⟩ := lenStep_of_more y (srcExhausted_of_lt hmore)
    rw [exec_copy_dLen x y hst, guarded_of_held _ ((operandsHeld_dLen_iff hst).mpr hmore.le), hfits hd hroom]
    rfl
  · have hheld := (operandsHeld_dCopy_iff hst).mpr ⟨hdlo, hdhi, hrlo, hrhi, howed⟩
    refine ⟨copyStep s, s.histByte (lookbackIndex s), rfl, ?_, ?_, fun a => ?_, fun i => ?_⟩
    · rw [exec_copy_dCopy x y hst, guarded_of_held _ hheld]
    · rw [copyStep_written]
    · rw [copyStep_written, cell?_put]
    · rw [copyStep_written, cell?_put]

/-! ### The decode steps of UNPACK -/

theorem step_of_dFlag {s : State} (hhost : s.host = []) (hst : s.st = .dFlag) (hheld : s.operandsHeld = true) :
    step s = .next (flagStep (s.srcByte s.spos.toNat) s) := by
  rw [step_eq_next_ruleStep hhost hheld, State.ruleStep, hst]

theorem step_of_dTok {s : State} (hhost : s.host = []) (hst : s.st = .dTok) (hheld : s.operandsHeld = true) :
    step s = .next (tokStep (s.srcByte s.spos.toNat) s) := by
  rw [step_eq_next_ruleStep hhost hheld, State.ruleStep, hst]

theorem step_of_dLen {s : State} (hhost : s.host = []) (hst : s.st = .dLen) (hheld : s.operandsHeld = true) :
    step s = .next (lenStep (s.srcByte s.spos.toNat) s) := by
  rw [step_eq_next_ruleStep hhost hheld, State.ruleStep, hst]

theorem step_of_dCopy {s : State} (hhost : s.host = []) (hst : s.st = .dCopy) (hheld : s.operandsHeld = true) :
    step s = .next (copyStep s) := by
  rw [step_eq_next_ruleStep hhost hheld, State.ruleStep, hst]

/-- Settles O24: the branches of the rule of `D_FLAG`, in its order. -/
theorem flagStepChecksDoneFirst : Obligations.FlagStepChecksDoneFirst := by
  intro s hhost hst hle
  rw [step_of_dFlag hhost hst ((operandsHeld_dFlag_iff hst).mpr hle)]
  refine ⟨fun hdone => ?_, fun howed hend => ?_, fun howed hmore => ?_⟩
  · rw [flagStep, if_pos hdone]
    rfl
  · rw [flagStep, if_neg howed, if_pos (srcExhausted_eq_true_iff.mpr hend)]
    rfl
  · rw [flagStep_of_more _ howed (srcExhausted_eq_false_iff.mpr hmore)]

/-- Settles O25: the branches of the rule of `D_TOK`, the selector alone telling the two that take the byte apart. -/
theorem tokenStepFollowsTheSelector : Obligations.TokenStepFollowsTheSelector := by
  intro s hhost hst hlo hhi howed hle
  rw [step_of_dTok hhost hst ((operandsHeld_dTok_iff hst).mpr ⟨hlo, hhi, howed, hle⟩)]
  refine ⟨fun hend => ?_, fun hmore hsel => ?_, fun hmore hsel => ?_⟩
  · rw [tokStep, if_pos (srcExhausted_eq_true_iff.mpr hend)]
    rfl
  · rw [tokStep_of_raw _ (srcExhausted_eq_false_iff.mpr hmore) hsel]
  · rw [tokStep_of_lz _ (srcExhausted_eq_false_iff.mpr hmore) hsel]
    rfl

/-- Settles O26: the checks of the rule of `D_LEN` in their order, on the state with the registers already written. -/
theorem lengthStepChecksInOrder : Obligations.LengthStepChecksInOrder := by
  intro s hhost hst hle
  rw [step_of_dLen hhost hst ((operandsHeld_dLen_iff hst).mpr hle)]
  refine ⟨fun hend => ?_, fun hmore => ?_⟩
  · rw [lenStep, if_pos (srcExhausted_eq_true_iff.mpr hend)]
    rfl
  obtain ⟨hoffset, hsize, hfits⟩ := lenStep_of_more (s.srcByte s.spos.toNat) (srcExhausted_eq_false_iff.mpr hmore)
  refine ⟨_, _, lengthLatched (s.srcByte s.spos.toNat) s, rfl, rfl, rfl, lengthLatched_dist _ s, lengthLatched_rem _ s,
    fun hd => ?_, fun hd hf hl => ?_, fun hd hroom => ?_⟩
  · rw [hoffset hd]
    rfl
  · rw [hsize hd hf hl]
    rfl
  · rw [hfits hd fun hf => hroom.resolve_left fun ht => nomatch hf.symm.trans ht]
    rfl

/-- Settles O27: the rule of `D_COPY`, written out. -/
theorem copyStepAppendsTheLookbackByte : Obligations.CopyStepAppendsTheLookbackByte := by
  intro s hhost hst hdlo hdhi hrlo hrhi howed
  refine ⟨s.histByte (lookbackIndex s), rfl, ?_⟩
  rw [step_of_dCopy hhost hst ((operandsHeld_dCopy_iff hst).mpr ⟨hdlo, hdhi, hrlo, hrhi, howed⟩), copyStep_written]

end Sys2Proof.Machine

/-! ## The invariant is kept by every step (41_decoder.md R156; 42_encoder.md R198, R199, R202)

One lemma for each rule: from the phase of its state to the phases it leads to. The registers an UNPACK rule moves are
`SPOS` (`decoding_advance`) and the output (`decoding_append`); a PACK rule moves the scan, the pending group or the
output, each with its own lemma. -/

namespace Sys2Proof.Machine

/-! ### The parts of the invariant -/

theorem inv_of_phaseHeld {t : State} (hstores : t.storesWf) (herr : t.err = .none) (hst : t.st ≠ .failed)
    (hphase : t.phaseHeld) : t.Inv :=
  ⟨hstores, iff_of_false (not_not.mpr herr) hst, hphase⟩

theorem State.Inv.err_eq_none {s : State} (h : s.Inv) (hst : s.st ≠ .failed) : s.err = .none := by
  obtain ⟨-, herr, -⟩ := h
  exact not_not.mp (mt herr.mp hst)

/-- A failure entry, where the run is one of UNPACK and output is owed or none is out yet (60_exceptions.md R246). -/
theorem inv_raise {s : State} {kind : Err} (hstores : s.storesWf) (hkind : kind ≠ .none) (hop : s.op = .unpack)
    (hlook : s.lookback) (howed : s.outLen.toNat < s.unpackedSize.toNat ∨ s.outLen = 0) : (s.raise kind).Inv :=
  ⟨hstores, iff_of_true hkind rfl, hop, hlook, howed⟩

/-- A write at an admitted address keeps all listed addresses admitted. -/
theorem addresses_put_lt {m : Mem} {n a : Nat} (v : Byte) (h : ∀ c ∈ m, c.1 < n) (ha : a < n) :
    ∀ c ∈ Mem.put m a v, c.1 < n := by
  intro c hc
  have hwritten := (cell?_isSome_iff _ _).mpr (List.mem_map_of_mem (f := Prod.fst) hc)
  rw [cell?_put] at hwritten
  split at hwritten
  · omega
  · obtain ⟨c', hc', heq⟩ := List.mem_map.mp ((cell?_isSome_iff m _).mp hwritten)
    rw [← heq]
    exact h c' hc'

theorem storesWf_append {s : State} (v : Byte) (h : s.storesWf) : (s.append v).storesWf := by
  obtain ⟨hsrc, hdst, hhist, hgbuf, hhist', hgbuf'⟩ := h
  exact ⟨hsrc, wf_put _ v hdst, wf_put _ v hhist, hgbuf, addresses_put_lt v hhist' (Nat.mod_lt _ (by decide)), hgbuf'⟩

theorem storesWf_emit {s : State} (v : Byte) (h : s.storesWf) : (s.emit v).storesWf := by
  obtain ⟨hsrc, hdst, hrest⟩ := h
  exact ⟨hsrc, wf_put _ v hdst, hrest⟩

theorem storesWf_gbuf_put {s : State} {a : Nat} (v : Byte) (h : s.storesWf) (ha : a < 16) :
    State.storesWf { s with gbuf := Mem.put s.gbuf a v } := by
  obtain ⟨hsrc, hdst, hhist, hgbuf, hhist', hgbuf'⟩ := h
  exact ⟨hsrc, hdst, hhist, wf_put _ v hgbuf, hhist', addresses_put_lt v hgbuf' ha⟩

/-! ### The rules of the header (40_header_codec.md R121 to R123) -/

/-- No output is out while the header is read, so there is nothing to mirror. -/
theorem State.readingHeader.lookback {s : State} (h : s.readingHeader) : s.lookback := by
  obtain ⟨-, -, hout, -, hdst⟩ := h
  rw [State.lookback, hdst, hout]
  exact ⟨rfl, fun _ hi => absurd hi (Nat.not_lt_zero _)⟩

theorem readingHeader_advance {s : State} (h : s.readingHeader) (he : s.srcExhausted = false) :
    s.advance.readingHeader := by
  obtain ⟨hop, hle, hrest⟩ := h
  obtain ⟨hsucc, hroom⟩ := spos_succ_of_not_exhausted hle he
  exact ⟨hop, hsucc.trans_le hroom, hrest⟩

theorem State.readingHeader.toNat_advance_spos {s : State} (h : s.readingHeader) (he : s.srcExhausted = false) :
    s.advance.spos.toNat = s.spos.toNat + 1 := by
  obtain ⟨-, hle, -⟩ := h
  obtain ⟨hsucc, -⟩ := spos_succ_of_not_exhausted hle he
  exact hsucc

theorem inv_raise_of_readingHeader {s : State} {kind : Err} (hstores : s.storesWf) (hkind : kind ≠ .none)
    (h : s.readingHeader) : (s.raise kind).Inv := by
  have hlook := h.lookback
  obtain ⟨hop, -, hout, -⟩ := h
  exact inv_raise hstores hkind hop hlook (.inr hout)

theorem magicStep_inv (b : Byte) {s : State} (h : s.Inv) (hst : s.st = .uMagic) : (magicStep b s).Inv := by
  have herr := h.err_eq_none (by simp [hst])
  obtain ⟨hstores, -, hphase⟩ := h
  simp only [State.phaseHeld, hst] at hphase
  obtain ⟨hread, hlt, hsize⟩ := hphase
  rcases magicStep_cases b s with ⟨-, hs⟩ | ⟨he, acc, -, hs⟩
  · rw [hs]
    exact inv_raise_of_readingHeader hstores nofun hread
  have hread' := readingHeader_advance hread he
  have hsucc := hread.toNat_advance_spos he
  rcases hs with ⟨hpos, hs⟩ | ⟨hpos, -, hs⟩ | ⟨-, -, hs⟩ <;> rw [hs]
  · refine inv_of_phaseHeld hstores herr (by simp [hst]) ?_
    simp only [State.phaseHeld, advance_st, hst]
    exact ⟨hread', hsucc.trans_lt (by omega), hsize⟩
  · exact inv_of_phaseHeld hstores herr nofun
      ⟨hread', (hsucc.trans hpos).ge, (hsucc.trans hpos).trans_lt (by decide)⟩
  · exact inv_raise_of_readingHeader (s := { s.advance with acc := acc }) hstores nofun hread'

theorem sizeStep_inv (b : Byte) {s : State} (h : s.Inv) (hst : s.st = .uSize) : (sizeStep b s).Inv := by
  have herr := h.err_eq_none (by simp [hst])
  obtain ⟨hstores, -, hphase⟩ := h
  simp only [State.phaseHeld, hst] at hphase
  obtain ⟨hread, hlo, hhi⟩ := hphase
  cases he : s.srcExhausted
  · have hread' := readingHeader_advance hread he
    have hsucc := hread.toNat_advance_spos he
    rw [sizeStep_of_more b he hst]
    by_cases h7 : s.spos.toNat = 7 <;> simp only [h7, if_true, if_false]
    · exact inv_of_phaseHeld hstores herr nofun ⟨hread', hsucc.ge.trans' (by simp [h7]), hsucc.trans_lt (by simp [h7])⟩
    · refine inv_of_phaseHeld hstores herr nofun ⟨hread', hsucc.ge.trans' ?_, hsucc.trans_lt ?_⟩ <;>
        simp only at hlo hhi ⊢ <;> omega
  · rw [sizeStep, if_pos he]
    exact inv_raise_of_readingHeader hstores nofun hread

theorem padStep_inv {s : State} (h : s.Inv) (hst : s.st = .uPad) : (padStep s).Inv := by
  have herr := h.err_eq_none (by simp [hst])
  obtain ⟨hstores, -, hphase⟩ := h
  simp only [State.phaseHeld, hst] at hphase
  obtain ⟨hread, hlo, hhi⟩ := hphase
  cases he : s.srcExhausted
  · have hread' := readingHeader_advance hread he
    have hsucc := hread.toNat_advance_spos he
    rw [padStep_of_more he hst]
    by_cases h127 : s.spos.toNat = 127 <;> simp only [h127, if_true, if_false]
    · have hlook := hread'.lookback
      obtain ⟨hop, hle, hout, hfcnt, -⟩ := hread'
      rw [h127] at hsucc
      refine inv_of_phaseHeld hstores herr nofun ⟨⟨hop, hsucc.ge, hle, hlook⟩, ?_, hfcnt⟩
      simp [show s.outLen = 0 from hout]
    · refine inv_of_phaseHeld hstores herr nofun ⟨hread', hsucc.ge.trans' ?_, hsucc.trans_lt ?_⟩ <;>
        simp only at hlo hhi ⊢ <;> omega
  · rw [padStep, if_pos he]
    exact inv_raise_of_readingHeader hstores nofun hread

/-! ### The rules of the decoder (41_decoder.md R141 to R146) -/

theorem decoding_advance {s : State} (h : s.decoding) (he : s.srcExhausted = false) : s.advance.decoding := by
  obtain ⟨hop, hbody, hle, hlook⟩ := h
  obtain ⟨hsucc, hroom⟩ := spos_succ_of_not_exhausted hle he
  exact ⟨hop, hsucc.ge.trans' (hbody.trans (Nat.le_succ _)), hsucc.trans_le hroom, hlook⟩

theorem decoding_append {s : State} (v : Byte) (h : s.decoding) (howed : s.outLen.toNat < s.unpackedSize.toNat) :
    (s.append v).decoding := by
  obtain ⟨hop, hbody, hle, hlook⟩ := h
  exact ⟨hop, hbody, hle, lookback_append v hlook (Nat.lt_of_le_of_lt howed s.unpackedSize.isLt)⟩

theorem inv_raise_of_decoding {s : State} {kind : Err} (hstores : s.storesWf) (hkind : kind ≠ .none)
    (h : s.decoding) (howed : s.outLen.toNat < s.unpackedSize.toNat) : (s.raise kind).Inv := by
  obtain ⟨hop, -, -, hlook⟩ := h
  exact inv_raise hstores hkind hop hlook (.inl howed)

theorem outLen_lt_of_ne {s : State} (hle : s.outLen.toNat ≤ s.unpackedSize.toNat) (hne : s.outLen ≠ s.unpackedSize) :
    s.outLen.toNat < s.unpackedSize.toNat :=
  hle.lt_of_ne fun h => hne (BitVec.eq_of_toNat_eq h)

/-- An appended byte was owed, so `OUT_LEN` does not pass `UNPACKED_SIZE` (10_state.md R25). -/
theorem append_outLen_le {s : State} (v : Byte) (howed : s.outLen.toNat < s.unpackedSize.toNat) :
    (s.append v).outLen.toNat ≤ (s.append v).unpackedSize.toNat := by
  have hroom := s.unpackedSize.isLt
  rw [append_outLen, append_unpackedSize]
  bv_omega

theorem flagStep_inv (b : Byte) {s : State} (h : s.Inv) (hst : s.st = .dFlag) : (flagStep b s).Inv := by
  have herr := h.err_eq_none (by simp [hst])
  obtain ⟨hstores, -, hphase⟩ := h
  simp only [State.phaseHeld, hst] at hphase
  obtain ⟨hdec, hle, -⟩ := hphase
  rcases flagStep_cases b s with ⟨hdone, hs⟩ | ⟨hne, -, hs⟩ | ⟨hne, he, hs⟩ <;> rw [hs]
  · obtain ⟨hop, -, -, hlook⟩ := hdec
    exact inv_of_phaseHeld hstores herr nofun (.inl ⟨hop, hdone, hlook⟩)
  · exact inv_raise_of_decoding hstores nofun hdec (outLen_lt_of_ne hle hne)
  · exact inv_of_phaseHeld hstores herr nofun
      ⟨decoding_advance hdec he, outLen_lt_of_ne hle hne, (by decide : 1 ≤ 8), (by decide : 8 ≤ 8)⟩

/-- The phase after a byte has been appended with no Copy in progress (41_decoder.md R149). -/
theorem phaseHeld_afterToken {s : State} (hdec : s.decoding) (hle : s.outLen.toNat ≤ s.unpackedSize.toNat)
    (hcnt : s.fcnt.toNat < 8) : (s.goto s.afterToken).phaseHeld := by
  unfold State.afterToken
  split_ifs with hdone hzero
  · obtain ⟨hop, -, -, hlook⟩ := hdec
    exact .inl ⟨hop, hdone, hlook⟩
  · exact ⟨hdec, hle, hzero⟩
  · refine ⟨hdec, outLen_lt_of_ne hle hdone, Nat.one_le_iff_ne_zero.mpr fun h => hzero ?_, hcnt.le⟩
    exact BitVec.eq_of_toNat_eq h

theorem popFlag_fcnt_toNat {s : State} (h : 1 ≤ s.fcnt.toNat) : s.popFlag.fcnt.toNat = s.fcnt.toNat - 1 := by
  rw [popFlag_fcnt]
  bv_omega

theorem tokStep_inv (x : Byte) {s : State} (h : s.Inv) (hst : s.st = .dTok) : (tokStep x s).Inv := by
  have herr := h.err_eq_none (by simp [hst])
  obtain ⟨hstores, -, hphase⟩ := h
  simp only [State.phaseHeld, hst] at hphase
  obtain ⟨hdec, howed, hlo, hhi⟩ := hphase
  rcases tokStep_cases x s with ⟨-, hs⟩ | ⟨he, -, hs⟩ | ⟨he, -, hs⟩ <;> rw [hs]
  · exact inv_raise_of_decoding hstores nofun hdec howed
  all_goals
    have hdec' : s.popFlag.advance.decoding := decoding_advance hdec he
    have hcnt : s.popFlag.advance.fcnt.toNat < 8 := (popFlag_fcnt_toNat hlo).trans_lt (by omega)
  · exact inv_of_phaseHeld (storesWf_append x hstores) herr (afterToken_ne_failed _)
      (phaseHeld_afterToken (decoding_append x hdec' howed) (append_outLen_le (s := s.popFlag.advance) x howed) hcnt)
  · exact inv_of_phaseHeld hstores herr nofun ⟨hdec', howed, hcnt⟩

theorem lenStep_inv (y : Byte) {s : State} (h : s.Inv) (hst : s.st = .dLen) : (lenStep y s).Inv := by
  have herr := h.err_eq_none (by simp [hst])
  obtain ⟨hstores, -, hphase⟩ := h
  simp only [State.phaseHeld, hst] at hphase
  obtain ⟨hdec, howed, hcnt⟩ := hphase
  rcases lenStep_cases y s with ⟨-, hs⟩ | ⟨he, t, ht, hs⟩
  · rw [hs]
    exact inv_raise_of_decoding hstores nofun hdec howed
  obtain rfl : t = lengthLatched y s := ht
  have hdec' : (lengthLatched y s).decoding := decoding_advance hdec he
  rcases hs with ⟨-, hs⟩ | ⟨-, -, -, hs⟩ | ⟨hd, -, hs⟩ <;> rw [hs]
  · exact inv_raise_of_decoding hstores nofun hdec' howed
  · exact inv_raise_of_decoding hstores nofun hdec' howed
  · obtain ⟨hdlo, hdhi⟩ := mapD_range s.cfg s.distb
    obtain ⟨hllo, hlhi⟩ := mapL_range s.cfg y
    have hdist := lengthLatched_dist y s
    have hrem := lengthLatched_rem y s
    exact inv_of_phaseHeld hstores herr nofun ⟨hdec', howed, hdlo.trans hdist.ge,
      hdist.trans_le (Nat.le_min.mpr ⟨hdhi, hd⟩), hllo.trans hrem.ge, hrem.trans_le hlhi, hcnt⟩

/-- A Copy with bytes left goes on while output is owed; else the byte completes the token (41_decoder.md R146). -/
theorem afterCopiedByte_eq (s : State) :
    s.afterCopiedByte = if s.outLen ≠ s.unpackedSize ∧ s.rem ≠ 0 then .dCopy else s.afterToken := by
  unfold State.afterCopiedByte State.afterToken
  split_ifs <;> simp_all

theorem phaseHeld_afterCopiedByte {s : State} (hdec : s.decoding) (hle : s.outLen.toNat ≤ s.unpackedSize.toNat)
    (hcnt : s.fcnt.toNat < 8) (hdist : s.distanceHeld) (hrem : s.rem.toNat ≤ 256) :
    (s.goto s.afterCopiedByte).phaseHeld := by
  rw [afterCopiedByte_eq]
  split_ifs with hmore
  · obtain ⟨hne, hrem0⟩ := hmore
    obtain ⟨hlo, hhi⟩ := hdist
    exact ⟨hdec, outLen_lt_of_ne hle hne, hlo, hhi,
      Nat.one_le_iff_ne_zero.mpr fun h => hrem0 (BitVec.eq_of_toNat_eq h), hrem, hcnt⟩
  · exact phaseHeld_afterToken hdec hle hcnt

theorem copyStep_inv {s : State} (h : s.Inv) (hst : s.st = .dCopy) : (copyStep s).Inv := by
  have herr := h.err_eq_none (by simp [hst])
  obtain ⟨hstores, -, hphase⟩ := h
  simp only [State.phaseHeld, hst] at hphase
  obtain ⟨hdec, howed, hlo, hhi, hrem, hrem', hcnt⟩ := hphase
  have hdist := copyStep_distanceHeld ⟨hlo, hhi⟩ (Nat.lt_of_le_of_lt howed s.unpackedSize.isLt)
  have hrem1 : (s.rem - 1).toNat ≤ 256 := by bv_omega
  have hdec' := decoding_append (s.histByte (lookbackIndex s)) hdec howed
  have hle := append_outLen_le (s.histByte (lookbackIndex s)) howed
  exact inv_of_phaseHeld (storesWf_append _ hstores) herr (afterCopiedByte_ne_failed _)
    (phaseHeld_afterCopiedByte hdec' hle hcnt hdist hrem1)

/-! ### The rules of the encoder (40_header_codec.md R126; 42_encoder.md R186 to R190) -/

theorem packing_emit {s : State} (v : Byte) (h : s.packing) (hroom : s.dpos.toNat < 2 ^ 33) : (s.emit v).packing := by
  obtain ⟨hop, hlen, hsize, hout, hspos, hp, hlists⟩ := h
  have hsucc : (s.dpos + 1).toNat = s.dpos.toNat + 1 := by bv_omega
  refine ⟨hop, hlen, hsize, hout, hspos, hp, ?_⟩
  rw [emit_dst, emit_dpos, hsucc]
  exact listsBelow_put v hlists

theorem withinBudget_mono {s : State} {flushed slack slack' : Nat} (h : s.withinBudget flushed slack)
    (hle : slack ≤ slack') : s.withinBudget flushed slack' := by
  obtain ⟨hout, hbudget⟩ := h
  exact ⟨hout, hbudget.trans (Nat.add_le_add_left hle _)⟩

theorem hdrStep_inv {s : State} (h : s.Inv) (hst : s.st = .pHdr) : (hdrStep s).Inv := by
  have herr := h.err_eq_none (by simp [hst])
  have hheld := h.operandsHeld
  obtain ⟨hstores, -, hphase⟩ := h
  simp only [State.phaseHeld, hst] at hphase
  obtain ⟨hpack, hcnt, hdpos, hp, hgcnt, hglen, hgidx, hgflags⟩ := hphase
  have hpack' := packing_emit (emittedHeaderByte s) hpack (dpos_room_of_operandsHeld (.inl hst) hheld)
  have hstores' := storesWf_emit (emittedHeaderByte s) hstores
  have hcnt' : (s.hcnt + 1).toNat = s.hcnt.toNat + 1 := by bv_omega
  have hdpos' : (s.dpos + 1).toNat = s.hcnt.toNat + 1 := by bv_omega
  rw [hdrStep_eq]
  by_cases hlast : s.hcnt.toNat + 1 = 128 <;> simp only [hlast, hst, if_true, if_false]
  · rw [hlast] at hdpos'
    have hgroup : s.groupHeld := ⟨by simp [hgcnt], by simp [hglen], by simp [hglen]⟩
    have hbudget : 8 * ((s.dpos + 1).toNat - 128 - 0) + 8 * s.glen.toNat + s.gcnt.toNat ≤ 9 * s.p.toNat := by
      rw [hdpos', hglen, hgcnt]
      exact Nat.zero_le _
    exact inv_of_phaseHeld hstores' herr nofun
      ⟨hpack', hgroup, by simp [hgcnt], hgidx, hdpos'.ge, hbudget.trans (Nat.le_add_right _ _)⟩
  · exact inv_of_phaseHeld hstores' herr nofun
      ⟨hpack', hcnt'.trans_lt (by simp only at hcnt ⊢; omega), hdpos'.trans hcnt'.symm, hp, hgcnt, hglen, hgidx,
        hgflags⟩

/-- What the scan keeps holds at its start, where no candidate has been looked at (42_encoder.md R186). -/
theorem scanHeld_start {s : State} (hp : s.p.toNat < s.srcLen.toNat) :
    State.scanHeld { s with cd := 1, cl := 0, bd := 0, bl := 0, st := .pScan } :=
  ⟨hp, le_refl 1, Nat.le_add_left 1 _, Nat.zero_le _, Nat.zero_le _, fun h => absurd h (Nat.not_succ_le_zero 0)⟩

theorem nextStep_inv {s : State} (h : s.Inv) (hst : s.st = .pNext) : (nextStep s).Inv := by
  have herr := h.err_eq_none (by simp [hst])
  obtain ⟨hstores, -, hphase⟩ := h
  simp only [State.phaseHeld, hst] at hphase
  obtain ⟨hpack, hgroup, hcnt, hidx, hbudget⟩ := hphase
  rcases nextStep_cases s with ⟨hend, hpending, hs⟩ | ⟨hend, hempty, hs⟩ | ⟨hmore, hs⟩ <;> rw [hs]
  · rw [if_neg fun hnone => by simp [hnone.1] at hpending] at hbudget
    have hidx' : s.gidx.toNat = 0 := by rw [hidx]; rfl
    have hbudget' : s.withinBudget s.gidx.toNat 0 := by rwa [hidx']
    exact inv_of_phaseHeld hstores herr nofun
      ⟨hpack, hgroup, hpending, hcnt.le, hidx'.trans_le (Nat.zero_le _), .inr hend, hbudget'⟩
  · obtain ⟨hop, -, -, hout, hspos, -, hlists⟩ := hpack
    exact inv_of_phaseHeld hstores herr nofun (.inr ⟨hop, hout, hspos, hlists⟩)
  · rw [if_neg fun hend => hmore hend.2] at hbudget
    have ⟨_, _, _, _, _, hple, _⟩ := hpack
    exact inv_of_phaseHeld hstores herr nofun
      ⟨hpack, hgroup, hcnt, hidx, hbudget, scanHeld_start (hple.lt_of_ne hmore)⟩

theorem maxDistAt_le (s : State) : maxDistAt s ≤ 256 := Nat.min_le_left _ _

theorem maxLenAt_le (s : State) : maxLenAt s ≤ 256 := Nat.min_le_left _ _

/-- One more byte of the candidate agrees (42_encoder.md R187). -/
theorem scanHeld_extend {s : State} (h : s.scanHeld) (hcl : s.cl.toNat < maxLenAt s) :
    State.scanHeld { s with cl := s.cl + 1 } := by
  obtain ⟨hp, hlo, hhi, -, hbl, hbd⟩ := h
  have hmax := maxLenAt_le s
  have hsucc : (s.cl + 1).toNat = s.cl.toNat + 1 := by bv_omega
  exact ⟨hp, hlo, hhi, hsucc.trans_le hcl, hbl, hbd⟩

/-- The candidate is dropped: it is no longer than the best so far (42_encoder.md R187). -/
theorem scanHeld_drop {s : State} (h : s.scanHeld) (hcd : s.cd.toNat ≤ maxDistAt s) :
    State.scanHeld { s with cd := s.cd + 1, cl := 0 } := by
  obtain ⟨hp, hlo, -, -, hbl, hbd⟩ := h
  have hmax := maxDistAt_le s
  have hsucc : (s.cd + 1).toNat = s.cd.toNat + 1 := by bv_omega
  exact ⟨hp, hsucc.ge.trans' (Nat.le_add_left 1 _), hsucc.trans_le (Nat.succ_le_succ hcd), Nat.zero_le _, hbl, hbd⟩

/-- The candidate becomes the best so far: its length and its distance are within bounds (42_encoder.md R187). -/
theorem scanHeld_keep {s : State} (h : s.scanHeld) (hcd : s.cd.toNat ≤ maxDistAt s) :
    State.scanHeld { s with bl := s.cl, bd := s.cd } := by
  obtain ⟨hp, hlo, hhi, hcl, -, -⟩ := h
  exact ⟨hp, hlo, hhi, hcl, hcl, fun _ => ⟨hlo, hcd⟩⟩

theorem scanStep_inv {s : State} (h : s.Inv) (hst : s.st = .pScan) : (scanStep s).Inv := by
  have herr := h.err_eq_none (by simp [hst])
  obtain ⟨hstores, -, hphase⟩ := h
  simp only [State.phaseHeld, hst] at hphase
  obtain ⟨hpack, hgroup, hcnt, hidx, hbudget, hscan⟩ := hphase
  have hscanning {t : State} (ht : t = { s with cd := t.cd, cl := t.cl, bd := t.bd, bl := t.bl })
      (hscan' : t.scanHeld) : t.Inv := by
    rw [ht] at hscan' ⊢
    refine inv_of_phaseHeld hstores herr (by simp [hst]) ?_
    simp only [State.phaseHeld, hst]
    exact ⟨hpack, hgroup, hcnt, hidx, hbudget, hscan'⟩
  rcases scanStep_cases s with ⟨-, hs⟩ | ⟨-, hcl, -, hs⟩ | ⟨hcd, -, ⟨-, hs⟩ | ⟨-, hs⟩⟩ <;> rw [hs]
  · exact inv_of_phaseHeld hstores herr nofun ⟨hpack, hgroup, hcnt, hidx, hbudget, hscan⟩
  · exact hscanning rfl (scanHeld_extend hscan hcl)
  · exact hscanning rfl (scanHeld_drop (scanHeld_keep hscan hcd) hcd)
  · exact hscanning rfl (scanHeld_drop hscan hcd)

/-- A token joins the group with one or two bytes (42_encoder.md R189). -/
theorem groupHeld_queue {s : State} {gbuf : Mem} {glen : BitVec 5} (h : s.groupHeld) (hcnt : s.gcnt.toNat < 8)
    (hlo : s.glen.toNat + 1 ≤ glen.toNat) (hhi : glen.toNat ≤ s.glen.toNat + 2)
    (hwritten : ∀ j, j < glen.toNat → (Mem.cell? gbuf j).isSome = true) :
    State.groupHeld { s with gcnt := s.gcnt + 1, gbuf := gbuf, glen := glen } := by
  obtain ⟨hge, hle, -⟩ := h
  have hgcnt : (s.gcnt + 1).toNat = s.gcnt.toNat + 1 := by bv_omega
  exact ⟨hgcnt.trans_le (show _ ≤ glen.toNat by omega), hhi.trans (by simp only [hgcnt]; omega), hwritten⟩

/-- A token that consumes a byte for each byte of its payload costs 9 eighths of a byte at most for each, its selector
being the eighth (42_encoder.md R199). -/
theorem withinBudget_queue {s : State} {flushed : Nat} {glen : BitVec 5} {p : Word} (h : s.withinBudget flushed 0)
    (hcnt : s.gcnt.toNat < 8) (hlo : s.glen.toNat + 1 ≤ glen.toNat)
    (hp : s.p.toNat + glen.toNat ≤ p.toNat + s.glen.toNat) :
    State.withinBudget { s with gcnt := s.gcnt + 1, glen := glen, p := p } flushed 0 := by
  obtain ⟨hout, hbudget⟩ := h
  have hgcnt : (s.gcnt + 1).toNat = s.gcnt.toNat + 1 := by bv_omega
  refine ⟨hout, ?_⟩
  simp only [hgcnt] at hbudget ⊢
  omega

/-- The invariant once a token has joined the group, which is flushed when it is full (42_encoder.md R189). -/
theorem inv_queue {s : State} {gflags : Byte} {gbuf : Mem} {glen : BitVec 5} {p : Word} (h : s.Inv)
    (hst : s.st = .pEmit) (hstores : State.storesWf { s with gbuf := gbuf })
    (hlo : s.glen.toNat + 1 ≤ glen.toNat) (hhi : glen.toNat ≤ s.glen.toNat + 2)
    (hwritten : ∀ j, j < glen.toNat → (Mem.cell? gbuf j).isSome = true)
    (hp : s.p.toNat + glen.toNat ≤ p.toNat + s.glen.toNat) (hple : p.toNat ≤ s.srcLen.toNat) :
    State.Inv { s with gflags := gflags, gbuf := gbuf, glen := glen, p := p, gcnt := s.gcnt + 1,
                       st := if s.gcnt.toNat + 1 = 8 then .pFlush else .pNext } := by
  have herr := h.err_eq_none (by simp [hst])
  obtain ⟨-, -, hphase⟩ := h
  simp only [State.phaseHeld, hst] at hphase
  obtain ⟨hpack, hgroup, hcnt, hidx, hbudget, -⟩ := hphase
  have hgroup' := groupHeld_queue hgroup hcnt hlo hhi hwritten
  have hgcnt : (s.gcnt + 1).toNat = s.gcnt.toNat + 1 := by bv_omega
  obtain ⟨hop, hlen, hsize, hout, hspos, -, hlists⟩ := hpack
  have hpack' : State.packing { s with p := p } := ⟨hop, hlen, hsize, hout, hspos, hple, hlists⟩
  split_ifs with hfull
  · have hidx' : s.gidx.toNat = 0 := by rw [hidx]; rfl
    have hbudget' : s.withinBudget s.gidx.toNat 0 := by rwa [hidx']
    exact inv_of_phaseHeld hstores herr nofun ⟨hpack', hgroup', hgcnt.ge.trans' (Nat.le_add_left 1 _),
      (hgcnt.trans hfull).le, hidx'.trans_le (Nat.zero_le _), .inl (hgcnt.trans hfull),
      withinBudget_queue hbudget' hcnt hlo hp⟩
  · exact inv_of_phaseHeld hstores herr nofun ⟨hpack', hgroup', hgcnt.trans_lt (show _ < 8 by omega), hidx,
      withinBudget_mono (withinBudget_queue hbudget hcnt hlo hp) (Nat.zero_le _)⟩

theorem cell?_put_isSome {m : Mem} {a x : Nat} (v : Byte) (h : x ≠ a → (Mem.cell? m x).isSome = true) :
    (Mem.cell? (Mem.put m a v) x).isSome = true := by
  rw [cell?_put]
  split_ifs with hx
  · rfl
  · exact h hx

theorem emitStep_inv {s : State} (h : s.Inv) (hst : s.st = .pEmit) : (emitStep s).Inv := by
  have ⟨hstores, _, hphase⟩ := h
  simp only [State.phaseHeld, hst] at hphase
  obtain ⟨⟨-, hlen, -⟩, ⟨-, hglen, hwritten⟩, hcnt, -, -, hscan⟩ := hphase
  obtain ⟨hfit, -⟩ := hscan.match_fits
  obtain ⟨hmore, -⟩ := hscan
  obtain ⟨x, rfl, ⟨hlong, hs⟩ | ⟨-, hs⟩⟩ := emitStep_cases s <;> rw [hs]
  · have hglen' : (s.glen + 2).toNat = s.glen.toNat + 2 := by bv_omega
    have hp : (s.p + s.bl.setWidth 32).toNat = s.p.toNat + s.bl.toNat := by bv_omega
    have hpaid : s.p.toNat + (s.glen + 2).toNat ≤ (s.p + s.bl.setWidth 32).toNat + s.glen.toNat := by omega
    refine inv_queue (s := s) h hst (storesWf_gbuf_put _ (storesWf_gbuf_put _ hstores (by omega)) (by omega))
      (hglen'.ge.trans' (Nat.le_succ _)) hglen'.le (fun j hj => ?_) hpaid (hp.trans_le hfit)
    have hj' := hj.trans_eq hglen'
    exact cell?_put_isSome _ fun _ => cell?_put_isSome _ fun _ => hwritten j (by omega)
  · have hglen' : (s.glen + 1).toNat = s.glen.toNat + 1 := by bv_omega
    have hp : (s.p + 1).toNat = s.p.toNat + 1 := by bv_omega
    have hpaid : s.p.toNat + (s.glen + 1).toNat ≤ (s.p + 1).toNat + s.glen.toNat := by omega
    refine inv_queue (s := s) h hst (storesWf_gbuf_put _ hstores (by omega)) hglen'.ge
      (hglen'.trans_le (Nat.le_succ _)) (fun j hj => ?_) hpaid (hp.trans_le hmore)
    have hj' := hj.trans_eq hglen'
    exact cell?_put_isSome _ fun _ => hwritten j (by omega)

theorem flushStep_inv {s : State} (h : s.Inv) (hst : s.st = .pFlush) : (flushStep s).Inv := by
  have herr := h.err_eq_none (by simp [hst])
  have hroom := dpos_room_of_operandsHeld (.inr hst) h.operandsHeld
  obtain ⟨hstores, -, hphase⟩ := h
  simp only [State.phaseHeld, hst] at hphase
  obtain ⟨hpack, hgroup, hcnt, hcnt', hidx, hwhy, hout, hbudget⟩ := hphase
  have hpack' := packing_emit (flushedByte s) hpack hroom
  have hstores' := storesWf_emit (flushedByte s) hstores
  have hdpos : (s.dpos + 1).toNat = s.dpos.toNat + 1 := by bv_omega
  simp only at hout hbudget
  rcases flushStep_cases s with ⟨hlast, hs⟩ | ⟨hmore, hs⟩ <;> rw [hs]
  · have hflushed : 8 * (s.dpos.toNat + 1 - 128 - 0) + 8 * 0 + 0 ≤
        9 * s.p.toNat + if (0 : BitVec 4) = 0 ∧ s.p.toNat = s.srcLen.toNat then 7 else 0 := by
      rcases hwhy with hfull | hend
      · exact Nat.le_add_right_of_le (by omega)
      · rw [if_pos ⟨rfl, hend⟩]
        omega
    refine inv_of_phaseHeld hstores' herr nofun
      ⟨hpack', ⟨le_refl 0, le_refl 0, fun _ hj => absurd hj (Nat.not_lt_zero _)⟩, Nat.succ_pos 7, rfl, ?_, ?_⟩
    · simp only [emit_dpos, hdpos]
      omega
    · rw [← hdpos] at hflushed
      exact hflushed
  · have hglen := hgroup.glen_le
    have hidx' : (s.gidx + 1).toNat = s.gidx.toNat + 1 := by bv_omega
    refine inv_of_phaseHeld hstores' herr (by simp [hst]) ?_
    simp only [State.phaseHeld, emit_st, hst]
    refine ⟨hpack', hgroup, hcnt, hcnt', hidx'.trans_le (by simp only [emit_glen]; omega), hwhy, ?_, ?_⟩ <;>
      simp only [emit_dpos, hdpos, hidx', emit_glen, emit_gcnt, emit_p] <;> omega

/-! ### The rule of `ST`, and the host's events -/

theorem ruleStep_inv {s : State} (h : s.Inv) : s.ruleStep.Inv := by
  cases hst : s.st <;> simp only [State.ruleStep, hst]
  case idle | done | failed => exact h
  case uMagic => exact magicStep_inv _ h hst
  case uSize => exact sizeStep_inv _ h hst
  case uPad => exact padStep_inv h hst
  case dFlag => exact flagStep_inv _ h hst
  case dTok => exact tokStep_inv _ h hst
  case dLen => exact lenStep_inv _ h hst
  case dCopy => exact copyStep_inv h hst
  case pHdr => exact hdrStep_inv h hst
  case pNext => exact nextStep_inv h hst
  case pScan => exact scanStep_inv h hst
  case pEmit => exact emitStep_inv h hst
  case pFlush => exact flushStep_inv h hst

theorem blockStep_inv {s t : State} (h : s.Inv) (hstep : blockStep s = .next t) : t.Inv := by
  obtain ⟨-, rfl⟩ := blockStep_next_iff.mp hstep
  exact ruleStep_inv h

/-- START empties DST and keeps the other stores (43_container.md R223). -/
theorem storesWf_start {s : State} (op : Op) (st : St) (n : Word) (h : s.storesWf) : (s.start op st n).storesWf := by
  obtain ⟨hsrc, -, hrest⟩ := h
  exact ⟨hsrc, rfl, hrest⟩

theorem inv_start_unpack {s : State} (h : s.storesWf) : (s.start .unpack .uMagic 0).Inv :=
  inv_of_phaseHeld (storesWf_start _ _ _ h) rfl nofun
    ⟨⟨rfl, Nat.zero_le _, rfl, rfl, rfl⟩, Nat.succ_pos 3, rfl⟩

theorem inv_start_pack {s : State} (h : s.storesWf) (hlen : s.srcLen.toNat < 2 ^ 32) :
    (s.start .pack .pHdr (s.srcLen.setWidth 32)).Inv :=
  inv_of_phaseHeld (storesWf_start _ _ _ h) rfl nofun
    ⟨⟨rfl, hlen, by rw [start_unpackedSize, BitVec.toNat_setWidth, Nat.mod_eq_of_lt hlen]; rfl, rfl, rfl,
      Nat.zero_le _, rfl⟩, Nat.succ_pos 127, rfl, rfl, rfl, rfl, rfl, rfl⟩

theorem hostWriteCmd_inv {v : BitVec 2} {s t : State} (h : s.Inv) (hcmd : hostWriteCmd v s = .next t) : t.Inv := by
  have ⟨hstores, _⟩ := h
  rcases cmd_value_cases v with rfl | rfl | hv
  · rcases execUnpack_next hcmd with ⟨-, rfl⟩ | ⟨-, rfl⟩
    · exact h
    · exact inv_start_unpack hstores
  · rcases execPack_next hcmd with ⟨-, rfl⟩ | ⟨-, hlen, rfl⟩ | ⟨-, -, rfl⟩
    · exact h
    · exact inv_start_pack hstores hlen
    · exact h
  · rw [hostWriteCmd_of_no_command hv] at hcmd
    cases hcmd
    exact h

/-- Outside a run the invariant says nothing of the source but that SRC is in canonical form, so the host may change it
(43_container.md R220). -/
theorem inv_of_source_changed {s : State} {src : Mem} {srcLen : Pos} (h : s.Inv) (hidle : s.busy = false)
    (hsrc : src.wf = true) : State.Inv { s with src := src, srcLen := srcLen } := by
  obtain ⟨⟨-, hstores⟩, herr, hphase⟩ := h
  refine ⟨⟨hsrc, hstores⟩, herr, ?_⟩
  cases hst : s.st <;> simp only [State.phaseHeld, hst] at hphase ⊢
  case idle | done | failed => exact hphase
  all_goals simp [State.busy, hst] at hidle

theorem hostWriteSrcLen_inv (v : Pos) {s : State} (h : s.Inv) : (hostWriteSrcLen v s).Inv := by
  unfold hostWriteSrcLen
  split_ifs with hbusy
  · exact h
  · have ⟨⟨hsrc, _⟩, _⟩ := h
    exact inv_of_source_changed h (Bool.eq_false_of_not_eq_true hbusy) hsrc

theorem hostLoad_inv {bytes : List Byte} {s t : State} (h : s.Inv) (hload : hostLoad bytes s = .next t) : t.Inv := by
  rcases hostLoad_cases bytes s with ⟨hidle, hs⟩ | ⟨-, hs⟩ <;> rw [hs] at hload <;> cases hload
  exact inv_of_source_changed h hidle (wf_ofBytes 0 bytes)

theorem hostReset_inv {s : State} (h : s.Inv) : (hostReset s).Inv := by
  obtain ⟨⟨hsrc, hdst, -⟩, -⟩ := h
  exact inv_of_phaseHeld ⟨hsrc, hdst, rfl, rfl, nofun, nofun⟩ rfl nofun rfl

/-- Settles O39: the rule of every `ST` and every event of the host keep the invariant. -/
theorem stepKeepsTheInvariant : Obligations.StepKeepsTheInvariant := by
  intro s t h hstep
  rcases step_cases s with ⟨-, hs⟩ | ⟨e, later, -, r, rfl, hevent⟩
  · exact blockStep_inv h (hs.symm.trans hstep)
  have hr : State.Inv { s with host := later } := h
  rcases hevent with ⟨-, hs⟩ | ⟨v, -, hs⟩ | ⟨v, -, hs⟩ | ⟨reg, v, -, hs⟩ | ⟨bytes, -, hs⟩ | ⟨-, hs⟩ <;>
    rw [hs] at hstep
  · exact blockStep_inv hr hstep
  · exact hostWriteCmd_inv hr hstep
  · cases hstep
    exact hostWriteSrcLen_inv v hr
  · cases hstep
    exact hr
  · exact hostLoad_inv hr hstep
  · cases hstep
    exact hostReset_inv hr

end Sys2Proof.Machine

/-! ## The effect of a whole Copy token (41_decoder.md R147): its bytes repeat the block of `d` bytes before it

The state after `n` copied bytes is related to the state at the token's first byte by `Copied`; one `D_COPY` step leads
from `n` bytes to `n + 1` while bytes are left and output is owed. -/

namespace Sys2Proof.Machine

/-- `t` is the state after `n` bytes of the Copy that `s` begins: the bytes from `OUT_LEN - DIST` on repeat the first
`DIST` of them, those below are kept, and nothing but the output, `REM` and `ST` has changed. -/
structure Copied (s : State) (n : Nat) (t : State) : Prop where
  inv : t.Inv
  frame : t = { s with outLen := t.outLen, rem := t.rem, dst := t.dst, hist := t.hist, st := t.st }
  outLen : t.outLen.toNat = s.outLen.toNat + n
  rem : t.rem.toNat = s.rem.toNat - n
  st : t.st = t.afterCopiedByte
  below : ∀ a, a < s.outLen.toNat → Mem.cell? t.dst a = Mem.cell? s.dst a
  block : ∀ j, j < s.dist.toNat + n →
    Mem.cell? t.dst (s.outLen.toNat - s.dist.toNat + j) =
      Mem.cell? s.dst (s.outLen.toNat - s.dist.toNat + j % s.dist.toNat)

/-- What the invariant says of a Copy in progress (41_decoder.md R156). -/
theorem State.Inv.copying {s : State} (h : s.Inv) (hst : s.st = .dCopy) :
    s.lookback ∧ s.outLen.toNat < s.unpackedSize.toNat ∧ s.distanceHeld ∧ 1 ≤ s.rem.toNat ∧ s.rem.toNat ≤ 256 := by
  obtain ⟨-, -, hphase⟩ := h
  simp only [State.phaseHeld, hst] at hphase
  obtain ⟨⟨-, -, -, hlook⟩, howed, hlo, hhi, hrem, hrem', -⟩ := hphase
  exact ⟨hlook, howed, ⟨hlo, hhi⟩, hrem, hrem'⟩

/-- A Copy goes on exactly while it has bytes left and output is owed (41_decoder.md R146). -/
theorem afterCopiedByte_eq_dCopy {s : State} (hsize : s.outLen.toNat < s.unpackedSize.toNat) (hrem : 1 ≤ s.rem.toNat) :
    s.afterCopiedByte = .dCopy := by
  rw [afterCopiedByte_eq, if_pos]
  exact ⟨fun h => Nat.ne_of_lt hsize (congrArg BitVec.toNat h), fun h => Nat.ne_of_gt hrem (congrArg BitVec.toNat h)⟩

theorem copied_zero {s : State} (h : s.Inv) (hst : s.st = .dCopy) : Copied s 0 s := by
  obtain ⟨-, howed, ⟨hlo, hhi⟩, hrem, -⟩ := h.copying hst
  refine ⟨h, rfl, rfl, rfl, hst.trans (afterCopiedByte_eq_dCopy howed hrem).symm, fun _ _ => rfl, fun j hj => ?_⟩
  rw [Nat.mod_eq_of_lt (show j < s.dist.toNat from hj)]

/-- The byte a `D_COPY` step appends is the one `DIST` back in DST (10_state.md R37; 41_decoder.md R151). -/
theorem copyStep_cell? {s : State} (hlook : s.lookback) (hdist : s.distanceHeld) (a : Nat) :
    Mem.cell? (copyStep s).dst a =
      if a = s.outLen.toNat then Mem.cell? s.dst (s.outLen.toNat - s.dist.toNat) else Mem.cell? s.dst a := by
  obtain ⟨hlo, hhi⟩ := hdist
  obtain ⟨b, hdst, hhist⟩ := hist_at_distance hlook hlo hhi
  have hread : s.histByte (lookbackIndex s) = b := by
    rw [State.histByte, show Mem.cell? s.hist (lookbackIndex s) = some b from hhist, Option.getD_some]
  rw [copyStep_written, cell?_put, hread, hdst]

theorem copied_succ {s t : State} {n : Nat} (hdist : s.distanceHeld) (h : Copied s n t) (hst : t.st = .dCopy) :
    Copied s (n + 1) (copyStep t) := by
  obtain ⟨hinv, hframe, hlen, hrem, -, hbelow, hblock⟩ := h
  obtain ⟨hlook, howed, hdist', hrlo, -⟩ := hinv.copying hst
  obtain ⟨hlo, hhi⟩ := hdist
  have hd : t.dist = s.dist := by rw [hframe]
  have hsize := t.unpackedSize.isLt
  have hcell := copyStep_cell? hlook hdist'
  refine ⟨copyStep_inv hinv hst, ?_, ?_, ?_, rfl, fun a ha => ?_, fun j hj => ?_⟩
  · rw [copyStep_frame, hframe]
  · rw [copyStep_written]
    bv_omega
  · rw [copyStep_written]
    bv_omega
  · rw [hcell, if_neg (by omega), hbelow a ha]
  · rw [hcell, hlen, hd]
    split_ifs with hj'
    · obtain rfl : j = s.dist.toNat + n := by omega
      rw [Nat.sub_add_comm (by omega), hblock n (by omega), Nat.add_mod_left]
    · exact hblock j (by omega)

theorem copied_run {s : State} {n : Nat} (h : s.Inv) (hhost : s.host = []) (hst : s.st = .dCopy)
    (hrem : n ≤ s.rem.toNat) (hroom : n ≤ s.unpackedSize.toNat - s.outLen.toNat) :
    ∃ t, runFor n s = .next t ∧ Copied s n t := by
  induction n with
  | zero => exact ⟨s, rfl, copied_zero h hst⟩
  | succ n ih =>
    obtain ⟨t, hrun, ht⟩ := ih (Nat.le_of_succ_le hrem) (Nat.le_of_succ_le hroom)
    obtain ⟨-, -, hdist, -⟩ := h.copying hst
    have hsize : t.unpackedSize = s.unpackedSize := by rw [ht.frame]
    have hlen := ht.outLen
    have hleft := ht.rem
    have hst' : t.st = .dCopy := ht.st.trans (afterCopiedByte_eq_dCopy (by rw [hsize]; omega) (by omega))
    have hhost' : t.host = [] := by rw [ht.frame, hhost]
    exact ⟨copyStep t, runFor_succ_of_last hrun (step_of_dCopy hhost' hst' ht.inv.operandsHeld),
      copied_succ hdist ht hst'⟩

/-- Once the Copy has no byte left or the output is complete, its token is done (41_decoder.md R146, R149). -/
theorem Copied.token_done {s t : State} {n : Nat} (h : Copied s n t) (hle : s.outLen.toNat ≤ s.unpackedSize.toNat)
    (hn : n = min s.rem.toNat (s.unpackedSize.toNat - s.outLen.toNat)) : t.st = t.afterToken := by
  rw [h.st, afterCopiedByte_eq, if_neg]
  rintro ⟨hne, hrem0⟩
  have hsize : t.unpackedSize = s.unpackedSize := by rw [h.frame]
  have hlen := h.outLen
  have hrem := h.rem
  bv_omega

/-! ### The two payload bytes -/

/-- The state in which a Copy's first byte is copied: its selector and its payload are taken (41_decoder.md R145). -/
def copyStarted (s : State) : State :=
  (lengthLatched (s.srcByte (s.spos.toNat + 1)) (distanceLatched (s.srcByte s.spos.toNat) s)).goto .dCopy

theorem copyStarted_outLen (s : State) : (copyStarted s).outLen = s.outLen := rfl

theorem copyStarted_dist (s : State) : (copyStarted s).dist.toNat = mapD s.cfg (s.srcByte s.spos.toNat) :=
  lengthLatched_dist (s.srcByte (s.spos.toNat + 1)) (distanceLatched (s.srcByte s.spos.toNat) s)

theorem copyStarted_rem (s : State) : (copyStarted s).rem.toNat = mapL s.cfg (s.srcByte (s.spos.toNat + 1)) :=
  lengthLatched_rem (s.srcByte (s.spos.toNat + 1)) (distanceLatched (s.srcByte s.spos.toNat) s)

/-- The two steps that take the payload, where the checks pass (41_decoder.md R145). -/
theorem runFor_copyStarted {s : State} (h : s.Inv) (hhost : s.host = []) (hst : s.st = .dTok)
    (hsel : s.selector = true) (hmore : s.spos.toNat + 2 ≤ s.srcLen.toNat)
    (hd : mapD s.cfg (s.srcByte s.spos.toNat) ≤ s.outLen.toNat)
    (hroom : s.cfg.overshoot = .fault →
      s.outLen.toNat + mapL s.cfg (s.srcByte (s.spos.toNat + 1)) ≤ s.unpackedSize.toNat) :
    runFor 2 s = .next (copyStarted s) ∧ (copyStarted s).Inv := by
  have hend := s.srcLen.isLt
  have htok := step_of_dTok hhost hst h.operandsHeld
  rw [tokStep_of_lz _ (srcExhausted_of_lt (by omega)) hsel] at htok
  have hspos : (distanceLatched (s.srcByte s.spos.toNat) s).spos.toNat = s.spos.toNat + 1 :=
    show (s.spos + 1).toNat = _ by bv_omega
  have hbefore : (distanceLatched (s.srcByte s.spos.toNat) s).spos.toNat < s.srcLen.toNat := by omega
  obtain ⟨-, -, hfits⟩ := lenStep_of_more (s.srcByte (s.spos.toNat + 1)) (srcExhausted_of_lt hbefore)
  have hinv := stepKeepsTheInvariant _ _ h htok
  have hlen := step_of_dLen (s := distanceLatched (s.srcByte s.spos.toNat) s) hhost rfl hinv.operandsHeld
  rw [hspos] at hlen
  have hlen' := hlen.trans (congrArg _ (hfits hd hroom))
  refine ⟨?_, stepKeepsTheInvariant _ _ hinv hlen'⟩
  rw [runFor_succ_of_next htok, runFor_succ_of_next hlen', runFor_zero]
  rfl

/-- Settles O55: the two payload steps, the copied bytes by induction, and `TokenDone` at the end; byte `j` lies `d`
places above the start of the block that `Copied` tells of. -/
theorem copyTokenRepeatsTheBlock : Obligations.CopyTokenRepeatsTheBlock := by
  rintro s d l m h hhost hst hsel hmore rfl rfl rfl hd hroom
  have ⟨_, _, hphase⟩ := h
  simp only [State.phaseHeld, hst] at hphase
  obtain ⟨-, howed, hcnt, -⟩ := hphase
  obtain ⟨hrun, hinv⟩ := runFor_copyStarted h hhost hst hsel hmore hd fun hf => by have := hroom hf; omega
  have hrem := copyStarted_rem s
  obtain ⟨t, hrun', ht⟩ := copied_run hinv hhost rfl ((Nat.min_le_left _ _).trans hrem.ge) (Nat.min_le_right _ _)
  obtain ⟨hlo, -⟩ := mapL_range s.cfg (s.srcByte (s.spos.toNat + 1))
  have hdone := ht.token_done howed.le (by rw [hrem, copyStarted_outLen])
  refine ⟨t, (runFor_add hrun).trans hrun', Nat.le_min.mpr ⟨hlo, by omega⟩, ?_, ht.outLen, ?_, ht.below,
    fun j hj => ?_, ?_⟩
  · have hend := s.srcLen.isLt
    rw [ht.frame]
    exact show (s.spos + 1 + 1).toNat = _ by bv_omega
  · rw [ht.frame]
    exact h.err_eq_none (by simp [hst])
  · have hblock := ht.block (mapD s.cfg (s.srcByte s.spos.toNat) + j)
      (by rw [copyStarted_dist]; exact Nat.add_lt_add_left hj _)
    rw [copyStarted_dist, copyStarted_outLen, ← Nat.add_assoc, Nat.sub_add_cancel hd, Nat.add_mod_left] at hblock
    exact hblock
  · have hsize : t.unpackedSize = s.unpackedSize := by rw [ht.frame]; rfl
    have hfcnt : t.fcnt = s.fcnt - 1 := by rw [ht.frame]; rfl
    rw [hdone, State.afterToken, hsize, hfcnt]
    simp only [sub_one_eq_zero_iff (by decide : 0 < 4) s.fcnt]

end Sys2Proof.Machine

/-! ## Match search: `mlen` and `best` of the function level (42_encoder.md R181, R183) -/

namespace Sys2Proof.Machine

/-! ### The leading agreement -/

theorem le_agreeing (input : List Byte) (p d k i : Nat) : i ≤ agreeing input p d k i := by
  fun_induction agreeing input p d k i <;> omega

theorem agreeing_le (input : List Byte) (p d k i : Nat) : agreeing input p d k i ≤ i + k := by
  fun_induction agreeing input p d k i <;> omega

theorem agreeing_agrees {input : List Byte} {p d k i j : Nat} (hlo : i ≤ j) (hhi : j < agreeing input p d k i) :
    input[p + j]? = input[p + j - d]? := by
  fun_induction agreeing input p d k i with
  | case1 i => omega
  | case2 k i heq ih =>
    rcases Nat.eq_or_lt_of_le hlo with rfl | hlt
    · exact heq
    · exact ih hlt hhi
  | case3 k i hne => omega

theorem le_agreeing_of_agrees {input : List Byte} {p d k i l : Nat} (hl : l ≤ i + k)
    (h : ∀ j, j < l → input[p + j]? = input[p + j - d]?) : l ≤ agreeing input p d k i := by
  fun_induction agreeing input p d k i with
  | case1 i => exact hl
  | case2 k i _ ih => exact ih (by omega)
  | case3 k i hne => exact Nat.le_of_not_lt fun hlt => hne (h i hlt)

theorem mlen_le (input : List Byte) (p d : Nat) : mlen input p d ≤ maxMatch input p :=
  (agreeing_le input p d _ 0).trans (Nat.zero_add _).le

theorem mlen_agrees {input : List Byte} {p d i : Nat} (h : i < mlen input p d) :
    input[p + i]? = input[p + i - d]? :=
  agreeing_agrees (Nat.zero_le i) h

/-- Settles O51: `agreeing` stops at the cap or at the first disagreement. -/
theorem matchLengthIsTheLongestAgreement : Obligations.MatchLengthIsTheLongestAgreement := fun input p d _ _ _ =>
  ⟨mlen_le input p d, fun _ => mlen_agrees, fun _ hl => le_agreeing_of_agrees (hl.trans (Nat.zero_add _).ge)⟩

/-! ### The best candidate -/

/-- A closed candidate replaces the best so far only if strictly longer (42_encoder.md R187). -/
def keepLonger (b : Nat × Nat) (d l : Nat) : Nat × Nat := if b.2 < l then (d, l) else b

theorem bestUpTo_succ (input : List Byte) (p k : Nat) :
    bestUpTo input p (k + 1) = keepLonger (bestUpTo input p k) (k + 1) (mlen input p (k + 1)) := by
  simp [bestUpTo, keepLonger]

/-- `b` is the longest match among the distances `1` to `k`, and the nearest among the longest; `(0, 0)` where there is
none (42_encoder.md R183). -/
structure BestAmong (input : List Byte) (p k : Nat) (b : Nat × Nat) : Prop where
  longest : ∀ d, 1 ≤ d → d ≤ k → mlen input p d ≤ b.2
  unmatched : b.2 = 0 → b.1 = 0
  distance : 1 ≤ b.2 → 1 ≤ b.1 ∧ b.1 ≤ k ∧ mlen input p b.1 = b.2
  nearest : ∀ d, 1 ≤ d → d < b.1 → mlen input p d < b.2

theorem BestAmong.keepLonger_succ {input : List Byte} {p k : Nat} {b : Nat × Nat} (h : BestAmong input p k b) :
    BestAmong input p (k + 1) (keepLonger b (k + 1) (mlen input p (k + 1))) := by
  unfold keepLonger
  split_ifs with hlonger
  · refine ⟨fun d hlo hhi => ?_, fun h0 => ?_, fun _ => ⟨by omega, le_rfl, rfl⟩, fun d hlo hhi => ?_⟩
    · rcases Nat.eq_or_lt_of_le hhi with rfl | hlt
      · exact le_rfl
      · exact (h.longest d hlo (by omega)).trans hlonger.le
    · exact absurd hlonger (by simp only at h0; omega)
    · exact (h.longest d hlo (Nat.le_of_lt_succ hhi)).trans_lt hlonger
  · refine ⟨fun d hlo hhi => ?_, h.unmatched, fun hlen => ?_, h.nearest⟩
    · rcases Nat.eq_or_lt_of_le hhi with rfl | hlt
      · exact Nat.le_of_not_lt hlonger
      · exact h.longest d hlo (by omega)
    · obtain ⟨hlo, hhi, heq⟩ := h.distance hlen
      exact ⟨hlo, Nat.le_succ_of_le hhi, heq⟩

theorem bestAmong_bestUpTo (input : List Byte) (p k : Nat) : BestAmong input p k (bestUpTo input p k) := by
  induction k with
  | zero => exact ⟨fun d _ _ => by omega, fun _ => rfl, nofun, nofun⟩
  | succ k ih =>
    rw [bestUpTo_succ]
    exact ih.keepLonger_succ

theorem bestAmong_best (input : List Byte) (p : Nat) : BestAmong input p (min 256 p) (best input p) :=
  bestAmong_bestUpTo input p _

/-- Settles O52: each candidate that is closed keeps what the best so far is the best of. -/
theorem bestMatchIsLongestThenNearest : Obligations.BestMatchIsLongestThenNearest := by
  intro input p _
  have hbest := bestAmong_best input p
  refine ⟨hbest.longest, hbest.unmatched, fun hlen => ?_, fun h0 => by rw [h0]; rfl⟩
  obtain ⟨hlo, hhi, heq⟩ := hbest.distance hlen
  exact ⟨hlo, hhi, heq, hbest.nearest⟩

end Sys2Proof.Machine

/-! ## The Match Finder / Encoder: the steps of PACK after the header (42_encoder.md R186 to R190) -/

namespace Sys2Proof.Machine

/-! ### The Operands clause of each encoder step -/

theorem operandsHeld_pNext_iff {s : State} (hst : s.st = .pNext) :
    s.operandsHeld = true ↔ s.p.toNat ≤ s.srcLen.toNat := by
  simp [State.operandsHeld, hst]

theorem operandsHeld_pScan_iff {s : State} (hst : s.st = .pScan) :
    s.operandsHeld = true ↔ s.p.toNat < s.srcLen.toNat := by
  simp [State.operandsHeld, hst]

theorem operandsHeld_pEmit_iff {s : State} (hst : s.st = .pEmit) :
    s.operandsHeld = true ↔ s.p.toNat < s.srcLen.toNat ∧ s.gcnt.toNat < 8 ∧ s.glen.toNat + 2 ≤ 16 ∧
      s.p.toNat + s.bl.toNat ≤ s.srcLen.toNat ∧ s.srcLen.toNat < 2 ^ 32 ∧ s.bl.toNat ≤ 256 ∧
      (s.bl.toNat < 2 ∨ (1 ≤ s.bd.toNat ∧ s.bd.toNat ≤ 256)) := by
  simp [State.operandsHeld, hst, and_assoc]

theorem operandsHeld_pFlush_iff {s : State} (hst : s.st = .pFlush) :
    s.operandsHeld = true ↔ 1 ≤ s.gcnt.toNat ∧ 1 ≤ s.glen.toNat ∧ s.glen.toNat ≤ 16 ∧
      s.gidx.toNat ≤ s.glen.toNat ∧ s.dpos.toNat < 2 ^ 33 := by
  simp [State.operandsHeld, hst, and_assoc]

/-! ### The step in each encoder state -/

theorem step_of_pNext {s : State} (hhost : s.host = []) (hst : s.st = .pNext) (hp : s.p.toNat ≤ s.srcLen.toNat) :
    step s = .next (nextStep s) := by
  rw [step_eq_next_ruleStep hhost ((operandsHeld_pNext_iff hst).mpr hp), State.ruleStep, hst]

theorem step_of_pScan {s : State} (hhost : s.host = []) (hst : s.st = .pScan) (hp : s.p.toNat < s.srcLen.toNat) :
    step s = .next (scanStep s) := by
  rw [step_eq_next_ruleStep hhost ((operandsHeld_pScan_iff hst).mpr hp), State.ruleStep, hst]

theorem step_of_pEmit {s : State} (hhost : s.host = []) (hst : s.st = .pEmit) (hheld : s.operandsHeld = true) :
    step s = .next (emitStep s) := by
  rw [step_eq_next_ruleStep hhost hheld, State.ruleStep, hst]

theorem step_of_pFlush {s : State} (hhost : s.host = []) (hst : s.st = .pFlush) (hheld : s.operandsHeld = true) :
    step s = .next (flushStep s) := by
  rw [step_eq_next_ruleStep hhost hheld, State.ruleStep, hst]

/-! ### Token boundary and scan (42_encoder.md R186, R187) -/

/-- Settles O29: the three outcomes of the rule exclude each other. -/
theorem tokenBoundaryStep : Obligations.TokenBoundaryStep := by
  intro s hhost hst hp
  rw [step_of_pNext hhost hst hp]
  rcases nextStep_cases s with ⟨hend, hpending, h⟩ | ⟨hend, hempty, h⟩ | ⟨hmore, h⟩ <;> rw [h]
  · exact ⟨fun _ _ => rfl, fun _ h0 => absurd (congrArg BitVec.toNat h0) (Nat.ne_of_gt hpending),
      fun hne => absurd hend hne⟩
  · exact ⟨fun _ hne => absurd (BitVec.eq_of_toNat_eq hempty) hne, fun _ _ => rfl, fun hne => absurd hend hne⟩
  · exact ⟨fun heq => absurd heq hmore, fun heq => absurd heq hmore, fun _ => rfl⟩

theorem scanStep_of_end {s : State} (h : maxDistAt s < s.cd.toNat) : scanStep s = { s with st := .pEmit } :=
  if_pos h

theorem scanStep_of_agree {s : State} (hcd : s.cd.toNat ≤ maxDistAt s) (hcl : s.cl.toNat < maxLenAt s)
    (heq : s.srcByte (s.p.toNat + s.cl.toNat) = s.srcByte (s.p.toNat + s.cl.toNat - s.cd.toNat)) :
    scanStep s = { s with cl := s.cl + 1 } := by
  rw [scanStep, if_neg (Nat.not_lt.mpr hcd), if_pos ⟨hcl, heq⟩]

/-- A candidate is closed at the cap or at the first byte that differs. -/
theorem scanStep_of_close {s : State} (hcd : s.cd.toNat ≤ maxDistAt s)
    (hclose : maxLenAt s ≤ s.cl.toNat ∨
      s.srcByte (s.p.toNat + s.cl.toNat) ≠ s.srcByte (s.p.toNat + s.cl.toNat - s.cd.toNat)) :
    scanStep s =
      { s with bl := if s.bl.toNat < s.cl.toNat then s.cl else s.bl,
               bd := if s.bl.toNat < s.cl.toNat then s.cd else s.bd, cd := s.cd + 1, cl := 0 } := by
  rw [scanStep, if_neg (Nat.not_lt.mpr hcd), if_neg]
  rintro ⟨hcl, heq⟩
  exact hclose.elim (Nat.not_le.mpr hcl) (· heq)

/-- Settles O30: the clauses are the three ways a scan step can go, the last split by whether the candidate is strictly
longer. -/
theorem scanStepKeepsTheStrictlyLonger : Obligations.ScanStepKeepsTheStrictlyLonger := by
  intro s hhost hst hp
  rw [step_of_pScan hhost hst hp]
  refine ⟨maxDistAt s, maxLenAt s, s.p.toNat, s.cl.toNat, s.cd.toNat, rfl, rfl, rfl, rfl, rfl, fun hend => ?_,
    fun hcd hcl heq => ?_, fun hcd hclose hlonger => ?_, fun hcd hclose hshort => ?_⟩
  · rw [scanStep_of_end hend]
  · rw [scanStep_of_agree hcd hcl heq]
  · rw [scanStep_of_close hcd hclose, if_pos hlonger, if_pos hlonger]
  · rw [scanStep_of_close hcd hclose, if_neg (Nat.not_lt.mpr hshort), if_neg (Nat.not_lt.mpr hshort)]

/-! ### Emission and flush (42_encoder.md R189, R190) -/

/-- Settles O31: under the rule's operands the step is `emitStep`, whose two branches are the two queues; `P` does not
wrap, since the match ends within the source. -/
theorem emissionStepQueuesOneToken : Obligations.EmissionStepQueuesOneToken := by
  intro s hhost hst hp hcnt hlen hfit hsrc hbl hbd
  have hheld : s.operandsHeld = true := (operandsHeld_pEmit_iff hst).mpr
    ⟨hp, by omega, by omega, hfit, hsrc, hbl, (Nat.lt_or_ge _ _).imp_right hbd⟩
  rw [step_of_pEmit hhost hst hheld]
  obtain ⟨x, rfl, ⟨hlong, h⟩ | ⟨hshort, h⟩⟩ := emitStep_cases s <;> rw [h]
  · refine ⟨fun _ => ⟨s.p + s.bl.setWidth 32, by bv_omega, ?_⟩, fun hlt => absurd hlong (Nat.not_le.mpr hlt)⟩
    simp only [queueCopy, ← withSelector_lz, Nat.reduceEqDiff]
  · refine ⟨fun hge => absurd hge (Nat.not_le.mpr hshort), fun _ => ?_⟩
    simp only [queueLiteral_eq, Nat.reduceEqDiff]

/-- Settles O32: the byte is the flag byte exactly at `GIDX = 0`, and the group is cleared exactly at `GIDX = GLEN`. -/
theorem flushStepWritesTheGroup : Obligations.FlushStepWritesTheGroup := by
  intro s hhost hst hcnt hlen hlen' hidx hdpos
  rw [step_of_pFlush hhost hst ((operandsHeld_pFlush_iff hst).mpr ⟨hcnt, hlen, hlen', hidx, hdpos⟩)]
  have hzero : s.gidx.toNat = 0 ↔ s.gidx = 0 := BitVec.toNat_inj (y := 0)
  refine ⟨flushedByte s, by simp only [flushedByte, hzero], ?_⟩
  rcases flushStep_cases s with ⟨hlast, h⟩ | ⟨hmore, h⟩ <;> rw [h]
  · exact ⟨fun _ => rfl, fun hne => absurd (BitVec.eq_of_toNat_eq hlast) hne⟩
  · exact ⟨fun heq => absurd (congrArg BitVec.toNat heq) hmore, fun _ => rfl⟩

theorem inv_of_reachable {s : State} (h : Reachable s) : s.Inv :=
  reachable_induction inv_bootState stepKeepsTheInvariant h

/-- Settles O42: in `P_FLUSH` the invariant has `GIDX` at most `GLEN` and every cell below `GLEN` written. -/
theorem flushReadsWrittenCellsOnly : Obligations.FlushReadsWrittenCellsOnly := by
  intro s hreach hst hidx
  obtain ⟨-, -, hphase⟩ := inv_of_reachable hreach
  simp only [State.phaseHeld, hst] at hphase
  obtain ⟨-, ⟨-, -, hwritten⟩, -, -, hle, -⟩ := hphase
  have hpos : s.gidx.toNat ≠ 0 := fun h0 => hidx (BitVec.eq_of_toNat_eq h0)
  obtain ⟨b, hb⟩ := Option.isSome_iff_exists.mp (hwritten (s.gidx.toNat - 1) (by omega))
  exact ⟨b, hb, by rw [State.gbufByte, hb, Option.getD_some]⟩

end Sys2Proof.Machine

/-! ## The scan of one position computes `best` (42_encoder.md R187, R188)

`scanning s cd cl b` is `s` in `P_SCAN` at candidate `cd` with `cl` bytes compared and `b` the best match so far. One
candidate runs to its close by induction on the bytes left to the cap, the scan by induction on the candidates. -/

namespace Sys2Proof.Machine

/-- `s` with the scan registers `CD`, `CL`, `(BD, BL)` as given (10_state.md R40, R41). -/
def scanning (s : State) (cd cl : Nat) (b : Nat × Nat) : State :=
  { s with st := .pScan, cd := BitVec.ofNat 9 cd, cl := BitVec.ofNat 9 cl, bd := BitVec.ofNat 9 b.1,
           bl := BitVec.ofNat 9 b.2 }

theorem maxMatch_le (input : List Byte) (p : Nat) : maxMatch input p ≤ 256 := Nat.min_le_left _ _

theorem add_le_of_le_maxMatch {input : List Byte} {p l : Nat} (hp : p ≤ input.length) (h : l ≤ maxMatch input p) :
    p + l ≤ input.length := by
  unfold maxMatch at h
  omega

theorem bestUpTo_le (input : List Byte) (p : Nat) {k : Nat} (hk : k ≤ 256) :
    (bestUpTo input p k).1 ≤ 256 ∧ (bestUpTo input p k).2 ≤ 256 := by
  have hbest := bestAmong_bestUpTo input p k
  rcases Nat.eq_zero_or_pos (bestUpTo input p k).2 with h0 | hlen
  · rw [h0, hbest.unmatched h0]
    exact ⟨Nat.zero_le _, Nat.zero_le _⟩
  · obtain ⟨-, hhi, heq⟩ := hbest.distance hlen
    exact ⟨hhi.trans hk, heq ▸ (mlen_le input p _).trans (maxMatch_le input p)⟩

theorem getElem?_eq_srcByte {input : List Byte} {s : State} {a : Nat} (hsrc : s.src = Mem.ofBytes 0 input)
    (ha : a < input.length) : input[a]? = some (s.srcByte a) := by
  rw [State.srcByte, hsrc, cell?_ofBytes, if_pos (Nat.zero_le a), Nat.sub_zero, List.getElem?_eq_getElem ha,
    Option.getD_some]

/-- Below the cap the bytes that a scan step compares are those of the input (42_encoder.md R187). -/
theorem srcByte_eq_iff {input : List Byte} {s : State} (cd : Nat) {cl : Nat} (hsrc : s.src = Mem.ofBytes 0 input)
    (hp : s.p.toNat < input.length) (hcl : cl < maxMatch input s.p.toNat) :
    s.srcByte (s.p.toNat + cl) = s.srcByte (s.p.toNat + cl - cd) ↔
      input[s.p.toNat + cl]? = input[s.p.toNat + cl - cd]? := by
  have hin : s.p.toNat + cl < input.length := add_le_of_le_maxMatch hp.le hcl
  rw [getElem?_eq_srcByte hsrc hin, getElem?_eq_srcByte hsrc ((Nat.sub_le _ cd).trans_lt hin), Option.some_inj]

section
variable {input : List Byte} {s : State} {cd cl : Nat} {b : Nat × Nat}

theorem scanning_cd (h : cd ≤ 257) : (scanning s cd cl b).cd.toNat = cd := Nat.mod_eq_of_lt (by omega)

theorem scanning_cl (h : cl ≤ 256) : (scanning s cd cl b).cl.toNat = cl := Nat.mod_eq_of_lt (by omega)

theorem scanning_bl (h : b.2 ≤ 256) : (scanning s cd cl b).bl.toNat = b.2 := Nat.mod_eq_of_lt (by omega)

theorem scanning_bd (h : b.1 ≤ 256) : (scanning s cd cl b).bd.toNat = b.1 := Nat.mod_eq_of_lt (by omega)

theorem scanning_extend :
    { scanning s cd cl b with cl := (scanning s cd cl b).cl + 1 } = scanning s cd (cl + 1) b := by
  rw [scanning, scanning, BitVec.ofNat_add]
  rfl

theorem scanning_close (hbl : b.2 ≤ 256) (hcl : cl ≤ 256) :
    { scanning s cd cl b with
        bl := if (scanning s cd cl b).bl.toNat < (scanning s cd cl b).cl.toNat then (scanning s cd cl b).cl
              else (scanning s cd cl b).bl,
        bd := if (scanning s cd cl b).bl.toNat < (scanning s cd cl b).cl.toNat then (scanning s cd cl b).cd
              else (scanning s cd cl b).bd,
        cd := (scanning s cd cl b).cd + 1, cl := 0 } =
      scanning s (cd + 1) 0 (keepLonger b cd cl) := by
  rw [scanning_bl hbl, scanning_cl hcl, keepLonger, scanning, scanning, BitVec.ofNat_add]
  split_ifs <;> rfl

theorem maxLenAt_scanning (hlen : s.srcLen.toNat = input.length) :
    maxLenAt (scanning s cd cl b) = maxMatch input s.p.toNat := by
  rw [maxMatch, ← hlen]
  rfl

variable (hhost : s.host = []) (hlen : s.srcLen.toNat = input.length) (hp : s.p.toNat < input.length)
include hhost hlen hp

theorem step_scanning : step (scanning s cd cl b) = .next (scanStep (scanning s cd cl b)) :=
  step_of_pScan (s := scanning s cd cl b) hhost rfl (hp.trans_eq hlen.symm)

theorem step_scanning_end (hcd : cd ≤ 257) (hend : min 256 s.p.toNat < cd) :
    step (scanning s cd cl b) = .next { scanning s cd cl b with st := .pEmit } := by
  rw [step_scanning hhost hlen hp, scanStep_of_end]
  exact hend.trans_eq (scanning_cd hcd).symm

variable (hsrc : s.src = Mem.ofBytes 0 input)
include hsrc

theorem step_scanning_agree (hhi : cd ≤ min 256 s.p.toNat) (hcl : cl < maxMatch input s.p.toNat)
    (heq : input[s.p.toNat + cl]? = input[s.p.toNat + cl - cd]?) :
    step (scanning s cd cl b) = .next (scanning s cd (cl + 1) b) := by
  have hmax := maxMatch_le input s.p.toNat
  have hcd' := scanning_cd (s := s) (cl := cl) (b := b) (show cd ≤ 257 by omega)
  have hcl' := scanning_cl (s := s) (cd := cd) (b := b) (show cl ≤ 256 by omega)
  rw [step_scanning hhost hlen hp, scanStep_of_agree, scanning_extend]
  · exact hcd'.trans_le hhi
  · rwa [hcl', maxLenAt_scanning hlen]
  · rw [hcd', hcl']
    exact (srcByte_eq_iff cd hsrc hp hcl).mpr heq

theorem step_scanning_close (hhi : cd ≤ min 256 s.p.toNat) (hcl : cl ≤ maxMatch input s.p.toNat)
    (hbl : b.2 ≤ 256) (hclose : cl = maxMatch input s.p.toNat ∨
      cl < maxMatch input s.p.toNat ∧ input[s.p.toNat + cl]? ≠ input[s.p.toNat + cl - cd]?) :
    step (scanning s cd cl b) = .next (scanning s (cd + 1) 0 (keepLonger b cd cl)) := by
  have hmax := maxMatch_le input s.p.toNat
  have hcd' := scanning_cd (s := s) (cl := cl) (b := b) (show cd ≤ 257 by omega)
  have hcl' := scanning_cl (s := s) (cd := cd) (b := b) (show cl ≤ 256 by omega)
  rw [step_scanning hhost hlen hp, scanStep_of_close, scanning_close hbl (hcl.trans hmax)]
  · exact hcd'.trans_le hhi
  · rw [maxLenAt_scanning hlen, hcd', hcl']
    refine hclose.imp Eq.ge fun ⟨hlt, hne⟩ heq => hne ?_
    exact (srcByte_eq_iff cd hsrc hp hlt).mp heq

/-- One candidate: `CL` advances while the bytes agree, at most to the cap `k` bytes away, then the candidate closes. -/
theorem runFor_candidate (hhi : cd ≤ min 256 s.p.toNat) (hbl : b.2 ≤ 256) {k : Nat}
    (hk : cl + k = maxMatch input s.p.toNat) :
    ∃ n, runFor n (scanning s cd cl b) =
      .next (scanning s (cd + 1) 0 (keepLonger b cd (agreeing input s.p.toNat cd k cl))) := by
  induction k generalizing cl with
  | zero =>
    exact ⟨1, runFor_succ_of_next (step_scanning_close hhost hlen hp hsrc hhi hk.le hbl (.inl hk))⟩
  | succ k ih =>
    have hlt : cl < maxMatch input s.p.toNat := by omega
    rw [agreeing]
    split_ifs with heq
    · obtain ⟨n, hrun⟩ := ih (cl := cl + 1) (by omega)
      exact ⟨n + 1, (runFor_succ_of_next (step_scanning_agree hhost hlen hp hsrc hhi hlt heq)).trans hrun⟩
    · exact ⟨1, runFor_succ_of_next (step_scanning_close hhost hlen hp hsrc hhi hlt.le hbl (.inr ⟨hlt, heq⟩))⟩

/-- The first `k` candidates: `(BD, BL)` is then the best among them. -/
theorem runFor_candidates {k : Nat} (hk : k ≤ min 256 s.p.toNat) :
    ∃ n, runFor n (scanning s 1 0 (0, 0)) = .next (scanning s (k + 1) 0 (bestUpTo input s.p.toNat k)) := by
  induction k with
  | zero => exact ⟨0, rfl⟩
  | succ k ih =>
    obtain ⟨n, hrun⟩ := ih (Nat.le_of_succ_le hk)
    obtain ⟨-, hbl⟩ := bestUpTo_le input s.p.toNat (show k ≤ 256 by omega)
    obtain ⟨m, hrun'⟩ := runFor_candidate hhost hlen hp hsrc hk hbl (Nat.zero_add _)
    rw [bestUpTo_succ]
    exact ⟨n + m, (runFor_add hrun).trans hrun'⟩

end

/-- Settles O53: the `P_NEXT` step opens the scan with nothing found, the candidates `1` to `min 256 P` run to their
close, and the next one is past the last. -/
theorem scanFindsTheBestMatch : Obligations.ScanFindsTheBestMatch := by
  intro input s _ hhost hst hsrc hlen hp
  have hmore : s.p.toNat ≠ s.srcLen.toNat := by omega
  have hstart : step s = .next (scanning s 1 0 (0, 0)) := by
    rw [step_of_pNext hhost hst (by omega), nextStep, if_neg hmore]
    rfl
  obtain ⟨n, hrun⟩ := runFor_candidates hhost hlen hp hsrc (le_refl (min 256 s.p.toNat))
  obtain ⟨hbd, hbl⟩ := bestUpTo_le input s.p.toNat (Nat.min_le_left 256 s.p.toNat)
  have hend := step_scanning_end (cl := 0) (b := best input s.p.toNat) hhost hlen hp
    (Nat.succ_le_succ (Nat.min_le_left 256 s.p.toNat)) (Nat.lt_succ_self _)
  exact ⟨n + 1 + 1, _, (runFor_succ_of_next hstart).trans (runFor_succ_of_last hrun hend), rfl,
    scanning_bd (s := s) (cd := 0) (cl := 0) hbd, scanning_bl (s := s) (cd := 0) (cl := 0) hbl, rfl⟩

end Sys2Proof.Machine

/-! ## The tokens of the encoder spell the input (42_encoder.md R184, R185)

`Fits` says what a token stands for at its place in the input, `Spells` that a token list covers the input from a
position to its end; both hold of the encoder's tokens. -/

namespace Sys2Proof.Machine

/-- The token at `p` stands for the input's bytes from `p` on: a Literal for the byte there, a Copy of at least
`MIN_MATCH` bytes for bytes that repeat those `d` before (42_encoder.md R184). -/
def Fits (input : List Byte) (p : Nat) : Token → Prop
  | .literal b => input[p]? = some b
  | .copy d l =>
    1 ≤ d ∧ d ≤ min 256 p ∧ 2 ≤ l ∧ l ≤ min 256 (input.length - p) ∧ ∀ i, i < l → input[p + i]? = input[p + i - d]?

/-- The tokens cover the input from `p` to its end, each at its place. -/
def Spells (input : List Byte) : Nat → List Token → Prop
  | p, [] => p = input.length
  | p, t :: ts => Fits input p t ∧ Spells input (p + tokenSpan t) ts

theorem Fits.lt_length {input : List Byte} {p : Nat} {t : Token} (h : Fits input p t) : p < input.length := by
  cases t with
  | literal b =>
    obtain ⟨hlt, -⟩ := List.getElem?_eq_some_iff.mp h
    exact hlt
  | copy d l =>
    obtain ⟨-, -, hlo, hhi, -⟩ := h
    omega

theorem Fits.add_span_le {input : List Byte} {p : Nat} {t : Token} (h : Fits input p t) :
    p + tokenSpan t ≤ input.length := by
  cases t with
  | literal b => exact h.lt_length
  | copy d l =>
    obtain ⟨-, -, hlo, hhi, -⟩ := h
    rw [tokenSpan]
    omega

theorem Fits.one_le_span {input : List Byte} {p : Nat} {t : Token} (h : Fits input p t) : 1 ≤ tokenSpan t := by
  cases t with
  | literal b => exact le_rfl
  | copy d l =>
    obtain ⟨-, -, hlo, -⟩ := h
    exact Nat.le_of_succ_le hlo

/-- A token's payload is no longer than what it stands for (42_encoder.md R199). -/
theorem Fits.payload_le (c : Params) {input : List Byte} {p : Nat} {t : Token} (h : Fits input p t) :
    (tokenPayload c t).length ≤ tokenSpan t := by
  cases t with
  | literal b => exact le_rfl
  | copy d l =>
    obtain ⟨-, -, hlo, -⟩ := h
    exact hlo

theorem tokenAt_fits {input : List Byte} {p : Nat} (hp : p < input.length) : Fits input p (tokenAt input p) := by
  rw [tokenAt]
  split_ifs with hlong
  · obtain ⟨hlo, hhi, heq⟩ := (bestAmong_best input p).distance (Nat.le_of_succ_le hlong)
    refine ⟨hlo, hhi, hlong, ?_, fun i hi => mlen_agrees (heq ▸ hi)⟩
    exact heq ▸ mlen_le input p _
  · rw [List.getD_eq_getElem _ _ hp]
    exact List.getElem?_eq_getElem hp

theorem tokensFrom_spells {input : List Byte} {fuel p : Nat} (hp : p ≤ input.length)
    (hfuel : input.length ≤ p + fuel) : Spells input p (tokensFrom input fuel p) := by
  induction fuel generalizing p with
  | zero => exact Nat.le_antisymm hp hfuel
  | succ fuel ih =>
    rw [tokensFrom]
    split_ifs with hlt
    · have hfits := tokenAt_fits hlt
      have hspan := hfits.one_le_span
      exact ⟨hfits, ih hfits.add_span_le (by omega)⟩
    · exact Nat.le_antisymm hp (Nat.le_of_not_lt hlt)

theorem tokens_spell (input : List Byte) : Spells input 0 (tokens input) :=
  tokensFrom_spells (Nat.zero_le _) (Nat.zero_add _).ge

/-! ### The size of the output (42_encoder.md R199) -/

theorem Spells.length_le {input : List Byte} {p : Nat} {ts : List Token} (h : Spells input p ts) :
    p + ts.length ≤ input.length := by
  induction ts generalizing p with
  | nil => exact Nat.le_of_eq h
  | cons t ts ih =>
    obtain ⟨hfits, hrest⟩ := h
    have hspan := hfits.one_le_span
    have hlen := ih hrest
    rw [List.length_cons]
    omega

theorem Spells.payloads_le (c : Params) {input : List Byte} {p : Nat} {ts : List Token} (h : Spells input p ts) :
    p + (ts.flatMap (tokenPayload c)).length ≤ input.length := by
  induction ts generalizing p with
  | nil => exact Nat.le_of_eq h
  | cons t ts ih =>
    obtain ⟨hfits, hrest⟩ := h
    have hpayload := hfits.payload_le c
    have hlen := ih hrest
    rw [List.flatMap_cons, List.length_append]
    omega

theorem packGroups_cons (c : Params) (fuel : Nat) (t : Token) (ts : List Token) :
    packGroups c (fuel + 1) (t :: ts) =
      groupFlag c.flagOrder 0 ((t :: ts).take 8) ::
        (((t :: ts).take 8).flatMap (tokenPayload c) ++ packGroups c fuel ((t :: ts).drop 8)) := rfl

/-- One flag byte for each eight tokens begun, and every payload (42_encoder.md R196). -/
theorem length_packGroups (c : Params) {fuel : Nat} {ts : List Token} (hfuel : ts.length ≤ fuel) :
    (packGroups c fuel ts).length = (ts.length + 7) / 8 + (ts.flatMap (tokenPayload c)).length := by
  induction fuel generalizing ts with
  | zero =>
    obtain rfl := List.eq_nil_of_length_eq_zero (Nat.le_zero.mp hfuel)
    rfl
  | succ fuel ih =>
    cases ts with
    | nil => rfl
    | cons t ts =>
      have hdrop : ((t :: ts).drop 8).length = (t :: ts).length - 8 := List.length_drop
      have hpayloads : ((t :: ts).flatMap (tokenPayload c)).length =
          (((t :: ts).take 8).flatMap (tokenPayload c)).length +
            (((t :: ts).drop 8).flatMap (tokenPayload c)).length := by
        rw [← List.length_append, ← List.flatMap_append, List.take_append_drop]
      have hpos : 0 < (t :: ts).length := Nat.succ_pos _
      rw [packGroups_cons, List.length_cons, List.length_append, hpayloads, ih (by omega), hdrop]
      omega

/-- Settles O59: the 128 bytes of the header, a flag byte for each eight of at most `n` tokens, and at most `n` payload
bytes. -/
theorem packedSizeBound : Obligations.PackedSizeBound := by
  intro c input
  have hspells := tokens_spell input
  have htokens := hspells.length_le
  have hpayloads := hspells.payloads_le c
  rw [packBytes, List.length_append, length_encodeHeader, packTokens, length_packGroups c le_rfl]
  omega

end Sys2Proof.Machine

/-! ## Unpacking what was packed (42_encoder.md R201; 43_container.md R233)

A group decodes token by token: its flag byte yields its tokens' selectors in order, and each token takes the output
from the input's first `p` bytes to its first `p + tokenSpan t`. -/

namespace Sys2Proof.Machine

/-! ### The selectors of a group are read back in order (30_encoding.md R101; 42_encoder.md R196, R197) -/

theorem getLsbD_selectorBit (o : FlagOrder) {j k : Nat} (hj : j < 8) (hk : k < 8) (sel : Bool) :
    (selectorBit o k sel).getLsbD (flagpos o j) = (decide (j = k) && sel) := by
  have hset : ∀ j < 8, ∀ k < 8, (selectorBit o k true).getLsbD (flagpos o j) = decide (j = k) := by
    cases o <;> decide
  cases sel with
  | false => simp
  | true => rw [hset j hj k hk, Bool.and_true]

/-- The bit of the `j`-th token of a flag byte whose first token is the `k`-th; 0 where there is no such token. -/
theorem getLsbD_groupFlag (o : FlagOrder) {j k : Nat} {ts : List Token} (hj : j < 8) (hts : k + ts.length ≤ 8) :
    (groupFlag o k ts).getLsbD (flagpos o j) =
      (decide (k ≤ j) && ((ts.map tokenSelector)[j - k]?).getD false) := by
  induction ts generalizing k with
  | nil => simp [groupFlag]
  | cons t ts ih =>
    rw [List.length_cons] at hts
    rw [groupFlag, BitVec.getLsbD_or, getLsbD_selectorBit o hj (by omega), ih (by omega)]
    rcases Nat.lt_trichotomy j k with hlt | rfl | hgt
    · simp [Nat.ne_of_lt hlt, Nat.not_le.mpr hlt, Nat.not_le.mpr (Nat.lt_succ_of_lt hlt)]
    · simp
    · obtain ⟨i, rfl⟩ := Nat.exists_eq_add_of_lt hgt
      simp [Nat.add_assoc, Nat.add_sub_add_left]

theorem selectors_groupFlag (o : FlagOrder) {ts : List Token} (hts : ts.length ≤ 8) :
    selectors o (groupFlag o 0 ts) = ts.map tokenSelector ++ List.replicate (8 - ts.length) false := by
  refine List.ext_getElem (by simp [selectors]; omega) fun j hj _ => ?_
  have hj' : j < 8 := by simpa [selectors] using hj
  simp only [selectors, List.getElem_map, List.getElem_range]
  rw [getLsbD_groupFlag o hj' (by omega)]
  rcases Nat.lt_or_ge j ts.length with hlt | hge
  · rw [List.getElem_append_left (by simpa using hlt)]
    simp [hlt]
  · rw [List.getElem_append_right (by simpa using hge)]
    simp [hge]

/-! ### The decoder on the encoder's tokens and groups -/

theorem take_succ_of_getElem? {input : List Byte} {p : Nat} {b : Byte} (h : input[p]? = some b) :
    input.take (p + 1) = input.take p ++ [b] := by
  rw [List.take_add_one, h, Option.toList_some]

/-- The copy loop appends the next `l` bytes of the input where they repeat those `d` before (41_decoder.md R155). -/
theorem copyLoop_take {input : List Byte} {p d l : Nat} (hlo : 1 ≤ d) (hhi : d ≤ p) (hl : p + l ≤ input.length)
    (h : ∀ i, i < l → input[p + i]? = input[p + i - d]?) :
    copyLoop input.length d l (input.take p) = input.take (p + l) := by
  induction l generalizing p with
  | zero => rfl
  | succ l ih =>
    have hlen : (input.take p).length = p := List.length_take_of_le (by omega)
    have hback : (input.take p).getD (p - d) 0 = input[p - d] := by
      rw [List.getD_eq_getElem _ _ (by omega), List.getElem_take]
    have hnext : input[p]? = some input[p - d] := (h 0 (Nat.succ_pos l)).trans (List.getElem?_eq_getElem _)
    rw [copyLoop, hlen, if_neg (by omega), hback, ← take_succ_of_getElem? hnext,
      ih (p := p + 1) (Nat.le_succ_of_le hhi) (by omega) fun i hi => ?_, Nat.add_right_comm, Nat.add_assoc]
    have hagree := h (i + 1) (Nat.succ_lt_succ hi)
    rwa [← Nat.add_assoc, Nat.add_right_comm] at hagree

/-- One token: from the output so far the decoder goes on with the bytes the token stands for. -/
theorem decodeFrom_token (c : Params) {input : List Byte} {p : Nat} {t : Token} (h : Fits input p t)
    (sels : List Bool) (body : List Byte) :
    decodeFrom c input.length (tokenSelector t :: sels) (tokenPayload c t ++ body) (input.take p) =
      decodeFrom c input.length sels body (input.take (p + tokenSpan t)) := by
  have hp := h.lt_length
  have hlen : (input.take p).length = p := List.length_take_of_le hp.le
  have howed : (input.take p).length ≠ input.length := by omega
  cases t with
  | literal b =>
    rw [tokenSpan, take_succ_of_getElem? h]
    exact decodeFrom_literal c sels b body howed
  | copy d l =>
    obtain ⟨hdlo, hdhi, hllo, hlhi, hagree⟩ := h
    have hd : mapD c (unmapD c d) = d := mapRaw_unmapLogical c.distMap hdlo (by omega)
    have hl : mapL c (unmapL c l) = l := mapRaw_unmapLogical c.lenMap (by omega) (by omega)
    simp only [tokenSelector, tokenPayload, List.cons_append, List.nil_append]
    rw [decodeFrom, if_neg howed, if_neg (by decide)]
    simp only [hd, hl, hlen]
    rw [if_neg (by omega), if_neg (by omega), copyLoop_take hdlo (by omega) (by omega) hagree, tokenSpan]

/-- The tokens of a group, its selectors first in the queue and its payloads first in the body. -/
theorem decodeFrom_tokens (c : Params) {input : List Byte} {p : Nat} {us vs : List Token}
    (h : Spells input p (us ++ vs)) (sels : List Bool) (body : List Byte) :
    ∃ q, Spells input q vs ∧
      decodeFrom c input.length (us.map tokenSelector ++ sels) (us.flatMap (tokenPayload c) ++ body) (input.take p) =
        decodeFrom c input.length sels body (input.take q) := by
  induction us generalizing p with
  | nil => exact ⟨p, h, rfl⟩
  | cons u us ih =>
    obtain ⟨hfits, hrest⟩ := h
    obtain ⟨q, hq, hdecode⟩ := ih hrest
    refine ⟨q, hq, ?_⟩
    rw [List.map_cons, List.cons_append, List.flatMap_cons, List.append_assoc, decodeFrom_token c hfits, hdecode]

theorem decodeFrom_at_end (c : Params) (input : List Byte) (sels : List Bool) (body : List Byte) {p : Nat}
    (h : p = input.length) : decodeFrom c input.length sels body (input.take p) = .ok input := by
  rw [h, List.take_length, decodeFrom_of_complete c sels body rfl]

/-- The groups of a token list decode to the rest of the input. -/
theorem decodeFrom_packGroups (c : Params) {input : List Byte} {fuel p : Nat} {ts : List Token}
    (hfuel : ts.length ≤ fuel) (h : Spells input p ts) :
    decodeFrom c input.length [] (packGroups c fuel ts) (input.take p) = .ok input := by
  induction fuel generalizing p ts with
  | zero =>
    obtain rfl := List.eq_nil_of_length_eq_zero (Nat.le_zero.mp hfuel)
    exact decodeFrom_at_end c input _ _ h
  | succ fuel ih =>
    cases ts with
    | nil => exact decodeFrom_at_end c input _ _ h
    | cons t ts =>
      have hp : p < input.length := h.1.lt_length
      have howed : (input.take p).length ≠ input.length := by
        rw [List.length_take_of_le hp.le]
        exact hp.ne
      have hgroup : ((t :: ts).take 8).length ≤ 8 := List.length_take_le 8 _
      rw [packGroups_cons, decodeFrom, if_neg howed, selectors_groupFlag _ hgroup]
      rw [← List.take_append_drop 8 (t :: ts)] at h
      obtain ⟨q, hq, hdecode⟩ := decodeFrom_tokens c h (List.replicate (8 - ((t :: ts).take 8).length) false)
        (packGroups c fuel ((t :: ts).drop 8))
      rw [hdecode]
      rcases Nat.lt_or_ge (t :: ts).length 8 with hshort | hfull
      · rw [List.drop_eq_nil_of_le hshort.le] at hq
        exact decodeFrom_at_end c input _ _ hq
      · rw [List.length_take_of_le hfull]
        exact ih (by rw [List.length_drop]; omega) hq

/-- Settles O58: the header gives back the length, and the body decodes group by group, since the tokens spell the
input. -/
theorem roundTrip : Obligations.RoundTrip := by
  intro c input hlen
  obtain ⟨hheader, hsize⟩ := headerRoundTrip (BitVec.ofNat 32 input.length)
  refine unpackBytes_ok_iff.mpr ⟨_, decodeHeader_append_of_ok _ hheader, ?_⟩
  rw [packBytes, List.drop_left' hsize, BitVec.toNat_ofNat, Nat.mod_eq_of_lt hlen]
  exact decodeFrom_packGroups c le_rfl (tokens_spell input)

end Sys2Proof.Machine

/-! ## The step and the host's list: the fetched item, a tick, and the writes that are ignored
(43_container.md R220, R224, R230) -/

namespace Sys2Proof.Machine

/-! ### The step of the fetched item (30_encoding.md R90, R95) -/

/-- A state that selects an item steps by running it. -/
theorem blockStep_of_fetchItem {s : State} {i : Instr} (h : fetchItem s = some i) : blockStep s = exec i s := by
  cases hst : s.st
  case idle | done | failed | pHdr | pNext | pScan | pEmit | pFlush => simp [fetchItem, State.itemSlot?, hst] at h
  all_goals simp only [blockStep, hst, h]

theorem fetchItem_of_decode {s : State} {slot : Slot} {a : Nat} {i : Instr} {rest : List Byte}
    (hslot : s.itemSlot? = some (slot, a)) (h : decode slot (s.srcBytes a (slotLength slot)) = .ok (i, rest)) :
    fetchItem s = some i := by
  simp only [fetchItem, hslot, h]

/-! ### The state without the host's list -/

/-- The state with another list of what the host does next. -/
def State.withHost (s : State) (later : List HostEvent) : State := { s with host := later }

theorem srcBytes_withHost (s : State) (later : List HostEvent) (a n : Nat) :
    (s.withHost later).srcBytes a n = s.srcBytes a n := by
  induction n generalizing a with
  | zero => rfl
  | succ n ih =>
    rw [State.srcBytes, State.srcBytes, ih]
    rfl

theorem emitStep_withHost (s : State) (later : List HostEvent) :
    emitStep (s.withHost later) = (emitStep s).withHost later := by
  have hbl : (s.withHost later).bl = s.bl := rfl
  by_cases hlong : 2 ≤ s.bl.toNat <;> simp only [emitStep, hbl, hlong, if_true, if_false] <;> rfl

/-- No rule reads or writes the host's list. -/
theorem ruleStep_withHost (s : State) (later : List HostEvent) :
    (s.withHost later).ruleStep = s.ruleStep.withHost later := by
  have hst : (s.withHost later).st = s.st := rfl
  cases hs : s.st <;> rw [hs] at hst <;> simp only [State.ruleStep, hs, hst]
  case dCopy => rfl
  case pEmit => exact emitStep_withHost s later
  all_goals
    simp only [magicStep, sizeStep, padStep, flagStep, tokStep, lenStep, hdrStep, nextStep, scanStep, flushStep,
      apply_ite (State.withHost · later)]
    rfl

/-- Whatever the host's list, a step of the block answers the rule's state, or stops where the registers hold a value
the rule excludes. -/
theorem blockStep_withHost_cases (s : State) :
    (∀ later, blockStep (s.withHost later) = .next (s.ruleStep.withHost later)) ∨
      ∀ later, blockStep (s.withHost later) = .fault .valueNeverHeld := by
  cases hheld : s.operandsHeld
  · refine .inr fun later => ?_
    have hheld' : (s.withHost later).operandsHeld = false := hheld
    rw [blockStep_eq_guarded, State.guarded, hheld']
    rfl
  · exact .inl fun later => blockStep_next_iff.mpr ⟨hheld, (ruleStep_withHost s later).symm⟩

/-- A tick is the step of the block, the entry taken off the list (43_container.md R224). -/
theorem step_of_tick {s : State} {later : List HostEvent} (h : s.host = .tick :: later) :
    step s = blockStep (s.withHost later) := by
  simp only [step, h, State.withHost]

/-- Settles O20: the fetched item is the decoded one, a command is the decoded value's, and the rule of `ST` and its
guard are the same whatever the host's list. -/
theorem stepRunsTheDecodedItem : Obligations.StepRunsTheDecodedItem := by
  refine ⟨fun s slot a i rest hslot hdecode => ⟨fun hhost => ?_, fun later hhost => ?_⟩,
    fun s v later i rest hhost hdecode => ?_, fun s later hhost => ?_⟩
  · rw [step_of_host_nil hhost, blockStep_of_fetchItem (fetchItem_of_decode hslot hdecode)]
  · have hdecode' := (congrArg (decode slot) (srcBytes_withHost s later a _)).trans hdecode
    rw [step_of_tick hhost]
    exact blockStep_of_fetchItem (fetchItem_of_decode hslot hdecode')
  · simp only [step, hhost, hostWriteCmd, commandOf, hdecode]
  · have hquiet : step { s with host := [] } = blockStep (s.withHost []) := rfl
    rw [step_of_tick hhost, hquiet]
    rcases blockStep_withHost_cases s with hblock | hblock <;> rw [hblock, hblock]
    · refine ⟨fun t ht => ?_, nofun, fun _ => nofun⟩
      cases ht
      rfl
    · exact ⟨fun _ ht => (nomatch ht), fun _ hr => hr, fun _ => nofun⟩

/-! ### No step outside a run, and the host's other writes (43_container.md R224, R230) -/

/-- Settles O21: `step_of_not_busy`. -/
theorem noStepOutsideARun : Obligations.NoStepOutsideARun := fun _ hidle hhost => step_of_not_busy hhost hidle

theorem hostWriteSrcLen_of_busy (v : Pos) {s : State} (h : s.busy = true) : hostWriteSrcLen v s = s := if_pos h

theorem hostWriteSrcLen_of_not_busy (v : Pos) {s : State} (h : s.busy = false) :
    hostWriteSrcLen v s = { s with srcLen := v } := by
  rw [hostWriteSrcLen, if_neg (by simp [h])]

/-- Settles O12: each ignored write answers the state with its entry taken off the list; the other two are the written
length and the bytes of the load, read back by index. -/
theorem ignoredHostWrites : Obligations.IgnoredHostWrites := by
  refine ⟨fun s e later hhost hignored => ?_, fun s v later hhost hidle => ?_, fun s bytes later hhost hidle => ?_⟩
  · rcases hignored with ⟨v, rfl, hbusy | hvalue⟩ | ⟨r, v, rfl⟩ | ⟨hbusy, v, rfl⟩ <;> simp only [step, hhost]
    · exact hostWriteCmd_of_busy v hbusy
    · exact hostWriteCmd_of_no_command hvalue _
    · exact congrArg _ (hostWriteSrcLen_of_busy v hbusy)
  · simp only [step, hhost]
    exact congrArg _ (hostWriteSrcLen_of_not_busy v hidle)
  · refine ⟨Mem.ofBytes 0 bytes, ?_, fun k b hk => ?_⟩
    · rcases hostLoad_cases bytes { s with host := later } with ⟨-, hload⟩ | ⟨hbusy, -⟩
      · simp only [step, hhost, hload]
      · exact absurd (hidle.symm.trans hbusy) nofun
    · rw [cell?_ofBytes, if_pos (Nat.zero_le k), Nat.sub_zero, hk]

end Sys2Proof.Machine

/-! ## Every run ends (43_container.md R228)

Each step of an UNPACK run that does not end it takes a source byte or appends one, so `State.moved` counts its steps. A
PACK run does a bounded amount of work at each position of `P`. -/

namespace Sys2Proof.Machine

/-! ### What a run of the block keeps -/

/-- A run that the host leaves alone keeps the invariant, the configuration, the operation and the source
(10_state.md R48; 20_memory.md R61). -/
theorem runFor_fixed {k : Nat} {s t : State} (h : s.Inv) (hhost : s.host = []) (hrun : runFor k s = .next t) :
    t.Inv ∧ t.host = [] ∧ t.cfg = s.cfg ∧ t.op = s.op ∧ t.srcLen = s.srcLen ∧ t.src = s.src := by
  refine runFor_keeps (Q := fun u => u.Inv ∧ u.host = [] ∧ u.cfg = s.cfg ∧ u.op = s.op ∧ u.srcLen = s.srcLen ∧
    u.src = s.src) ?_ ⟨h, hhost, rfl, rfl, rfl, rfl⟩ hrun
  rintro u v ⟨hinv, hquiet, hcfg, hop, hlen, hsrc⟩ hstep
  obtain ⟨-, rfl⟩ := blockStep_next_iff.mp ((step_of_host_nil hquiet).symm.trans hstep)
  obtain ⟨hcfg', hop', hlen', hsrc', hhost', -⟩ := ruleStep_fixed u
  exact ⟨ruleStep_inv hinv, hhost'.trans hquiet, hcfg'.trans hcfg, hop'.trans hop, hlen'.trans hlen, hsrc'.trans hsrc⟩

theorem step_of_inv {s : State} (h : s.Inv) (hhost : s.host = []) : step s = .next s.ruleStep :=
  step_eq_next_ruleStep hhost h.operandsHeld

theorem ruleStep_host (s : State) : s.ruleStep.host = s.host := by
  obtain ⟨-, -, -, -, hhost, -⟩ := ruleStep_fixed s
  exact hhost

theorem State.Inv.op_of_unpack {s : State} (h : s.Inv) (hst : s.st.ofUnpack = true) : s.op = .unpack := by
  obtain ⟨-, -, hphase⟩ := h
  cases hs : s.st <;> simp only [State.phaseHeld, hs] at hphase
  case uMagic | uSize | uPad | dFlag | dTok | dLen | dCopy =>
    obtain ⟨⟨hop, -⟩, -⟩ := hphase
    exact hop
  all_goals simp [St.ofUnpack, hs] at hst

theorem State.Inv.op_of_pack {s : State} (h : s.Inv) (hst : s.st.ofPack = true) : s.op = .pack := by
  obtain ⟨-, -, hphase⟩ := h
  cases hs : s.st <;> simp only [State.phaseHeld, hs] at hphase
  case pHdr | pNext | pScan | pEmit | pFlush =>
    obtain ⟨⟨hop, -⟩, -⟩ := hphase
    exact hop
  all_goals simp [St.ofPack, hs] at hst

/-- A rule of an UNPACK state leads to an UNPACK state or out of the run. -/
theorem ruleStep_ofUnpack {s : State} (h : s.Inv) (hst : s.st.ofUnpack = true) (hbusy : s.ruleStep.busy = true) :
    s.ruleStep.st.ofUnpack = true := by
  refine (ofUnpack_or_ofPack_of_busy hbusy).resolve_right fun hpack => ?_
  have hop := (ruleStep_inv h).op_of_pack hpack
  rw [ruleStep_op, h.op_of_unpack hst] at hop
  cases hop

/-! ### The steps of an UNPACK run are bytes taken or bytes appended -/

/-- The source bytes taken and the bytes appended. -/
def State.moved (s : State) : Nat := s.spos.toNat + s.outLen.toNat

/-- A rule of an UNPACK state takes a byte, appends one, or ends the run. -/
theorem ruleStep_progress_of_unpack {s : State} (hst : s.st.ofUnpack = true) :
    s.ruleStep.busy = false ∨ s.ruleStep.spos = s.spos + 1 ∨ s.ruleStep.outLen = s.outLen + 1 := by
  cases hs : s.st <;> simp only [State.ruleStep, hs]
  case uMagic =>
    rcases magicStep_cases (s.srcByte s.spos.toNat) s with ⟨-, h⟩ | ⟨-, acc, -, ⟨-, h⟩ | ⟨-, -, h⟩ | ⟨-, -, h⟩⟩ <;>
      rw [h]
    · exact .inl rfl
    all_goals exact .inr (.inl rfl)
  case uSize =>
    rcases sizeStep_cases (s.srcByte s.spos.toNat) s with ⟨-, h⟩ | ⟨-, h⟩ <;> rw [h]
    · exact .inl rfl
    · exact .inr (.inl rfl)
  case uPad =>
    rcases padStep_cases s with ⟨-, h⟩ | ⟨-, h⟩ <;> rw [h]
    · exact .inl rfl
    · exact .inr (.inl rfl)
  case dFlag =>
    rcases flagStep_cases (s.srcByte s.spos.toNat) s with ⟨-, h⟩ | ⟨-, -, h⟩ | ⟨-, -, h⟩ <;> rw [h]
    · exact .inl rfl
    · exact .inl rfl
    · exact .inr (.inl rfl)
  case dTok =>
    rcases tokStep_cases (s.srcByte s.spos.toNat) s with ⟨-, h⟩ | ⟨-, -, h⟩ | ⟨-, -, h⟩ <;> rw [h]
    · exact .inl rfl
    all_goals exact .inr (.inl rfl)
  case dLen =>
    rcases lenStep_cases (s.srcByte s.spos.toNat) s with ⟨-, h⟩ | ⟨-, u, rfl, ⟨-, h⟩ | ⟨-, -, -, h⟩ | ⟨-, -, h⟩⟩ <;>
      rw [h]
    · exact .inl rfl
    all_goals exact .inr (.inl rfl)
  case dCopy => exact .inr (.inr rfl)
  all_goals simp [St.ofUnpack, hs] at hst

theorem ruleStep_spos_advances {s : State} (h : s.Inv) (hst : s.st.ofUnpack = true) :
    s.ruleStep.spos.toNat = s.spos.toNat ∨ s.ruleStep.spos.toNat = s.spos.toNat + 1 := by
  rcases ruleStep_spos_of_unpack hst with hkeep | ⟨he, hnext⟩
  · exact .inl (congrArg _ hkeep)
  · obtain ⟨hsucc, -⟩ := spos_succ_of_not_exhausted (h.spos_le hst) he
    exact .inr ((congrArg _ hnext).trans hsucc)

theorem ruleStep_outLen_advances {s : State} (h : s.Inv) (hst : s.st.ofUnpack = true) :
    s.ruleStep.outLen.toNat = s.outLen.toNat ∨ s.ruleStep.outLen.toNat = s.outLen.toNat + 1 := by
  rcases ruleStep_extends_dst_of_unpack h hst with ⟨-, hkeep⟩ | ⟨v, -, hnext⟩
  · exact .inl (congrArg _ hkeep)
  · exact .inr hnext

/-- No count of an UNPACK run wraps, so `moved` grows by one or two where the run goes on, and never falls. -/
theorem moved_ruleStep {s : State} (h : s.Inv) (hst : s.st.ofUnpack = true) :
    s.moved ≤ s.ruleStep.moved ∧ (s.ruleStep.busy = true → s.moved < s.ruleStep.moved) := by
  have hspos := ruleStep_spos_advances h hst
  have hout := ruleStep_outLen_advances h hst
  unfold State.moved
  refine ⟨by omega, fun hbusy => ?_⟩
  rcases ruleStep_progress_of_unpack hst with hend | hnext | hnext
  · exact absurd (hbusy.symm.trans hend) nofun
  · bv_omega
  · bv_omega

/-! ### The work left -/

/-- The steps that may be left, at most: in UNPACK the bytes that may still move; in PACK the input left, each position
of which takes fewer than `2^18` steps, and what is left of the scan or the group at this one. -/
def State.work (s : State) : Nat :=
  match s.st with
  | .idle | .done | .failed => 0
  | .uMagic | .uSize | .uPad | .dFlag | .dTok | .dLen | .dCopy => s.srcLen.toNat + 2 ^ 32 - s.moved
  | .pHdr => (s.srcLen.toNat + 1) * 2 ^ 18 + (128 - s.hcnt.toNat)
  | .pNext => (s.srcLen.toNat - s.p.toNat) * 2 ^ 18 + 2 ^ 17 + (if s.gcnt = 0 then 0 else 64)
  | .pScan => (s.srcLen.toNat - s.p.toNat) * 2 ^ 18 + (257 - s.cd.toNat) * 257 + (256 - s.cl.toNat) + 2
  | .pEmit => (s.srcLen.toNat - s.p.toNat) * 2 ^ 18 + 1
  | .pFlush => (s.srcLen.toNat - s.p.toNat) * 2 ^ 18 + 2 ^ 17 + 1 + (s.glen.toNat - s.gidx.toNat)

theorem work_of_not_busy {s : State} (h : s.busy = false) : s.work = 0 := by
  cases hs : s.st <;> simp [State.busy, hs] at h <;> simp only [State.work, hs]

theorem work_of_unpack {s : State} (h : s.st.ofUnpack = true) : s.work = s.srcLen.toNat + 2 ^ 32 - s.moved := by
  cases hs : s.st <;> simp [St.ofUnpack, hs] at h <;> simp only [State.work, hs]

theorem work_ruleStep_of_unpack {s : State} (h : s.Inv) (hst : s.st.ofUnpack = true) : s.ruleStep.work < s.work := by
  have hspos := h.spos_le hst
  have hout := s.outLen.isLt
  obtain ⟨-, hmoved⟩ := moved_ruleStep h hst
  rw [work_of_unpack hst]
  cases hbusy : s.ruleStep.busy
  · rw [work_of_not_busy hbusy]
    unfold State.moved
    omega
  · have hlt := hmoved hbusy
    rw [work_of_unpack (ruleStep_ofUnpack h hst hbusy), ruleStep_srcLen]
    unfold State.moved at hlt ⊢
    omega

theorem work_hdrStep {s : State} (h : s.Inv) (hst : s.st = .pHdr) : (hdrStep s).work < s.work := by
  obtain ⟨hcnt, -⟩ := (operandsHeld_pHdr_iff hst).mp h.operandsHeld
  have hcnt' : (s.hcnt + 1).toNat = s.hcnt.toNat + 1 := by bv_omega
  rw [hdrStep_eq]
  by_cases hlast : s.hcnt.toNat + 1 = 128 <;> simp only [State.work, hst, hlast, if_true, if_false]
  · split <;> omega
  · omega

theorem work_nextStep {s : State} (h : s.Inv) (hst : s.st = .pNext) : (nextStep s).work < s.work := by
  obtain ⟨-, -, hphase⟩ := h
  simp only [State.phaseHeld, hst] at hphase
  obtain ⟨-, hgroup, hcnt, -⟩ := hphase
  have hglen := hgroup.glen_le
  rcases nextStep_cases s with ⟨-, hpending, hs⟩ | ⟨-, -, hs⟩ | ⟨-, hs⟩ <;> rw [hs]
  · have hne : s.gcnt ≠ 0 := fun h0 => Nat.ne_of_gt hpending (congrArg BitVec.toNat h0)
    simp only [State.work, hst, goto_st, goto_srcLen, goto_p, goto_glen, goto_gidx, if_neg hne]
    omega
  · simp [State.work, hst]
  · simp only [State.work, hst]
    split <;> simp

theorem work_scanStep {s : State} (h : s.Inv) (hst : s.st = .pScan) : (scanStep s).work < s.work := by
  obtain ⟨-, -, hphase⟩ := h
  simp only [State.phaseHeld, hst] at hphase
  have hmaxd := maxDistAt_le s
  have hmaxl := maxLenAt_le s
  rcases scanStep_cases s with ⟨-, hs⟩ | ⟨-, hcl, -, hs⟩ | ⟨hcd, -, ⟨-, hs⟩ | ⟨-, hs⟩⟩ <;> rw [hs]
  · simp only [State.work, hst, goto_st, goto_srcLen, goto_p]
    omega
  · have hcl' : (s.cl + 1).toNat = s.cl.toNat + 1 := by bv_omega
    simp only [State.work, hst, hcl']
    omega
  all_goals
    have hcd' : (s.cd + 1).toNat = s.cd.toNat + 1 := by bv_omega
    simp only [State.work, hst, hcd']
    omega

/-- At a token boundary the work is below that of the position before (42_encoder.md R186, R190). -/
theorem work_at_boundary {s : State} (hst : s.st = .pNext ∨ s.st = .pFlush) :
    s.work < (s.srcLen.toNat - s.p.toNat + 1) * 2 ^ 18 := by
  have hglen := s.glen.isLt
  rcases hst with hst | hst <;> simp only [State.work, hst]
  · split <;> omega
  · omega

/-- An emission consumes input (42_encoder.md R189). -/
theorem emitStep_p {s : State} (hst : s.st = .pEmit) (hheld : s.operandsHeld = true) :
    s.p.toNat < (emitStep s).p.toNat ∧ (emitStep s).p.toNat ≤ s.srcLen.toNat := by
  obtain ⟨hp, -, -, hfit, hsrc, -⟩ := (operandsHeld_pEmit_iff hst).mp hheld
  obtain ⟨x, -, ⟨hlong, hs⟩ | ⟨-, hs⟩⟩ := emitStep_cases s <;> rw [hs]
  · have hnext : (s.p + s.bl.setWidth 32).toNat = s.p.toNat + s.bl.toNat := by bv_omega
    simp only [queueCopy, hnext]
    omega
  · have hnext : (s.p + 1).toNat = s.p.toNat + 1 := by bv_omega
    simp only [queueLiteral, hnext]
    omega

theorem emitStep_st (s : State) : (emitStep s).st = if s.gcnt.toNat + 1 = 8 then .pFlush else .pNext := rfl

theorem emitStep_srcLen (s : State) : (emitStep s).srcLen = s.srcLen := by rw [emitStep_frame]

theorem work_emitStep {s : State} (h : s.Inv) (hst : s.st = .pEmit) : (emitStep s).work < s.work := by
  obtain ⟨hlt, hle⟩ := emitStep_p hst h.operandsHeld
  have hboundary : (emitStep s).st = .pNext ∨ (emitStep s).st = .pFlush := by
    rw [emitStep_st]
    split <;> simp
  have hnext := work_at_boundary hboundary
  have hwork : s.work = (s.srcLen.toNat - s.p.toNat) * 2 ^ 18 + 1 := by simp only [State.work, hst]
  rw [emitStep_srcLen] at hnext
  omega

theorem work_flushStep {s : State} (h : s.Inv) (hst : s.st = .pFlush) : (flushStep s).work < s.work := by
  obtain ⟨-, -, hlen, hidx, -⟩ := (operandsHeld_pFlush_iff hst).mp h.operandsHeld
  rcases flushStep_cases s with ⟨-, hs⟩ | ⟨hmore, hs⟩ <;> rw [hs]
  · simp only [State.work, hst, emit_srcLen, emit_p, if_true]
    omega
  · have hidx' : (s.gidx + 1).toNat = s.gidx.toNat + 1 := by bv_omega
    simp only [State.work, hst, hidx', emit_st, emit_srcLen, emit_p, emit_glen]
    omega

theorem work_ruleStep {s : State} (h : s.Inv) (hbusy : s.busy = true) : s.ruleStep.work < s.work := by
  rcases ofUnpack_or_ofPack_of_busy hbusy with hst | hst
  · exact work_ruleStep_of_unpack h hst
  cases hs : s.st <;> simp only [State.ruleStep, hs]
  case pHdr => exact work_hdrStep h hs
  case pNext => exact work_nextStep h hs
  case pScan => exact work_scanStep h hs
  case pEmit => exact work_emitStep h hs
  case pFlush => exact work_flushStep h hs
  all_goals simp [St.ofPack, hs] at hst

/-! ### The end of a run -/

/-- A run from a busy state has a last busy state. -/
theorem exists_last_step {s : State} (h : s.Inv) (hhost : s.host = []) (hbusy : s.busy = true) :
    ∃ k t, runFor k s = .next t ∧ t.busy = true ∧ t.ruleStep.busy = false := by
  induction hw : s.work using Nat.strong_induction_on generalizing s with
  | _ w ih =>
    cases hnext : s.ruleStep.busy
    · exact ⟨0, s, rfl, hbusy, hnext⟩
    · obtain ⟨k, t, hrun, ht⟩ := ih _ (hw ▸ work_ruleStep h hbusy) (ruleStep_inv h) ((ruleStep_host s).trans hhost)
        hnext rfl
      exact ⟨k + 1, t, (runFor_succ_of_next (step_of_inv h hhost)).trans hrun, ht⟩

theorem runFor_ends {s : State} (h : s.Inv) (hhost : s.host = []) :
    ∃ k t, runFor k s = .next t ∧ t.busy = false := by
  cases hbusy : s.busy
  · exact ⟨0, s, rfl, hbusy⟩
  · obtain ⟨k, t, hrun, -, hend⟩ := exists_last_step h hhost hbusy
    obtain ⟨hinv, hquiet, -⟩ := runFor_fixed h hhost hrun
    exact ⟨k + 1, _, runFor_succ_of_last hrun (step_of_inv hinv hquiet), hend⟩

/-- While an UNPACK run goes on, each step moves a byte. -/
theorem moved_runFor {k : Nat} {s t : State} (h : s.Inv) (hhost : s.host = []) (hst : s.st.ofUnpack = true)
    (hrun : runFor k s = .next t) (hbusy : t.busy = true) : s.moved + k ≤ t.moved := by
  induction k generalizing s with
  | zero =>
    cases hrun
    exact le_rfl
  | succ k ih =>
    rw [runFor_succ_of_next (step_of_inv h hhost)] at hrun
    have hquiet := (ruleStep_host s).trans hhost
    obtain ⟨-, hmoved⟩ := moved_ruleStep h hst
    cases hnext : s.ruleStep.busy
    · rw [runFor_of_not_busy hquiet hnext] at hrun
      cases hrun
      exact absurd (hnext.symm.trans hbusy) nofun
    · have hlt := hmoved hnext
      have hrest := ih (ruleStep_inv h) hquiet (ruleStep_ofUnpack h hst hnext) hrun
      omega

/-- An ended UNPACK run is in `Done` with the whole output, or in `Failed` with some owed or none out
(10_state.md R25). -/
theorem State.Inv.ended_unpack {s : State} (h : s.Inv) (hop : s.op = .unpack) (hend : s.busy = false) :
    (s.st = .done ∧ s.outLen = s.unpackedSize ∧ s.lookback) ∨
      (s.st = .failed ∧ (s.outLen.toNat < s.unpackedSize.toNat ∨ s.outLen = 0)) := by
  obtain ⟨-, -, hphase⟩ := h
  cases hs : s.st <;> simp [State.busy, hs] at hend <;> simp only [State.phaseHeld, hs] at hphase
  case idle => cases hop.symm.trans hphase
  case done =>
    rcases hphase with ⟨-, hdone, hlook⟩ | ⟨hpack, -⟩
    · exact .inl ⟨rfl, hdone, hlook⟩
    · cases hop.symm.trans hpack
  case failed =>
    obtain ⟨-, -, howed⟩ := hphase
    exact .inr ⟨rfl, howed⟩

theorem State.Inv.outLen_le_of_ended {s : State} (h : s.Inv) (hop : s.op = .unpack) (hend : s.busy = false) :
    s.outLen.toNat ≤ s.unpackedSize.toNat := by
  rcases h.ended_unpack hop hend with ⟨-, hdone, -⟩ | ⟨-, howed | hzero⟩
  · rw [hdone]
  · exact howed.le
  · rw [hzero]
    exact Nat.zero_le _

theorem inv_unpackStarted (c : Params) (src : List Byte) : (unpackStarted c src).Inv :=
  inv_start_unpack ⟨wf_ofBytes 0 src, rfl, rfl, rfl, nofun, nofun⟩

/-- Settles O60: the work left falls with every step of a run; in UNPACK each step before the last moves a byte, and
what is moved in the end is within the source and `UNPACKED_SIZE`. -/
theorem everyRunEnds : Obligations.EveryRunEnds := by
  refine ⟨fun s h hhost => runFor_ends h hhost, fun c src hlen => ?_⟩
  have hstart := inv_unpackStarted c src
  obtain ⟨k, t, hrun, hbusy, hend⟩ := exists_last_step hstart rfl rfl
  obtain ⟨hinv, hquiet, -, hop, hsrcLen, -⟩ := runFor_fixed hstart rfl hrun
  have hst : t.st.ofUnpack = true := (ofUnpack_or_ofPack_of_busy hbusy).resolve_right fun hpack =>
    nomatch (hinv.op_of_pack hpack).symm.trans hop
  have hcount := moved_runFor hstart rfl rfl hrun hbusy
  obtain ⟨hmoved, -⟩ := moved_ruleStep hinv hst
  have hstep := step_of_inv hinv hquiet
  obtain ⟨hspos, -⟩ := sourcePositionAdvancesByOne t _ hinv hquiet hstep
  obtain ⟨-, hle⟩ := hspos hst
  have hout := (ruleStep_inv hinv).outLen_le_of_ended ((ruleStep_op t).trans hop) hend
  rw [ruleStep_srcLen, hsrcLen] at hle
  have hlen' : (unpackStarted c src).srcLen.toNat = src.length := Nat.mod_eq_of_lt hlen
  refine ⟨k + 1, t.ruleStep, runFor_succ_of_last hrun hstep, hend, ?_⟩
  unfold State.moved at hcount hmoved
  omega

end Sys2Proof.Machine

/-! ## The UNPACK run gives the result of `unpack` (43_container.md R225, R226)

`State.outcome` is what `decode_body` gives from a state of the body on. Every rule of the decoder keeps it; in `Done`
it is the output, in `Failed` the error. -/

namespace Sys2Proof.Machine

/-! ### The output as a list of bytes -/

/-- A store whose addresses rise by one from `a` is the store of its bytes. -/
theorem ofBytes_map_snd {m : Mem} {a : Nat} (h : m.map Prod.fst = List.range' a m.length) :
    Mem.ofBytes a (m.map Prod.snd) = m := by
  induction m generalizing a with
  | nil => rfl
  | cons e m ih =>
    obtain ⟨k, b⟩ := e
    rw [List.map_cons, List.length_cons, List.range'_succ, List.cons.injEq] at h
    obtain ⟨rfl, hrest⟩ := h
    rw [List.map_cons, Mem.ofBytes, ih hrest]

theorem length_of_listsBelow {m : Mem} {n : Nat} (h : m.listsBelow n) : m.length = n := by
  rw [← List.length_map (f := Prod.fst), h, List.length_range]

/-- A store that lists the addresses below a bound reads as the list of its bytes. -/
theorem cell?_of_listsBelow {m : Mem} {n : Nat} (h : m.listsBelow n) (a : Nat) :
    Mem.cell? m a = (m.map Prod.snd)[a]? := by
  have hfst : m.map Prod.fst = List.range' 0 m.length := by
    rw [length_of_listsBelow h, ← List.range_eq_range']
    exact h
  have hcell := cell?_ofBytes 0 (m.map Prod.snd) a
  rwa [ofBytes_map_snd hfst, if_pos (Nat.zero_le a), Nat.sub_zero] at hcell

theorem filterMap_getElem?_range (l : List Byte) : (List.range l.length).filterMap (fun a => l[a]?) = l := by
  induction l with
  | nil => rfl
  | cons b l ih =>
    rw [List.length_cons, List.range_succ_eq_map, List.filterMap_cons_some List.getElem?_cons_zero, List.filterMap_map]
    exact congrArg (b :: ·) ih

theorem firstBytes_of_listsBelow {m : Mem} {n : Nat} (h : m.listsBelow n) : Mem.firstBytes m n = m.map Prod.snd := by
  have hcell : Mem.cell? m = fun a => (m.map Prod.snd)[a]? := funext (cell?_of_listsBelow h)
  have hlen : n = (m.map Prod.snd).length := by rw [List.length_map, length_of_listsBelow h]
  rw [Mem.firstBytes, hcell, hlen, filterMap_getElem?_range]

/-- The bytes of DST, in order (20_memory.md R63). -/
def State.output (s : State) : List Byte := s.dst.map Prod.snd

theorem length_output {s : State} {n : Nat} (h : s.dst.listsBelow n) : s.output.length = n := by
  rw [State.output, List.length_map, length_of_listsBelow h]

theorem output_append {s : State} (v : Byte) (h : s.dst.listsBelow s.outLen.toNat) :
    (s.append v).output = s.output ++ [v] := by
  rw [State.output, append_dst, put_of_listsBelow v h, List.map_append]
  rfl

theorem listsBelow_append {s : State} (v : Byte) (h : s.dst.listsBelow s.outLen.toNat)
    (howed : s.outLen.toNat < s.unpackedSize.toNat) :
    (s.append v).dst.listsBelow (s.append v).outLen.toNat := by
  have hsucc : (s.outLen + 1).toNat = s.outLen.toNat + 1 := by
    have := s.unpackedSize.isLt
    bv_omega
  rw [append_dst, append_outLen, hsucc]
  exact listsBelow_put v h

/-! ### The source as a list of bytes -/

/-- SRC holds the given bytes and `SRC_LEN` is their number (43_container.md R220). -/
def State.onSource (s : State) (src : List Byte) : Prop := s.src = Mem.ofBytes 0 src ∧ s.srcLen.toNat = src.length

theorem onSource_of_fixed {s t : State} {src : List Byte} (h : s.onSource src) (hmem : t.src = s.src)
    (hlen : t.srcLen = s.srcLen) : t.onSource src := by
  rwa [State.onSource, hmem, hlen]

theorem onSource_ruleStep {s : State} {src : List Byte} (h : s.onSource src) : s.ruleStep.onSource src := by
  obtain ⟨-, -, hlen, hmem, -⟩ := ruleStep_fixed s
  exact onSource_of_fixed h hmem hlen

theorem drop_of_exhausted {s : State} {src : List Byte} (hsrc : s.onSource src) (he : s.srcExhausted = true) :
    src.drop s.spos.toNat = [] := by
  obtain ⟨-, hlen⟩ := hsrc
  rw [srcExhausted_eq_true_iff.mp he, hlen]
  exact List.drop_length

/-- The byte at `SPOS` is the first of those unread, and the rest are unread after it is taken. -/
theorem drop_of_more {s : State} {src : List Byte} (hsrc : s.onSource src) (hle : s.spos.toNat ≤ s.srcLen.toNat)
    (he : s.srcExhausted = false) :
    src.drop s.spos.toNat = s.srcByte s.spos.toNat :: src.drop (s.spos + 1).toNat := by
  obtain ⟨hmem, hlen⟩ := hsrc
  obtain ⟨hsucc, hroom⟩ := spos_succ_of_not_exhausted hle he
  have hlt : s.spos.toNat < src.length := by omega
  have hbyte := getElem?_eq_srcByte hmem hlt
  rw [List.getElem?_eq_getElem hlt, Option.some_inj] at hbyte
  rw [hsucc, List.drop_eq_getElem_cons hlt, hbyte]

/-! ### The queue of selectors as a list -/

/-- The selectors in the queue, the next one first (10_state.md R30, R31). -/
def State.queue (s : State) : List Bool :=
  (List.range s.fcnt.toNat).map fun k => s.flags.getLsbD (flagpos s.cfg.flagOrder k)

theorem queue_of_empty {s : State} (h : s.fcnt = 0) : s.queue = [] := by
  rw [State.queue, h]
  rfl

/-- The token's selector is the head of the queue, and a pop leaves the rest (41_decoder.md R142). -/
theorem queue_of_pop {s : State} (hlo : 1 ≤ s.fcnt.toNat) (hhi : s.fcnt.toNat ≤ 8) :
    s.queue = s.selector :: s.popFlag.queue := by
  have hcnt := popFlag_fcnt_toNat hlo
  have hsucc : s.fcnt.toNat = s.popFlag.fcnt.toNat + 1 := by omega
  rw [State.queue, hsucc, List.range_succ_eq_map, List.map_cons, List.map_map]
  refine congrArg _ (List.map_congr_left fun k hk => ?_)
  have hk' := List.mem_range.mp hk
  exact (getLsbD_shiftFlags _ _ (by omega)).symm

/-! ### `decode_body` from the middle of a Copy (41_decoder.md R155) -/

/-- What is left of P-R155 once a Copy's distance byte is read. -/
def decodeLength (c : Params) (size : Nat) (sels : List Bool) (x : Byte) (body out : List Byte) :
    Except Err (List Byte) :=
  match body with
  | [] => .error .truncatedInput
  | y :: rest =>
    if out.length < mapD c x then .error .invalidOffset
    else if c.overshoot = .fault ∧ size < out.length + mapL c y then .error .sizeMismatch
    else decodeFrom c size sels rest (copyLoop size (mapD c x) (mapL c y) out)

theorem decodeFrom_copy (c : Params) {size : Nat} (sels : List Bool) (x : Byte) (body : List Byte) {out : List Byte}
    (h : out.length ≠ size) :
    decodeFrom c size (Config.doc.flagLz :: sels) (x :: body) out = decodeLength c size sels x body out := by
  cases body with
  | nil => rw [decodeFrom, if_neg h, if_neg (by decide), decodeLength]
  | cons y rest => rw [decodeFrom, if_neg h, if_neg (by decide), decodeLength]

theorem decodeFrom_truncated (c : Params) {size : Nat} (sels : List Bool) {out : List Byte} (h : out.length ≠ size) :
    decodeFrom c size sels [] out = .error .truncatedInput := by
  rw [decodeFrom, if_neg h]

theorem copyLoop_of_complete {size : Nat} (d l : Nat) {out : List Byte} (h : out.length = size) :
    copyLoop size d l out = out := by
  cases l with
  | zero => rfl
  | succ l => rw [copyLoop, if_pos h]

/-! ### What the function gives from a state on -/

/-- What `decode_body` gives from a state of the body on; the result in `Done` and `Failed`. -/
def State.outcome (s : State) (src : List Byte) : Except Err (List Byte) :=
  match s.st with
  | .dFlag => decodeFrom s.cfg s.unpackedSize.toNat [] (src.drop s.spos.toNat) s.output
  | .dTok => decodeFrom s.cfg s.unpackedSize.toNat s.queue (src.drop s.spos.toNat) s.output
  | .dLen => decodeLength s.cfg s.unpackedSize.toNat s.queue s.distb (src.drop s.spos.toNat) s.output
  | .dCopy =>
    decodeFrom s.cfg s.unpackedSize.toNat s.queue (src.drop s.spos.toNat)
      (copyLoop s.unpackedSize.toNat s.dist.toNat s.rem.toNat s.output)
  | .done => .ok s.output
  | .failed => .error s.err
  | _ => unpackBytes s.cfg src

section
variable {s : State} {src : List Byte}

theorem outcome_of_dFlag (hst : s.st = .dFlag) :
    s.outcome src = decodeFrom s.cfg s.unpackedSize.toNat [] (src.drop s.spos.toNat) s.output := by
  simp only [State.outcome, hst]

theorem outcome_of_dTok (hst : s.st = .dTok) :
    s.outcome src = decodeFrom s.cfg s.unpackedSize.toNat s.queue (src.drop s.spos.toNat) s.output := by
  simp only [State.outcome, hst]

theorem outcome_of_dLen (hst : s.st = .dLen) :
    s.outcome src =
      decodeLength s.cfg s.unpackedSize.toNat s.queue s.distb (src.drop s.spos.toNat) s.output := by
  simp only [State.outcome, hst]

theorem outcome_of_dCopy (hst : s.st = .dCopy) :
    s.outcome src =
      decodeFrom s.cfg s.unpackedSize.toNat s.queue (src.drop s.spos.toNat)
        (copyLoop s.unpackedSize.toNat s.dist.toNat s.rem.toNat s.output) := by
  simp only [State.outcome, hst]

theorem outcome_of_done (hst : s.st = .done) : s.outcome src = .ok s.output := by
  simp only [State.outcome, hst]

theorem outcome_of_failed (hst : s.st = .failed) : s.outcome src = .error s.err := by
  simp only [State.outcome, hst]

theorem length_output_eq_iff (hlists : s.dst.listsBelow s.outLen.toNat) :
    s.output.length = s.unpackedSize.toNat ↔ s.outLen = s.unpackedSize := by
  rw [length_output hlists, BitVec.toNat_inj]

/-- After a completed token: the Done check, then the group's next token or the next group (41_decoder.md R149). -/
theorem outcome_afterToken (hlists : s.dst.listsBelow s.outLen.toNat) (src : List Byte) :
    (s.goto s.afterToken).outcome src =
      decodeFrom s.cfg s.unpackedSize.toNat s.queue (src.drop s.spos.toNat) s.output := by
  unfold State.afterToken
  split_ifs with hdone hempty
  · rw [outcome_of_done rfl, decodeFrom_of_complete _ _ _ ((length_output_eq_iff hlists).mpr hdone)]
    rfl
  · rw [outcome_of_dFlag rfl, queue_of_empty hempty]
    rfl
  · rw [outcome_of_dTok rfl]
    rfl

/-! ### Every rule of the decoder keeps it -/

theorem outcome_flagStep (hsrc : s.onSource src) (h : s.Inv) (hst : s.st = .dFlag) :
    (flagStep (s.srcByte s.spos.toNat) s).outcome src = s.outcome src := by
  have hlists := h.dst_listsBelow_outLen (by rw [hst]; rfl)
  have hlen := length_output_eq_iff hlists
  rw [outcome_of_dFlag hst]
  rcases flagStep_cases (s.srcByte s.spos.toNat) s with ⟨hdone, hs⟩ | ⟨howed, he, hs⟩ | ⟨howed, he, hs⟩ <;> rw [hs]
  · rw [outcome_of_done rfl, decodeFrom_of_complete _ _ _ (hlen.mpr hdone)]
    rfl
  · rw [outcome_of_failed rfl, drop_of_exhausted hsrc he, decodeFrom_truncated _ _ (mt hlen.mp howed)]
    rfl
  · have hle := (operandsHeld_dFlag_iff hst).mp h.operandsHeld
    rw [outcome_of_dTok rfl, drop_of_more hsrc hle he, decodeFrom, if_neg (mt hlen.mp howed)]
    rfl

theorem outcome_tokStep (hsrc : s.onSource src) (h : s.Inv) (hst : s.st = .dTok) :
    (tokStep (s.srcByte s.spos.toNat) s).outcome src = s.outcome src := by
  obtain ⟨hlo, hhi, howed, hle⟩ := (operandsHeld_dTok_iff hst).mp h.operandsHeld
  have hlists := h.dst_listsBelow_outLen (by rw [hst]; rfl)
  have hlen : s.output.length ≠ s.unpackedSize.toNat := by
    rw [length_output hlists]
    exact howed.ne
  rw [outcome_of_dTok hst]
  rcases tokStep_cases (s.srcByte s.spos.toNat) s with ⟨he, hs⟩ | ⟨he, hraw, hs⟩ | ⟨he, hlz, hs⟩ <;> rw [hs]
  · rw [outcome_of_failed rfl, drop_of_exhausted hsrc he, decodeFrom_truncated _ _ hlen]
    rfl
  · have hlists' := listsBelow_append (s := s.popFlag.advance) (s.srcByte s.spos.toNat) hlists howed
    rw [drop_of_more hsrc hle he, queue_of_pop hlo hhi, hraw, decodeFrom_literal _ _ _ _ hlen]
    refine (outcome_afterToken hlists' src).trans ?_
    rw [output_append (s := s.popFlag.advance) _ hlists]
    rfl
  · rw [outcome_of_dLen rfl, drop_of_more hsrc hle he, queue_of_pop hlo hhi, hlz, decodeFrom_copy _ _ _ _ hlen]
    rfl

theorem outcome_lenStep (hsrc : s.onSource src) (h : s.Inv) (hst : s.st = .dLen) :
    (lenStep (s.srcByte s.spos.toNat) s).outcome src = s.outcome src := by
  have hlists := h.dst_listsBelow_outLen (by rw [hst]; rfl)
  have hlen := length_output hlists
  rw [outcome_of_dLen hst]
  rcases lenStep_cases (s.srcByte s.spos.toNat) s with ⟨he, hs⟩ | ⟨he, t, ht, hs⟩
  · rw [hs, outcome_of_failed rfl, drop_of_exhausted hsrc he]
    rfl
  obtain rfl : t = lengthLatched (s.srcByte s.spos.toNat) s := ht
  rw [drop_of_more hsrc ((operandsHeld_dLen_iff hst).mp h.operandsHeld) he, decodeLength, hlen]
  rcases hs with ⟨hoffset, hs⟩ | ⟨hd, hfault, hsize, hs⟩ | ⟨hd, hfits, hs⟩ <;> rw [hs]
  · rw [if_pos hoffset]
    rfl
  · rw [if_neg (Nat.not_lt.mpr hd), if_pos ⟨hfault, hsize⟩]
    rfl
  · rw [if_neg (Nat.not_lt.mpr hd), if_neg hfits, outcome_of_dCopy rfl]
    rw [goto_dist, goto_rem, lengthLatched_dist, lengthLatched_rem]
    rfl

/-- The byte a `D_COPY` step appends is the one that the copy loop of P-R155 takes (41_decoder.md R151, R155). -/
theorem histByte_eq_output (h : s.Inv) (hst : s.st = .dCopy) :
    s.histByte (lookbackIndex s) = s.output.getD (s.outLen.toNat - s.dist.toNat) 0 := by
  obtain ⟨hlook, -, ⟨hlo, hhi⟩, -⟩ := h.copying hst
  obtain ⟨b, hdst, hhist⟩ := hist_at_distance hlook hlo hhi
  have ⟨hlists, _⟩ := hlook
  rw [cell?_of_listsBelow hlists] at hdst
  rw [State.histByte, show Mem.cell? s.hist (lookbackIndex s) = some b from hhist, List.getD_eq_getElem?_getD,
    State.output, hdst]
  rfl

/-- After a copied byte: the Copy goes on, or it is complete and its loop has nothing left (41_decoder.md R146). -/
theorem outcome_afterCopiedByte (hlists : s.dst.listsBelow s.outLen.toNat) (src : List Byte) :
    (s.goto s.afterCopiedByte).outcome src =
      decodeFrom s.cfg s.unpackedSize.toNat s.queue (src.drop s.spos.toNat)
        (copyLoop s.unpackedSize.toNat s.dist.toNat s.rem.toNat s.output) := by
  rw [afterCopiedByte_eq]
  split_ifs with hmore
  · rw [outcome_of_dCopy rfl]
    rfl
  · have hloop : copyLoop s.unpackedSize.toNat s.dist.toNat s.rem.toNat s.output = s.output := by
      rcases Decidable.not_and_iff_or_not.mp hmore with hdone | hlast
      · exact copyLoop_of_complete _ _ ((length_output_eq_iff hlists).mpr (not_not.mp hdone))
      · rw [not_not.mp hlast]
        rfl
    rw [outcome_afterToken hlists, hloop]

/-- The state of a Copy once its next byte is appended (41_decoder.md R146). -/
def byteCopied (s : State) : State := { s.append (s.histByte (lookbackIndex s)) with rem := s.rem - 1 }

theorem copyStep_eq_byteCopied (s : State) : copyStep s = (byteCopied s).goto (byteCopied s).afterCopiedByte := rfl

theorem outcome_copyStep (h : s.Inv) (hst : s.st = .dCopy) : (copyStep s).outcome src = s.outcome src := by
  obtain ⟨⟨hlists, -⟩, howed, -, hrlo, -⟩ := h.copying hst
  have hlen := length_output hlists
  have hrem : s.rem.toNat = (byteCopied s).rem.toNat + 1 := show _ = (s.rem - 1).toNat + 1 by bv_omega
  have hout : s.output ++ [s.output.getD (s.output.length - s.dist.toNat) 0] = (byteCopied s).output := by
    rw [hlen, ← histByte_eq_output h hst]
    exact (output_append _ hlists).symm
  have hlists' : (byteCopied s).dst.listsBelow (byteCopied s).outLen.toNat := listsBelow_append _ hlists howed
  rw [copyStep_eq_byteCopied, outcome_afterCopiedByte hlists', outcome_of_dCopy hst, hrem, copyLoop,
    if_neg (hlen.trans_ne howed.ne), hout]
  rfl

end

/-! ### The run to its end -/

/-- The states of an UNPACK run past its header, and its two ends. -/
def St.pastHeader (x : St) : Prop := x = .dFlag ∨ x = .dTok ∨ x = .dLen ∨ x = .dCopy ∨ x = .done ∨ x = .failed

theorem outcome_ruleStep {s : State} {src : List Byte} (hsrc : s.onSource src) (h : s.Inv) (hst : s.st.pastHeader) :
    s.ruleStep.outcome src = s.outcome src := by
  rcases hst with hst | hst | hst | hst | hst | hst <;> simp only [State.ruleStep, hst]
  · exact outcome_flagStep hsrc h hst
  · exact outcome_tokStep hsrc h hst
  · exact outcome_lenStep hsrc h hst
  · exact outcome_copyStep h hst

theorem ofUnpack_of_decode {s : State} (hst : s.st = .dFlag ∨ s.st = .dTok ∨ s.st = .dLen ∨ s.st = .dCopy) :
    s.st.ofUnpack = true := by
  rcases hst with hst | hst | hst | hst <;> rw [hst] <;> rfl

theorem State.Inv.spos_of_decode {s : State} (h : s.Inv)
    (hst : s.st = .dFlag ∨ s.st = .dTok ∨ s.st = .dLen ∨ s.st = .dCopy) : 128 ≤ s.spos.toNat := by
  obtain ⟨-, -, hphase⟩ := h
  rcases hst with hst | hst | hst | hst <;> simp only [State.phaseHeld, hst] at hphase <;>
    obtain ⟨⟨-, hbody, -⟩, -⟩ := hphase <;> exact hbody

/-- The decoder does not go back to the header: `SPOS` stays past it. -/
theorem ruleStep_pastHeader_of_decode {s : State} (h : s.Inv)
    (hst : s.st = .dFlag ∨ s.st = .dTok ∨ s.st = .dLen ∨ s.st = .dCopy) : s.ruleStep.st.pastHeader := by
  refine (ruleStep_pastSizeOrEnded (.inr hst)).resolve_left fun hpad => ?_
  have hbefore := h.spos_of_decode hst
  obtain ⟨-, -, hphase⟩ := ruleStep_inv h
  simp only [State.phaseHeld, hpad] at hphase
  obtain ⟨-, -, hafter⟩ := hphase
  have hadvances := ruleStep_spos_advances h (ofUnpack_of_decode hst)
  omega

theorem ruleStep_pastHeader {s : State} (h : s.Inv) (hst : s.st.pastHeader) : s.ruleStep.st.pastHeader := by
  rcases hst with hs | hs | hs | hs | hs | hs
  · exact ruleStep_pastHeader_of_decode h (.inl hs)
  · exact ruleStep_pastHeader_of_decode h (.inr (.inl hs))
  · exact ruleStep_pastHeader_of_decode h (.inr (.inr (.inl hs)))
  · exact ruleStep_pastHeader_of_decode h (.inr (.inr (.inr hs)))
  all_goals
    simp only [State.ruleStep, hs]
    simp [St.pastHeader]

theorem runFor_outcome {k : Nat} {s t : State} {src : List Byte} (h : s.Inv) (hhost : s.host = [])
    (hsrc : s.onSource src) (hst : s.st.pastHeader) (hrun : runFor k s = .next t) :
    t.outcome src = s.outcome src := by
  induction k generalizing s with
  | zero =>
    cases hrun
    rfl
  | succ k ih =>
    rw [runFor_succ_of_next (step_of_inv h hhost)] at hrun
    have hrest := ih (ruleStep_inv h) ((ruleStep_host s).trans hhost) (onSource_ruleStep hsrc)
      (ruleStep_pastHeader h hst) hrun
    exact hrest.trans (outcome_ruleStep hsrc h hst)

theorem unpackBytes_of_header_error (c : Params) {src : List Byte} {k : Err} (h : decodeHeader src = .error k) :
    unpackBytes c src = .error k := by
  simp only [unpackBytes, h]

theorem unpackBytes_of_header_ok (c : Params) {src : List Byte} {n : Word} (h : decodeHeader src = .ok n) :
    unpackBytes c src = decodeFrom c n.toNat [] (src.drop 128) [] := by
  simp only [unpackBytes, h, decodeBody]

/-- The header steps lead to the body, or to `Failed`, with the outcome that `unpack` has (40_header_codec.md R129). -/
theorem exists_runFor_pastHeader (c : Params) {src : List Byte} (hlen : src.length < 2 ^ 34) :
    ∃ k t, runFor k (unpackStarted c src) = .next t ∧ t.st.pastHeader ∧ t.outcome src = unpackBytes c src := by
  rcases decodeHeader_cases src with ⟨n, h⟩ | h | h
  · obtain ⟨hlong, hmagic, hsize⟩ := decodeHeader_ok_iff.mp h
    refine ⟨128, _, runFor_unpackStarted hlen hlong le_rfl fun _ => hmagic, .inl rfl, ?_⟩
    rw [unpackBytes_of_header_ok c h, outcome_of_dFlag rfl, ← hsize, ← partialWord_four]
    rfl
  · obtain ⟨t, hrun, -, hst, herr, -⟩ := runFor_of_decodeHeader_truncated (c := c) hlen h
    exact ⟨_, t, hrun, by simp [St.pastHeader, hst], by
      rw [outcome_of_failed hst, herr, unpackBytes_of_header_error c h]⟩
  · obtain ⟨t, hrun, -, hst, herr, -⟩ := runFor_of_decodeHeader_invalidMagic (c := c) hlen h
    exact ⟨_, t, hrun, by simp [St.pastHeader, hst], by
      rw [outcome_of_failed hst, herr, unpackBytes_of_header_error c h]⟩

/-- What the host takes from DST after the run (43_container.md R229). -/
theorem hostResult_of_done_unpack {s : State} (hst : s.st = .done) (hop : s.op = .unpack) (h : s.lookback) :
    hostResult s = some s.output ∧ s.outLen.toNat = s.output.length := by
  obtain ⟨hlists, -⟩ := h
  refine ⟨?_, (length_output hlists).symm⟩
  simp only [hostResult, hst, hop, firstBytes_of_listsBelow hlists, State.output]

theorem hostResult_of_failed {s : State} (hst : s.st = .failed) : hostResult s = none := by
  simp only [hostResult, hst]

/-- Settles O56: the header steps lead to the outcome of `unpack`, the decoder's rules keep it, and the run ends. -/
theorem unpackRunAgreesWithTheFunction : Obligations.UnpackRunAgreesWithTheFunction := by
  intro c src hlen
  have hstart := inv_unpackStarted c src
  obtain ⟨j, u, hheader, hst, hout⟩ := exists_runFor_pastHeader c hlen
  obtain ⟨hinv, hquiet, -, hop, hsrcLen, hsrc⟩ := runFor_fixed hstart rfl hheader
  obtain ⟨k, t, hbody, hend⟩ := runFor_ends hinv hquiet
  obtain ⟨hinv', -, -, hop', -⟩ := runFor_fixed hinv hquiet hbody
  have hsource : u.onSource src := ⟨hsrc, (congrArg BitVec.toNat hsrcLen).trans (Nat.mod_eq_of_lt hlen)⟩
  have hresult := (runFor_outcome hinv hquiet hsource hst hbody).trans hout
  have hunpack : t.op = .unpack := hop'.trans hop
  refine ⟨j + k, t, (runFor_add hheader).trans hbody, hend, ?_⟩
  rw [← hresult]
  rcases hinv'.ended_unpack hunpack hend with ⟨hdone, hsize, hlook⟩ | ⟨hfail, -⟩
  · obtain ⟨htaken, hcount⟩ := hostResult_of_done_unpack hdone hunpack hlook
    have herr := hinv'.err_eq_none (by simp [hdone])
    rw [outcome_of_done hdone, htaken, hdone]
    refine ⟨fun out => by simp, fun out hok => ?_, fun e => iff_of_false nofun fun ⟨hfailed, _⟩ => nomatch hfailed⟩
    cases hok
    exact ⟨rfl, herr, hcount, hsize⟩
  · rw [outcome_of_failed hfail, hostResult_of_failed hfail, hfail]
    exact ⟨fun out => iff_of_false nofun nofun, fun out => nofun, fun e => by simp⟩

end Sys2Proof.Machine

/-! ## The PACK run gives the container of `pack` (43_container.md R227)

`State.holdsTokens` says which tokens the pending group holds, `State.grouped` that what is out, the pending group and
the tokens of the input from `P` on make the container. The rules of the encoder keep it; a whole scan is one step here,
since it ends with `best(P)` (`scanFindsTheBestMatch`). -/

namespace Sys2Proof.Machine

/-! ### The tokens from a position on (42_encoder.md R185) -/

/-- No tokens at or past the end of the input. -/
theorem tokensFrom_end {input : List Byte} {p : Nat} (fuel : Nat) (h : input.length ≤ p) :
    tokensFrom input fuel p = [] := by
  cases fuel with
  | zero => rfl
  | succ fuel => rw [tokensFrom, if_neg (Nat.not_lt.mpr h)]

/-- Fuel beyond the input left changes nothing: each token covers a byte. -/
theorem tokensFrom_fuel {input : List Byte} {f g p : Nat} (hf : input.length ≤ p + f) (hg : input.length ≤ p + g) :
    tokensFrom input f p = tokensFrom input g p := by
  induction f generalizing g p with
  | zero =>
    have hend : input.length ≤ p := hf
    rw [tokensFrom_end 0 hend, tokensFrom_end g hend]
  | succ f ih =>
    rcases Nat.lt_or_ge p input.length with hlt | hge
    · have hspan := (tokenAt_fits hlt).one_le_span
      obtain ⟨g, rfl⟩ : ∃ g', g = g' + 1 := Nat.exists_eq_succ_of_ne_zero (by omega)
      rw [tokensFrom, tokensFrom, if_pos hlt, if_pos hlt, ih (g := g) (by omega) (by omega)]
    · rw [tokensFrom_end _ hge, tokensFrom_end _ hge]

/-- The tokens of the input from `p` on. -/
def tokensAt (input : List Byte) (p : Nat) : List Token := tokensFrom input (input.length - p) p

theorem tokensAt_end {input : List Byte} {p : Nat} (h : input.length ≤ p) : tokensAt input p = [] :=
  tokensFrom_end _ h

theorem tokensAt_cons {input : List Byte} {p : Nat} (h : p < input.length) :
    tokensAt input p = tokenAt input p :: tokensAt input (p + tokenSpan (tokenAt input p)) := by
  have hspan := (tokenAt_fits h).one_le_span
  obtain ⟨k, hk⟩ : ∃ k, input.length - p = k + 1 := ⟨input.length - p - 1, by omega⟩
  rw [tokensAt, hk, tokensFrom, if_pos h]
  exact congrArg _ (tokensFrom_fuel (by omega) (by omega))

/-! ### The groups of a token list (42_encoder.md R196) -/

theorem packGroups_fuel (c : Params) {f g : Nat} {ts : List Token} (hf : ts.length ≤ f) (hg : ts.length ≤ g) :
    packGroups c f ts = packGroups c g ts := by
  induction f generalizing g ts with
  | zero =>
    obtain rfl := List.eq_nil_of_length_eq_zero (Nat.le_zero.mp hf)
    cases g <;> rfl
  | succ f ih =>
    cases ts with
    | nil => cases g <;> rfl
    | cons t ts =>
      obtain ⟨g, rfl⟩ : ∃ g', g = g' + 1 := Nat.exists_eq_succ_of_ne_zero (Nat.ne_of_gt (Nat.zero_lt_of_lt hg))
      have hdrop : ((t :: ts).drop 8).length ≤ ts.length := by simp
      rw [packGroups_cons, packGroups_cons]
      rw [ih (hdrop.trans (Nat.le_of_succ_le_succ hf)) (hdrop.trans (Nat.le_of_succ_le_succ hg))]

/-- A full group, or the last one, comes out whole before the tokens after it. -/
theorem packTokens_group (c : Params) {us rest : List Token} (hlo : 1 ≤ us.length) (hhi : us.length ≤ 8)
    (hfull : us.length = 8 ∨ rest = []) : packTokens c (us ++ rest) = packGroup c us ++ packTokens c rest := by
  have htake : (us ++ rest).take 8 = us := by
    rcases hfull with h8 | rfl
    · exact List.take_left' h8
    · rw [List.append_nil, List.take_of_length_le hhi]
  have hdrop : (us ++ rest).drop 8 = rest := by
    rcases hfull with h8 | rfl
    · exact List.drop_left' h8
    · rw [List.append_nil, List.drop_eq_nil_of_le hhi]
  obtain ⟨u, us, rfl⟩ := List.exists_cons_of_length_pos hlo
  have hlen : rest.length ≤ (us ++ rest).length := by simp
  rw [packTokens, List.cons_append, List.length_cons, packGroups, ← List.cons_append, htake, hdrop,
    packGroups_fuel c hlen le_rfl]
  rfl

/-- One more token in a flag byte (42_encoder.md R189, R196). -/
theorem groupFlag_concat (o : FlagOrder) (k : Nat) (us : List Token) (t : Token) :
    groupFlag o k (us ++ [t]) = groupFlag o k us ||| selectorBit o (k + us.length) (tokenSelector t) := by
  induction us generalizing k with
  | nil => simp [groupFlag]
  | cons u us ih =>
    rw [List.cons_append, groupFlag, groupFlag, ih, List.length_cons, BitVec.or_assoc, Nat.add_assoc,
      Nat.add_comm us.length 1]

theorem length_packGroup (c : Params) (us : List Token) :
    (packGroup c us).length = (us.flatMap (tokenPayload c)).length + 1 := rfl

/-! ### The pending group -/

/-- The pending group holds the given tokens: their number, flag byte and payloads (10_state.md R42, R43). -/
def State.holdsTokens (s : State) (us : List Token) : Prop :=
  s.gcnt.toNat = us.length ∧ s.gflags = groupFlag s.cfg.flagOrder 0 us ∧
    s.glen.toNat = (us.flatMap (tokenPayload s.cfg)).length ∧
    ∀ j, j < s.glen.toNat → Mem.cell? s.gbuf j = (us.flatMap (tokenPayload s.cfg))[j]?

theorem holdsTokens_nil {s : State} (hcnt : s.gcnt = 0) (hflags : s.gflags = 0) (hlen : s.glen = 0) :
    s.holdsTokens [] :=
  ⟨by rw [hcnt]; rfl, hflags, by rw [hlen]; rfl, fun j hj => absurd hj (by rw [hlen]; exact Nat.not_lt_zero j)⟩

/-- What is out, the pending group and the tokens from `P` on make the container; of the pending group the first `GIDX`
bytes are out already (42_encoder.md R190). -/
def State.grouped (s : State) (input : List Byte) : Prop :=
  ∃ us front, s.holdsTokens us ∧ s.output = front ++ (packGroup s.cfg us).take s.gidx.toNat ∧
    packBytes s.cfg input = front ++ packTokens s.cfg (us ++ tokensAt input s.p.toNat)

theorem output_emit {s : State} (v : Byte) (h : s.dst.listsBelow s.dpos.toNat) :
    (s.emit v).output = s.output ++ [v] := by
  rw [State.output, emit_dst, put_of_listsBelow v h, List.map_append]
  rfl

/-- The byte a `P_FLUSH` step writes is the next one of the group (42_encoder.md R190). -/
theorem flushedByte_eq {s : State} {us : List Token} (h : s.holdsTokens us) (hidx : s.gidx.toNat ≤ s.glen.toNat) :
    (packGroup s.cfg us)[s.gidx.toNat]? = some (flushedByte s) := by
  obtain ⟨-, hflags, hlen, hbytes⟩ := h
  rw [packGroup, flushedByte]
  split_ifs with hzero
  · rw [hzero, List.getElem?_cons_zero, hflags]
  · obtain ⟨j, hj⟩ := Nat.exists_eq_succ_of_ne_zero hzero
    have hlt : j < (us.flatMap (tokenPayload s.cfg)).length := by omega
    rw [hj, List.getElem?_cons_succ, Nat.succ_sub_one, State.gbufByte, hbytes j (by omega),
      List.getElem?_eq_getElem hlt]
    rfl

theorem grouped_flushStep {s : State} {input : List Byte} (h : s.Inv) (hst : s.st = .pFlush)
    (hlen : s.srcLen.toNat = input.length) (hgrouped : s.grouped input) : (flushStep s).grouped input := by
  have hlists := h.dst_listsBelow_dpos (by rw [hst]; rfl)
  obtain ⟨-, -, hphase⟩ := h
  simp only [State.phaseHeld, hst] at hphase
  obtain ⟨-, -, hcnt, hcnt', hidx, hwhy, -⟩ := hphase
  obtain ⟨us, front, hholds, hout, hpack⟩ := hgrouped
  have hbyte := flushedByte_eq hholds hidx
  have ⟨hcount, _, hglen, _⟩ := hholds
  have hout' : (s.emit (flushedByte s)).output = front ++ (packGroup s.cfg us).take (s.gidx.toNat + 1) := by
    rw [output_emit _ hlists, hout, List.take_add_one, hbyte, List.append_assoc]
    rfl
  rcases flushStep_cases s with ⟨hlast, hs⟩ | ⟨hmore, hs⟩ <;> rw [hs]
  · have hwhole : (packGroup s.cfg us).take (s.gidx.toNat + 1) = packGroup s.cfg us :=
      List.take_of_length_le (by rw [length_packGroup, ← hglen, hlast])
    have hfull : us.length = 8 ∨ tokensAt input s.p.toNat = [] := by
      rw [← hcount]
      exact hwhy.imp_right fun hend => tokensAt_end (hlen.symm.trans hend.symm).le
    rw [hcount] at hcnt hcnt'
    refine ⟨[], front ++ packGroup s.cfg us, holdsTokens_nil rfl rfl rfl, ?_, ?_⟩
    · rw [hwhole] at hout'
      exact hout'.trans (List.append_nil _).symm
    · rw [List.append_assoc]
      exact hpack.trans (congrArg _ (packTokens_group s.cfg hcnt hcnt' hfull))
  · have hidx' : (s.gidx + 1).toNat = s.gidx.toNat + 1 := by bv_omega
    refine ⟨us, front, hholds, ?_, hpack⟩
    rw [← hidx'] at hout'
    exact hout'

/-! ### The header (40_header_codec.md R125, R126) -/

/-- The byte a `P_HDR` step writes is the next one of the header. -/
theorem emittedHeaderByte_eq {s : State} (h : s.hcnt.toNat < 128) :
    (encodeHeader s.unpackedSize)[s.hcnt.toNat]? = some (emittedHeaderByte s) := by
  have hget : (encodeHeader s.unpackedSize).getD s.hcnt.toNat 0 = emittedHeaderByte s := by
    rw [emittedHeaderByte]
    split_ifs with hmagic hsize
    · rw [encodeHeader, List.append_assoc, List.getD_append _ _ _ _ hmagic, getD_leBytes _ hmagic]
      rfl
    · exact sizeByte_of_record _ _ (Nat.le_of_not_lt hmagic) hsize
    · rw [encodeHeader, List.getD_append_right _ _ _ _ (Nat.le_of_not_lt hsize), List.getD_replicate]
      exact Nat.sub_lt_right_of_lt_add (Nat.le_of_not_lt hsize) h
  have hlt : s.hcnt.toNat < (encodeHeader s.unpackedSize).length := h.trans_eq (length_encodeHeader _).symm
  rw [← hget, List.getD_eq_getElem _ _ hlt, List.getElem?_eq_getElem hlt]

theorem output_hdrStep {s : State} (h : s.Inv) (hst : s.st = .pHdr)
    (hout : s.output = (encodeHeader s.unpackedSize).take s.hcnt.toNat) :
    (hdrStep s).output = (encodeHeader s.unpackedSize).take (s.hcnt.toNat + 1) := by
  obtain ⟨hcnt, -⟩ := (operandsHeld_pHdr_iff hst).mp h.operandsHeld
  have hemit := output_emit (emittedHeaderByte s) (h.dst_listsBelow_dpos (by rw [hst]; rfl))
  rw [List.take_add_one, emittedHeaderByte_eq hcnt, ← hout, hdrStep_eq]
  exact hemit

/-! ### One token joins the group (42_encoder.md R184, R189) -/

theorem cell?_putBytes (m : Mem) (a : Nat) (bs : List Byte) (x : Nat) :
    Mem.cell? (Mem.putBytes m a bs) x = if a ≤ x ∧ x < a + bs.length then bs[x - a]? else Mem.cell? m x := by
  induction bs generalizing m a with
  | nil => rw [Mem.putBytes, if_neg (by simp)]
  | cons b bs ih =>
    rw [Mem.putBytes, ih, cell?_put, List.length_cons]
    rcases Nat.lt_trichotomy x a with hlt | rfl | hgt
    · rw [if_neg (by omega), if_neg (by omega), if_neg (by omega)]
    · rw [if_neg (by omega), if_pos rfl, if_pos (by omega), Nat.sub_self, List.getElem?_cons_zero]
    · have hsub : x - a = x - (a + 1) + 1 := by omega
      rw [if_neg (show ¬ x = a by omega), hsub, List.getElem?_cons_succ]
      exact if_congr (by omega) rfl rfl

theorem toNat_add_ofNat {w : Nat} (x : BitVec w) {n : Nat} (h : x.toNat + n < 2 ^ w) :
    (x + BitVec.ofNat w n).toNat = x.toNat + n := by
  rw [BitVec.toNat_add, BitVec.toNat_ofNat, Nat.add_mod_mod, Nat.mod_eq_of_lt h]

theorem tokenPayload_length_le (c : Params) (t : Token) : (tokenPayload c t).length ≤ 2 := by
  cases t with
  | literal b => exact Nat.le_succ 1
  | copy d l => exact le_rfl

/-- `s` with a token queued in its group (42_encoder.md R189). -/
def queued (s : State) (t : Token) : State :=
  { s with gflags := s.withSelector (tokenSelector t),
           gbuf := Mem.putBytes s.gbuf s.glen.toNat (tokenPayload s.cfg t),
           glen := s.glen + BitVec.ofNat 5 (tokenPayload s.cfg t).length,
           p := s.p + BitVec.ofNat 32 (tokenSpan t), gcnt := s.gcnt + 1,
           st := if s.gcnt.toNat + 1 = 8 then .pFlush else .pNext }

theorem holdsTokens_queued {s : State} {us : List Token} (t : Token) (h : s.holdsTokens us) (hcnt : s.gcnt.toNat < 8)
    (hroom : s.glen.toNat + 2 ≤ 16) : (queued s t).holdsTokens (us ++ [t]) := by
  obtain ⟨hcount, hflags, hlen, hbytes⟩ := h
  have hle := tokenPayload_length_le s.cfg t
  have hglen : (queued s t).glen.toNat = s.glen.toNat + (tokenPayload s.cfg t).length := toNat_add_ofNat _ (by omega)
  have hpayload :
      (us ++ [t]).flatMap (tokenPayload s.cfg) = us.flatMap (tokenPayload s.cfg) ++ tokenPayload s.cfg t := by
    rw [List.flatMap_append, List.flatMap_singleton]
  have hgcnt : (s.gcnt + 1).toNat = s.gcnt.toNat + 1 := by bv_omega
  refine ⟨?_, ?_, ?_, fun j hj => ?_⟩
  · rw [List.length_append, ← hcount]
    exact hgcnt
  · rw [groupFlag_concat, Nat.zero_add, ← hcount, show (queued s t).cfg = s.cfg from rfl, ← hflags]
    rfl
  · rw [hglen, hlen, ← List.length_append, ← hpayload]
    rfl
  · rw [hglen] at hj
    rw [show (queued s t).cfg = s.cfg from rfl, hpayload]
    refine (cell?_putBytes _ _ _ _).trans ?_
    rcases Nat.lt_or_ge j s.glen.toNat with hlt | hge
    · rw [if_neg (by omega), hbytes j hlt, List.getElem?_append_left (by omega)]
    · rw [if_pos ⟨hge, hj⟩, List.getElem?_append_right (by omega), hlen]

/-- With the best match of the scan, an emission queues the token of `P` (42_encoder.md R184). -/
theorem emitStep_of_best {s : State} {input : List Byte} (hp : s.p.toNat < input.length) (hsrc : s.onSource input)
    (hbd : s.bd.toNat = (best input s.p.toNat).1) (hbl : s.bl.toNat = (best input s.p.toNat).2) :
    emitStep s = queued s (tokenAt input s.p.toNat) := by
  obtain ⟨hmem, -⟩ := hsrc
  obtain ⟨x, rfl, ⟨hlong, hs⟩ | ⟨hshort, hs⟩⟩ := emitStep_cases s <;> rw [hs]
  · have ht : tokenAt input s.p.toNat = .copy s.bd.toNat s.bl.toNat := by
      rw [tokenAt, ← hbl, ← hbd, if_pos hlong]
    rw [ht, queued, tokenSpan, BitVec.ofNat_toNat]
    rfl
  · have ht : tokenAt input s.p.toNat = .literal (s.srcByte s.p.toNat) := by
      rw [tokenAt, ← hbl, if_neg (Nat.not_le.mpr hshort), List.getD_eq_getElem?_getD, getElem?_eq_srcByte hmem hp,
        Option.getD_some]
    rw [ht]
    rfl

theorem grouped_emitStep {s : State} {input : List Byte} (h : s.Inv) (hst : s.st = .pEmit) (hsrc : s.onSource input)
    (hbd : s.bd.toNat = (best input s.p.toNat).1) (hbl : s.bl.toNat = (best input s.p.toNat).2)
    (hgrouped : s.grouped input) : (emitStep s).grouped input := by
  obtain ⟨hp, hcnt, hroom, -, hshort, -⟩ := (operandsHeld_pEmit_iff hst).mp h.operandsHeld
  obtain ⟨-, -, hphase⟩ := h
  simp only [State.phaseHeld, hst] at hphase
  obtain ⟨-, -, -, hidx, -⟩ := hphase
  obtain ⟨us, front, hholds, hout, hpack⟩ := hgrouped
  have ⟨_, hlen⟩ := hsrc
  have hlt : s.p.toNat < input.length := hlen ▸ hp
  have hspan := (tokenAt_fits hlt).add_span_le
  have hnext : (queued s (tokenAt input s.p.toNat)).p.toNat = s.p.toNat + tokenSpan (tokenAt input s.p.toNat) :=
    toNat_add_ofNat _ (by omega)
  rw [emitStep_of_best hlt hsrc hbd hbl]
  refine ⟨us ++ [tokenAt input s.p.toNat], front, holdsTokens_queued _ hholds hcnt hroom, ?_, ?_⟩
  · have hidx' : (queued s (tokenAt input s.p.toNat)).gidx = 0 := hidx
    rw [hidx] at hout
    rw [hidx']
    exact hout
  · rw [hnext, List.append_assoc, List.singleton_append, ← tokensAt_cons hlt]
    exact hpack

/-! ### The run to its end -/

/-- What a state of a PACK run outside a scan has of the container. -/
def State.packs (s : State) (input : List Byte) : Prop :=
  match s.st with
  | .pHdr =>
    s.unpackedSize = BitVec.ofNat 32 input.length ∧ s.output = (encodeHeader s.unpackedSize).take s.hcnt.toNat
  | .pNext | .pFlush => s.grouped input
  | .done => s.output = packBytes s.cfg input
  | _ => False

/-- With the header out, the body is still to come whole (43_container.md R227). -/
theorem grouped_of_header {s : State} {input : List Byte}
    (hout : s.output = encodeHeader (BitVec.ofNat 32 input.length))
    (hp : s.p = 0) (hcnt : s.gcnt = 0) (hlen : s.glen = 0) (hidx : s.gidx = 0) (hflags : s.gflags = 0) :
    s.grouped input := by
  refine ⟨[], encodeHeader (BitVec.ofNat 32 input.length), holdsTokens_nil hcnt hflags hlen, ?_, ?_⟩
  · rw [hout, hidx]
    exact (List.append_nil _).symm
  · rw [hp]
    rfl

theorem packs_hdrStep {s : State} {input : List Byte} (h : s.Inv) (hst : s.st = .pHdr) (hpacks : s.packs input) :
    (hdrStep s).packs input := by
  simp only [State.packs, hst] at hpacks
  obtain ⟨hsize, hout⟩ := hpacks
  have hout' := output_hdrStep h hst hout
  obtain ⟨hcnt, -⟩ := (operandsHeld_pHdr_iff hst).mp h.operandsHeld
  obtain ⟨-, -, hphase⟩ := h
  simp only [State.phaseHeld, hst] at hphase
  obtain ⟨-, -, -, hp, hgcnt, hglen, hgidx, hgflags⟩ := hphase
  have hcnt' : (s.hcnt + 1).toNat = s.hcnt.toNat + 1 := by bv_omega
  rw [hdrStep_eq] at hout' ⊢
  by_cases hlast : s.hcnt.toNat + 1 = 128 <;> simp only [hlast, hst, if_true, if_false] at hout' ⊢
  · rw [hsize, List.take_of_length_le (length_encodeHeader _).le] at hout'
    exact grouped_of_header hout' hp hgcnt hglen hgidx hgflags
  · refine ⟨hsize, ?_⟩
    rw [← hcnt'] at hout'
    exact hout'

theorem packs_flushStep {s : State} {input : List Byte} (h : s.Inv) (hst : s.st = .pFlush)
    (hsrc : s.onSource input) (hpacks : s.packs input) : (flushStep s).packs input := by
  obtain ⟨-, hlen⟩ := hsrc
  simp only [State.packs, hst] at hpacks
  have hgrouped := grouped_flushStep h hst hlen hpacks
  have hst' : (flushStep s).st = .pNext ∨ (flushStep s).st = .pFlush := by
    rcases flushStep_cases s with ⟨-, hs⟩ | ⟨-, hs⟩ <;> rw [hs] <;> simp [hst]
  rcases hst' with hst' | hst' <;> simpa only [State.packs, hst'] using hgrouped

/-- At the end of the input the pending group is flushed, or the container is complete (42_encoder.md R186). -/
theorem packs_nextStep_end {s : State} {input : List Byte} (h : s.Inv) (hst : s.st = .pNext)
    (hsrc : s.onSource input) (hend : s.p.toNat = s.srcLen.toNat) (hpacks : s.packs input) :
    (nextStep s).packs input := by
  obtain ⟨-, hlen⟩ := hsrc
  simp only [State.packs, hst] at hpacks
  obtain ⟨-, -, hphase⟩ := h
  simp only [State.phaseHeld, hst] at hphase
  obtain ⟨-, -, -, hidx, -⟩ := hphase
  rcases nextStep_cases s with ⟨-, -, hs⟩ | ⟨-, hempty, hs⟩ | ⟨hmore, -⟩
  · rw [hs]
    exact hpacks
  · rw [hs]
    obtain ⟨us, front, hholds, hout, hpack⟩ := hpacks
    have ⟨hcount, _⟩ := hholds
    obtain rfl := List.eq_nil_of_length_eq_zero (hcount.symm.trans hempty)
    rw [hidx] at hout
    rw [tokensAt_end (hend.trans hlen).ge] at hpack
    exact hout.trans hpack.symm
  · exact absurd hend hmore

theorem packs_emitStep {s : State} {input : List Byte} (hgrouped : (emitStep s).grouped input) :
    (emitStep s).packs input := by
  simp only [State.packs, emitStep_st]
  split_ifs <;> exact hgrouped

/-- A whole token: its scan ends with `best(P)` and the token joins the group (42_encoder.md R187, R189). -/
theorem runFor_token {s : State} {input : List Byte} (h : s.Inv) (hhost : s.host = []) (hst : s.st = .pNext)
    (hsrc : s.onSource input) (hmore : s.p.toNat ≠ s.srcLen.toNat) (hpacks : s.packs input) :
    ∃ k t, runFor k s = .next t ∧ t.packs input ∧ t.work < s.work := by
  have ⟨hmem, hlen⟩ := hsrc
  have hle := (operandsHeld_pNext_iff hst).mp h.operandsHeld
  obtain ⟨k, t, hrun, hst', hbd, hbl, ht⟩ := scanFindsTheBestMatch input s h hhost hst hmem hlen (by omega)
  obtain ⟨hinv, hquiet, hcfg, -, hlen', hmem'⟩ := runFor_fixed h hhost hrun
  have hp : t.p = s.p := by rw [ht]
  have hgrouped : t.grouped input := by
    simp only [State.packs, hst] at hpacks
    rw [ht]
    exact hpacks
  rw [← hp] at hbd hbl
  refine ⟨k + 1, emitStep t, runFor_succ_of_last hrun (step_of_pEmit hquiet hst' hinv.operandsHeld),
    packs_emitStep (grouped_emitStep hinv hst' (onSource_of_fixed hsrc hmem' hlen') hbd hbl hgrouped), ?_⟩
  have hfalls := work_emitStep hinv hst'
  have hbefore : t.work < s.work := by
    simp only [State.work, hst, hst', hp, hlen']
    omega
  omega

theorem runFor_packs {s : State} {input : List Byte} (h : s.Inv) (hhost : s.host = []) (hsrc : s.onSource input)
    (hpacks : s.packs input) :
    ∃ k t, runFor k s = .next t ∧ t.st = .done ∧ t.output = packBytes s.cfg input := by
  induction hw : s.work using Nat.strong_induction_on generalizing s with
  | _ w ih =>
    have hgo {k : Nat} {t : State} (hrun : runFor k s = .next t) (hpacks' : t.packs input) (hwork : t.work < s.work) :
        ∃ k t, runFor k s = .next t ∧ t.st = .done ∧ t.output = packBytes s.cfg input := by
      obtain ⟨hinv, hquiet, hcfg, -, hlen, hmem⟩ := runFor_fixed h hhost hrun
      obtain ⟨j, u, hrun', hdone, hout⟩ :=
        ih _ (hw ▸ hwork) hinv hquiet (onSource_of_fixed hsrc hmem hlen) hpacks' rfl
      exact ⟨k + j, u, (runFor_add hrun).trans hrun', hdone, hcfg ▸ hout⟩
    have hstep : runFor 1 s = .next s.ruleStep := runFor_succ_of_next (step_of_inv h hhost)
    cases hst : s.st <;> simp only [State.ruleStep, hst] at hstep
    case pHdr => exact hgo hstep (packs_hdrStep h hst hpacks) (work_hdrStep h hst)
    case pFlush => exact hgo hstep (packs_flushStep h hst hsrc hpacks) (work_flushStep h hst)
    case pNext =>
      by_cases hend : s.p.toNat = s.srcLen.toNat
      · exact hgo hstep (packs_nextStep_end h hst hsrc hend hpacks) (work_nextStep h hst)
      · obtain ⟨k, t, hrun, hpacks', hwork⟩ := runFor_token h hhost hst hsrc hend hpacks
        exact hgo hrun hpacks' hwork
    case done =>
      simp only [State.packs, hst] at hpacks
      exact ⟨0, s, rfl, hst, hpacks⟩
    all_goals simp [State.packs, hst] at hpacks

theorem inv_packStarted (c : Params) {input : List Byte} (hlen : input.length < 2 ^ 32) :
    (packStarted c input).Inv := by
  have hsrcLen : (BitVec.ofNat 34 input.length).toNat = input.length := Nat.mod_eq_of_lt (by omega)
  have hsize : (BitVec.ofNat 34 input.length).setWidth 32 = BitVec.ofNat 32 input.length := by
    apply BitVec.eq_of_toNat_eq
    rw [BitVec.toNat_setWidth, hsrcLen, BitVec.toNat_ofNat]
  have hinv : (startedOn c input .pack .pHdr ((BitVec.ofNat 34 input.length).setWidth 32)).Inv :=
    inv_start_pack ⟨wf_ofBytes 0 input, rfl, rfl, rfl, nofun, nofun⟩ (hsrcLen.trans_lt hlen)
  rwa [hsize] at hinv

/-- Settles O57: the header, the tokens and the groups come out in turn; in `Done` the host takes all that is out. -/
theorem packRunAgreesWithTheFunction : Obligations.PackRunAgreesWithTheFunction := by
  intro c input hlen
  have hstart := inv_packStarted c hlen
  obtain ⟨k, t, hrun, hst, hout⟩ := runFor_packs hstart rfl ⟨rfl, Nat.mod_eq_of_lt (by omega)⟩ ⟨rfl, rfl⟩
  obtain ⟨hinv, -, -, hop, -⟩ := runFor_fixed hstart rfl hrun
  have herr := hinv.err_eq_none (by simp [hst])
  obtain ⟨-, -, hphase⟩ := hinv
  simp only [State.phaseHeld, hst] at hphase
  rcases hphase with ⟨hunpack, -⟩ | ⟨-, -, -, hlists⟩
  · cases hunpack.symm.trans hop
  have hop' : t.op = .pack := hop
  have hout' : t.output = packBytes c input := hout
  refine ⟨k, t, hrun, hst, herr, ?_, ?_⟩
  · simp only [hostResult, hst, hop', firstBytes_of_listsBelow hlists]
    exact congrArg _ hout'
  · rw [← hout', length_output hlists]

end Sys2Proof.Machine

/-! ## Operations are independent of what was before (43_container.md R232)

Two runs on the same source differ in HIST, GBUF and the reset counter alone. What HIST and GBUF held before START is
never read: the lookback lies within the output, and a flush reads what the group has queued. -/

namespace Sys2Proof.Machine

/-! ### Each rule, but for the contents of HIST and GBUF -/

/-- `t` is `s` but for HIST, GBUF and the reset counter. -/
def AgreesOutsideStores (s t : State) : Prop := t = { s with hist := t.hist, gbuf := t.gbuf, epoch := t.epoch }

/-- The state with other contents of HIST and GBUF. -/
def State.withStores (s : State) (hist gbuf : Mem) (epoch : Nat) : State :=
  { s with hist := hist, gbuf := gbuf, epoch := epoch }

theorem AgreesOutsideStores.ite {c : Prop} [Decidable c] {s s' t t' : State} (hpos : AgreesOutsideStores s t)
    (hneg : AgreesOutsideStores s' t') : AgreesOutsideStores (if c then s else s') (if c then t else t') := by
  split
  · exact hpos
  · exact hneg

section
variable (b : Byte) (s : State) (hist gbuf : Mem) (epoch : Nat)

theorem magicStep_agrees : AgreesOutsideStores (magicStep b s) (magicStep b (s.withStores hist gbuf epoch)) :=
  .ite rfl (.ite (.ite rfl rfl) rfl)

theorem sizeStep_agrees : AgreesOutsideStores (sizeStep b s) (sizeStep b (s.withStores hist gbuf epoch)) :=
  .ite rfl (.ite rfl rfl)

theorem padStep_agrees : AgreesOutsideStores (padStep s) (padStep (s.withStores hist gbuf epoch)) :=
  .ite rfl (.ite rfl rfl)

theorem flagStep_agrees : AgreesOutsideStores (flagStep b s) (flagStep b (s.withStores hist gbuf epoch)) :=
  .ite rfl (.ite rfl rfl)

theorem tokStep_agrees : AgreesOutsideStores (tokStep b s) (tokStep b (s.withStores hist gbuf epoch)) :=
  .ite rfl (.ite rfl rfl)

theorem lenStep_agrees : AgreesOutsideStores (lenStep b s) (lenStep b (s.withStores hist gbuf epoch)) :=
  .ite rfl (.ite rfl (.ite rfl rfl))

theorem hdrStep_agrees : AgreesOutsideStores (hdrStep s) (hdrStep (s.withStores hist gbuf epoch)) := .ite rfl rfl

theorem nextStep_agrees : AgreesOutsideStores (nextStep s) (nextStep (s.withStores hist gbuf epoch)) := .ite rfl rfl

theorem scanStep_agrees : AgreesOutsideStores (scanStep s) (scanStep (s.withStores hist gbuf epoch)) :=
  .ite rfl (.ite rfl rfl)

theorem emitStep_agrees : AgreesOutsideStores (emitStep s) (emitStep (s.withStores hist gbuf epoch)) := by
  have hbl : (s.withStores hist gbuf epoch).bl = s.bl := rfl
  by_cases hlong : 2 ≤ s.bl.toNat <;> simp only [emitStep, hbl, hlong, if_true, if_false] <;> rfl

end

theorem copyStep_agrees {s t : State} (h : AgreesOutsideStores s t)
    (hbyte : t.histByte (lookbackIndex t) = s.histByte (lookbackIndex s)) :
    AgreesOutsideStores (copyStep s) (copyStep t) := by
  rw [copyStep_eq, copyStep_eq, hbyte, h]
  rfl

theorem flushStep_agrees {s t : State} (h : AgreesOutsideStores s t) (hbyte : flushedByte t = flushedByte s) :
    AgreesOutsideStores (flushStep s) (flushStep t) := by
  rw [flushStep, flushStep, hbyte, h]
  exact .ite rfl rfl

/-- The two steps agree where the byte that each may read from HIST or GBUF is the same. -/
theorem ruleStep_agrees {s t : State} (h : AgreesOutsideStores s t)
    (hcopy : s.st = .dCopy → t.histByte (lookbackIndex t) = s.histByte (lookbackIndex s))
    (hflush : s.st = .pFlush → flushedByte t = flushedByte s) : AgreesOutsideStores s.ruleStep t.ruleStep := by
  have hst : t.st = s.st := by rw [h]
  have ht : t = s.withStores t.hist t.gbuf t.epoch := h
  have hsrc : t.srcByte t.spos.toNat = s.srcByte s.spos.toNat := by rw [h]; rfl
  cases hs : s.st <;> rw [hs] at hst <;> simp only [State.ruleStep, hs, hst, hsrc]
  case idle | done | failed => exact h
  case dCopy => exact copyStep_agrees h (hcopy hs)
  case pFlush => exact flushStep_agrees h (hflush hs)
  all_goals rw [ht]
  case uMagic => exact magicStep_agrees ..
  case uSize => exact sizeStep_agrees ..
  case uPad => exact padStep_agrees ..
  case dFlag => exact flagStep_agrees ..
  case dTok => exact tokStep_agrees ..
  case dLen => exact lenStep_agrees ..
  case pHdr => exact hdrStep_agrees ..
  case pNext => exact nextStep_agrees ..
  case pScan => exact scanStep_agrees ..
  case pEmit => exact emitStep_agrees ..

/-! ### The queued bytes of the pending group -/

/-- The bytes that the pending group has queued are the same. -/
def SameQueued (s t : State) : Prop := ∀ j, j < s.glen.toNat → Mem.cell? t.gbuf j = Mem.cell? s.gbuf j

/-- Only an emission writes GBUF; a flush ends with nothing queued (42_encoder.md R189, R190). -/
theorem ruleStep_gbuf_of_not_pEmit {s : State} (hst : s.st ≠ .pEmit) :
    s.ruleStep.gbuf = s.gbuf ∧ (s.ruleStep.glen = s.glen ∨ s.ruleStep.glen = 0) := by
  cases hs : s.st
  case idle | done | failed => simp [State.ruleStep, hs]
  case uMagic | uSize | uPad =>
    rw [ruleStep_frame_of_header (by simp [hs])]
    exact ⟨rfl, .inl rfl⟩
  case dFlag | dTok | dLen | dCopy =>
    rw [ruleStep_frame_of_decoder (by simp [hs])]
    exact ⟨rfl, .inl rfl⟩
  case pHdr =>
    rw [ruleStep_frame_of_pHdr hs]
    exact ⟨rfl, .inl rfl⟩
  case pNext =>
    rw [State.ruleStep, hs, nextStep_frame]
    exact ⟨rfl, .inl rfl⟩
  case pScan =>
    rw [State.ruleStep, hs, scanStep_frame]
    exact ⟨rfl, .inl rfl⟩
  case pEmit => exact absurd hs hst
  case pFlush =>
    rw [State.ruleStep, hs]
    rcases flushStep_cases s with ⟨-, h⟩ | ⟨-, h⟩ <;> rw [h]
    · exact ⟨rfl, .inr rfl⟩
    · exact ⟨rfl, .inl rfl⟩

/-- A write keeps two stores alike below the address after it. -/
theorem cell?_put_congr {m n : Mem} {a : Nat} (v : Byte) (h : ∀ j, j < a → Mem.cell? n j = Mem.cell? m j) :
    ∀ j, j < a + 1 → Mem.cell? (Mem.put n a v) j = Mem.cell? (Mem.put m a v) j := by
  intro j hj
  rw [cell?_put, cell?_put]
  split_ifs with heq
  · rfl
  · exact h j (by omega)

/-- Both emissions queue the same bytes (42_encoder.md R189). -/
theorem sameQueued_emitStep {s t : State} (h : AgreesOutsideStores s t) (hroom : s.glen.toNat + 2 ≤ 16)
    (hqueued : SameQueued s t) : SameQueued (emitStep s) (emitStep t) := by
  rw [h, SameQueued]
  by_cases hlong : 2 ≤ s.bl.toNat <;> simp only [emitStep, hlong, if_true, if_false, queueCopy, queueLiteral]
  · rw [show (s.glen + 2).toNat = s.glen.toNat + 1 + 1 by bv_omega]
    exact cell?_put_congr _ (cell?_put_congr _ hqueued)
  · rw [show (s.glen + 1).toNat = s.glen.toNat + 1 by bv_omega]
    exact cell?_put_congr _ hqueued

theorem sameQueued_ruleStep {s t : State} (h : AgreesOutsideStores s t) (hheld : s.operandsHeld = true)
    (hqueued : SameQueued s t) : SameQueued s.ruleStep t.ruleStep := by
  have hst : t.st = s.st := by rw [h]
  by_cases hemit : s.st = .pEmit
  · obtain ⟨-, -, hroom, -⟩ := (operandsHeld_pEmit_iff hemit).mp hheld
    simp only [State.ruleStep, hst, hemit]
    exact sameQueued_emitStep h hroom hqueued
  · obtain ⟨hs, hglen⟩ := ruleStep_gbuf_of_not_pEmit hemit
    obtain ⟨ht, -⟩ := ruleStep_gbuf_of_not_pEmit (hst.trans_ne hemit)
    rw [SameQueued, hs, ht]
    rcases hglen with hkeep | hzero
    · rw [hkeep]
      exact hqueued
    · rw [hzero]
      exact fun j hj => absurd hj (Nat.not_lt_zero j)

/-! ### What a run reads from HIST and GBUF -/

/-- A Copy reads a byte of the output (10_state.md R37), which is the same in both. -/
theorem histByte_agrees {s t : State} (h : AgreesOutsideStores s t) (hs : s.Inv) (ht : t.Inv) (hst : s.st = .dCopy) :
    t.histByte (lookbackIndex t) = s.histByte (lookbackIndex s) := by
  have hst' : t.st = .dCopy := by rw [h]; exact hst
  have hlen : t.outLen = s.outLen := by rw [h]
  have hdist : t.dist = s.dist := by rw [h]
  have hout : t.output = s.output := by rw [h]; rfl
  rw [histByte_eq_output hs hst, histByte_eq_output ht hst', hout, hlen, hdist]

/-- A flush reads a queued byte, which was written in both (42_encoder.md R190). -/
theorem flushedByte_agrees {s t : State} (h : AgreesOutsideStores s t) (hs : s.Inv) (hst : s.st = .pFlush)
    (hqueued : SameQueued s t) : flushedByte t = flushedByte s := by
  obtain ⟨-, -, hphase⟩ := hs
  simp only [State.phaseHeld, hst] at hphase
  obtain ⟨-, ⟨-, -, hwritten⟩, -, -, hidx, -⟩ := hphase
  have hgidx : t.gidx = s.gidx := by rw [h]
  have hgflags : t.gflags = s.gflags := by rw [h]
  rw [flushedByte, flushedByte, hgidx, hgflags]
  split_ifs with hzero
  · rfl
  · have hlt : s.gidx.toNat - 1 < s.glen.toNat := by omega
    obtain ⟨b, hb⟩ := Option.isSome_iff_exists.mp (hwritten _ hlt)
    rw [State.gbufByte, State.gbufByte, hqueued _ hlt, hb]
    rfl

/-! ### Two runs in step -/

/-- Two runs of one operation on one source, at the same step. -/
structure InStep (s t : State) : Prop where
  invLeft : s.Inv
  invRight : t.Inv
  quiet : s.host = []
  agrees : AgreesOutsideStores s t
  queued : SameQueued s t

theorem InStep.ruleStep {s t : State} (h : InStep s t) : InStep s.ruleStep t.ruleStep := by
  obtain ⟨hs, ht, hhost, hagrees, hqueued⟩ := h
  exact ⟨ruleStep_inv hs, ruleStep_inv ht, (ruleStep_host s).trans hhost,
    ruleStep_agrees hagrees (histByte_agrees hagrees hs ht) fun hst => flushedByte_agrees hagrees hs hst hqueued,
    sameQueued_ruleStep hagrees hs.operandsHeld hqueued⟩

theorem InStep.runFor {s t : State} (h : InStep s t) (k : Nat) :
    ∃ u v, Machine.runFor k s = .next u ∧ Machine.runFor k t = .next v ∧ InStep u v := by
  induction k generalizing s t with
  | zero => exact ⟨s, t, rfl, rfl, h⟩
  | succ k ih =>
    have hhost : t.host = [] := by rw [h.agrees]; exact h.quiet
    rw [runFor_succ_of_next (step_of_inv h.invLeft h.quiet), runFor_succ_of_next (step_of_inv h.invRight hhost)]
    exact ih h.ruleStep

/-- START leaves of what was before only the contents of HIST and GBUF and the reset counter, and nothing queued
(10_state.md R51). -/
theorem inStep_start {s t : State} {op : Op} {st : St} {n : Word} (hs : (s.start op st n).Inv)
    (ht : (t.start op st n).Inv) (hhost : s.host = []) (hhost' : t.host = []) (hcfg : t.cfg = s.cfg)
    (hsrc : t.src = s.src) (hlen : t.srcLen = s.srcLen) : InStep (s.start op st n) (t.start op st n) := by
  refine ⟨hs, ht, hhost, ?_, fun j hj => absurd hj (Nat.not_lt_zero j)⟩
  rw [AgreesOutsideStores, State.start, State.start, hcfg, hsrc, hlen, hhost, hhost']

/-- Settles O49: the two starts are in step, and every rule keeps two runs in step. -/
theorem operationsAreIndependent : Obligations.OperationsAreIndependent := by
  intro s₁ s₂ t₁ t₂ i k hi hinv₁ hinv₂ hidle₁ hidle₂ hhost₁ hhost₂ hcfg hsrc hlen hexec₁ hexec₂
  have hstarted : InStep t₂ t₁ := by
    have ⟨hstores₁, _⟩ := hinv₁
    have ⟨hstores₂, _⟩ := hinv₂
    rcases hi with rfl | ⟨rfl, hshort⟩
    · cases (execUnpack_of_not_busy hidle₁).symm.trans hexec₁
      cases (execUnpack_of_not_busy hidle₂).symm.trans hexec₂
      exact inStep_start (inv_start_unpack hstores₂) (inv_start_unpack hstores₁) hhost₂ hhost₁ hcfg hsrc hlen
    · have hshort₂ : s₂.srcLen.toNat < 2 ^ 32 := hlen ▸ hshort
      cases (execPack_of_not_busy hidle₁ hshort).symm.trans hexec₁
      cases (execPack_of_not_busy hidle₂ hshort₂).symm.trans hexec₂
      have hstart₁ := inv_start_pack hstores₁ hshort
      rw [hlen] at hstart₁ ⊢
      exact inStep_start (inv_start_pack hstores₂ hshort₂) hstart₁ hhost₂ hhost₁ hcfg hsrc hlen
  obtain ⟨u₂, u₁, hrun₂, hrun₁, hstep⟩ := hstarted.runFor k
  exact ⟨u₁, u₂, hrun₁, hrun₂, hstep.agrees⟩

end Sys2Proof.Machine

/-! ## Failures (60_exceptions.md R240 to R252)

A rule that enters `Failed` does so by one of four raises (`Failure`). A step that enters `Failed` is such a rule, whether
the host's list is empty or names a tick: no other event of the host leads there. -/

namespace Sys2Proof.Machine

/-! ### A missing byte (60_exceptions.md R242) -/

theorem ruleStep_of_exhausted_decoder {s : State}
    (hst : (s.st = .dFlag ∧ s.outLen ≠ s.unpackedSize) ∨ s.st = .dTok ∨ s.st = .dLen) (he : s.srcExhausted = true) :
    s.ruleStep = { s with st := .failed, err := .truncatedInput } := by
  rcases hst with ⟨hst, howed⟩ | hst | hst <;> simp only [State.ruleStep, hst]
  · exact (if_neg howed).trans (if_pos he)
  · exact if_pos he
  · exact if_pos he

/-- Settles O33: the header's rules and the decoder's are the failure entry alone on an exhausted source. -/
theorem truncationChangesOnlyStAndErr : Obligations.TruncationChangesOnlyStAndErr := by
  intro s hinv hhost hend hneeds
  have he := srcExhausted_eq_true_iff.mpr hend
  rw [step_of_inv hinv hhost]
  rcases hneeds with hst | hst | hst | hst
  · rw [ruleStep_of_exhausted_header (.inl hst) he]
  · rw [ruleStep_of_exhausted_header (.inr (.inl hst)) he]
  · rw [ruleStep_of_exhausted_header (.inr (.inr hst)) he]
  · rw [ruleStep_of_exhausted_decoder hst he]

/-! ### The four failures (60_exceptions.md R240 to R244) -/

/-- How a rule of an UNPACK state enters `Failed`: a constructor for each row of the table of R240, with the state it
leads to. -/
inductive Failure (s : State) : State → Prop where
  | truncated (hst : s.st = .uMagic ∨ s.st = .uSize ∨ s.st = .uPad ∨ s.st = .dFlag ∨ s.st = .dTok ∨ s.st = .dLen)
      (he : s.srcExhausted = true) : Failure s (s.raise .truncatedInput)
  | badMagic {acc : Word} (hst : s.st = .uMagic) (he : s.srcExhausted = false) (hpos : s.spos.toNat = 3)
      (hacc : acc ≠ Config.doc.magic) : Failure s (State.raise { s.advance with acc := acc } .invalidMagic)
  | badOffset (hst : s.st = .dLen) (he : s.srcExhausted = false) (hd : s.outLen.toNat < mapD s.cfg s.distb) :
      Failure s ((lengthLatched (s.srcByte s.spos.toNat) s).raise .invalidOffset)
  | badSize (hst : s.st = .dLen) (he : s.srcExhausted = false) (hf : s.cfg.overshoot = .fault)
      (hl : s.unpackedSize.toNat < s.outLen.toNat + mapL s.cfg (s.srcByte s.spos.toNat)) :
      Failure s ((lengthLatched (s.srcByte s.spos.toNat) s).raise .sizeMismatch)

theorem ruleStep_failure {s : State} (hst : s.st.ofUnpack = true) (hfail : s.ruleStep.st = .failed) :
    Failure s s.ruleStep := by
  cases hs : s.st <;> simp only [State.ruleStep, hs] at hfail ⊢
  case uMagic =>
    rcases magicStep_cases (s.srcByte s.spos.toNat) s with
      ⟨he, h⟩ | ⟨he, acc, -, ⟨-, h⟩ | ⟨-, -, h⟩ | ⟨hpos, hacc, h⟩⟩ <;> rw [h] at hfail ⊢
    · exact .truncated (by simp [hs]) he
    · exact absurd (hs.symm.trans hfail) nofun
    · cases hfail
    · exact .badMagic hs he (Nat.succ.inj hpos) hacc
  case uSize =>
    cases he : s.srcExhausted
    · rw [sizeStep_of_more _ he hs] at hfail
      simp only at hfail
      split at hfail <;> cases hfail
    · rw [sizeStep, if_pos he]
      exact .truncated (by simp [hs]) he
  case uPad =>
    cases he : s.srcExhausted
    · rw [padStep_of_more he hs] at hfail
      simp only at hfail
      split at hfail <;> cases hfail
    · rw [padStep, if_pos he]
      exact .truncated (by simp [hs]) he
  case dFlag =>
    rcases flagStep_cases (s.srcByte s.spos.toNat) s with ⟨-, h⟩ | ⟨-, he, h⟩ | ⟨-, -, h⟩ <;> rw [h] at hfail ⊢
    · cases hfail
    · exact .truncated (by simp [hs]) he
    · cases hfail
  case dTok =>
    rcases tokStep_cases (s.srcByte s.spos.toNat) s with ⟨he, h⟩ | ⟨-, -, h⟩ | ⟨-, -, h⟩ <;> rw [h] at hfail ⊢
    · exact .truncated (by simp [hs]) he
    · exact absurd hfail (afterToken_ne_failed _)
    · cases hfail
  case dLen =>
    rcases lenStep_cases (s.srcByte s.spos.toNat) s with
      ⟨he, h⟩ | ⟨he, t, rfl, ⟨hd, h⟩ | ⟨-, hf, hl, h⟩ | ⟨-, -, h⟩⟩ <;> rw [h] at hfail ⊢
    · exact .truncated (by simp [hs]) he
    · exact .badOffset hs he hd
    · exact .badSize hs he hf hl
    · cases hfail
  case dCopy => exact absurd hfail (afterCopiedByte_ne_failed _)
  all_goals simp [St.ofUnpack, hs] at hst

theorem ruleStep_of_not_busy {s : State} (hidle : s.busy = false) : s.ruleStep = s := by
  cases hst : s.st
  case idle | done | failed => simp only [State.ruleStep, hst]
  all_goals simp [State.busy, hst] at hidle

/-- The invariant has `Failed` be of UNPACK (10_state.md R21), and a rule keeps `OP`, so no rule of a PACK state leads
there. -/
theorem ofUnpack_of_ruleStep_failed {s : State} (h : s.Inv) (hst : s.st ≠ .failed) (hfail : s.ruleStep.st = .failed) :
    s.st.ofUnpack = true := by
  have hop : s.op = .unpack := by
    obtain ⟨-, -, hphase⟩ := ruleStep_inv h
    simp only [State.phaseHeld, hfail] at hphase
    obtain ⟨hop, -⟩ := hphase
    exact (ruleStep_op s).symm.trans hop
  have hbusy : s.busy = true := by
    by_contra hidle
    rw [ruleStep_of_not_busy (by simpa using hidle)] at hfail
    exact hst hfail
  refine (ofUnpack_or_ofPack_of_busy hbusy).resolve_right fun hpack => ?_
  exact absurd ((h.op_of_pack hpack).symm.trans hop) nofun

/-- Of what a step can be, only the rule of `ST` enters `Failed` (60_exceptions.md R246). -/
theorem eq_ruleStep_of_step_failed {s t : State} (hst : s.st ≠ .failed) (hstep : step s = .next t)
    (hfail : t.st = .failed) : t = s.ruleStep.withHost t.host := by
  rcases step_next hstep with ⟨-, -, rfl⟩ | ⟨e, later, -, r, rfl, hevent⟩
  · rfl
  rcases hevent with ⟨-, -, rfl⟩ | ⟨v, -, rfl | ⟨-, -, rfl⟩ | ⟨-, -, rfl⟩⟩ | ⟨-, -, -, ht⟩ | ⟨-, rfl⟩
  · rw [ruleStep_host]
    exact ruleStep_withHost s later
  · exact absurd hfail hst
  · cases hfail
  · cases hfail
  · exact absurd ((congrArg State.st ht).symm.trans hfail) hst
  · cases hfail

theorem step_failure {s t : State} (h : s.Inv) (hst : s.st ≠ .failed) (hstep : step s = .next t)
    (hfail : t.st = .failed) : s.st.ofUnpack = true ∧ ∃ u later, Failure s u ∧ t = u.withHost later := by
  have ht := eq_ruleStep_of_step_failed hst hstep hfail
  have hrule : s.ruleStep.st = .failed := (congrArg State.st ht).symm.trans hfail
  have hunpack := ofUnpack_of_ruleStep_failed h hst hrule
  exact ⟨hunpack, s.ruleStep, t.host, ruleStep_failure hunpack hrule, ht⟩

theorem State.Inv.toNat_spos_succ {s : State} (h : s.Inv) (hst : s.st.ofUnpack = true) (he : s.srcExhausted = false) :
    (s.spos + 1).toNat = s.spos.toNat + 1 := by
  obtain ⟨hsucc, -⟩ := spos_succ_of_not_exhausted (h.spos_le hst) he
  exact hsucc

theorem State.Inv.outLen_of_uMagic {s : State} (h : s.Inv) (hst : s.st = .uMagic) : s.outLen = 0 := by
  obtain ⟨-, -, hphase⟩ := h
  simp only [State.phaseHeld, hst] at hphase
  obtain ⟨⟨-, -, hout, -⟩, -⟩ := hphase
  exact hout

/-- Settles O34: each `Failure` is a row of the table; the byte it read was there, so `SPOS` is one past it. -/
theorem eachFailureHasItsCause : Obligations.EachFailureHasItsCause := by
  refine ⟨⟨rfl, rfl, rfl, rfl, rfl⟩, fun s t hinv hst hstep hfail => ?_⟩
  obtain ⟨hunpack, u, later, hfailure, rfl⟩ := step_failure hinv hst hstep hfail
  have hsucc := hinv.toNat_spos_succ hunpack
  have hdist := lengthLatched_dist (s.srcByte s.spos.toNat) s
  have hrem := lengthLatched_rem (s.srcByte s.spos.toNat) s
  cases hfailure with
  | truncated hreads he => exact .inr (.inl ⟨rfl, hreads, srcExhausted_eq_true_iff.mp he, rfl⟩)
  | badMagic hs he hpos hacc =>
    exact .inl ⟨rfl, hs, hpos, (hsucc he).trans (congrArg Nat.succ hpos), hacc, hinv.outLen_of_uMagic hs⟩
  | badOffset hs he hd =>
    exact .inr (.inr (.inl ⟨rfl, hs, hd, hsucc he, hdist, hrem⟩))
  | badSize hs he hf hl =>
    exact .inr (.inr (.inr ⟨rfl, hs, hf, hl, hsucc he, hdist, hrem⟩))

/-! ### Failures are precise (60_exceptions.md R247) -/

theorem Failure.keepsOutput {s u : State} (h : Failure s u) : KeepsOutput s u := by
  cases h <;> exact ⟨rfl, rfl, rfl⟩

theorem Failure.st_ne_dCopy {s u : State} (h : Failure s u) : s.st ≠ .dCopy := by
  cases h with
  | truncated hst _ => rcases hst with hst | hst | hst | hst | hst | hst <;> simp [hst]
  | badMagic hst | badOffset hst | badSize hst => simp [hst]

/-- The failing step took no byte, the source being at its end, or it took the one that shows the failure. -/
theorem Failure.spos {s u : State} (h : Failure s u) :
    (u.err = .truncatedInput ∧ u.spos = u.srcLen) ∨
      (u.err ≠ .truncatedInput ∧ s.srcExhausted = false ∧ u.spos = s.spos + 1) := by
  cases h with
  | truncated _ he => exact .inl ⟨rfl, srcExhausted_eq_true_iff.mp he⟩
  | badMagic _ he | badOffset _ he | badSize _ he => exact .inr ⟨nofun, he, rfl⟩

/-- Settles O35: a failure keeps the output, of which the invariant has DST list exactly `OUT_LEN` bytes. -/
theorem failuresArePrecise : Obligations.FailuresArePrecise := by
  intro s t hinv hst hstep hfail
  obtain ⟨hunpack, u, later, hfailure, rfl⟩ := step_failure hinv hst hstep hfail
  obtain ⟨hdst, hhist, hlen⟩ := hfailure.keepsOutput
  have hlists : u.dst.listsBelow u.outLen.toNat := by
    rw [hdst, hlen]
    exact hinv.dst_listsBelow_outLen hunpack
  refine ⟨hdst, hhist, hlen, hlists, hfailure.st_ne_dCopy, hfailure.spos.imp_right fun ⟨hkind, he, hspos⟩ => ?_⟩
  exact ⟨hkind, (congrArg BitVec.toNat hspos).trans (hinv.toNat_spos_succ hunpack he)⟩

/-! ### Leaving `Failed`, and the runs that never enter it (60_exceptions.md R248, R252) -/

/-- Settles O36: the block has no step in `Failed`, and of the host's events only a command that starts and a reset
write `ST` or `ERR`. -/
theorem failedIsLeftByTheHostOnly : Obligations.FailedIsLeftByTheHostOnly := by
  intro s t hst hstep
  have hidle : s.busy = false := by simp [State.busy, hst]
  rcases step_next hstep with ⟨-, -, rfl⟩ | ⟨e, later, hhost, r, rfl, hevent⟩
  · rw [ruleStep_of_not_busy hidle]
    exact .inl ⟨hst, rfl⟩
  rcases hevent with ⟨-, -, rfl⟩ | ⟨v, rfl, rfl | ⟨rfl, -, rfl⟩ | ⟨rfl, -, rfl⟩⟩ | ⟨-, -, -, ht⟩ | ⟨rfl, rfl⟩
  · rw [ruleStep_of_not_busy ((busy_withHost s later).trans hidle)]
    exact .inl ⟨hst, rfl⟩
  · exact .inl ⟨hst, rfl⟩
  · exact .inr ⟨later, .inl ⟨hhost, rfl, rfl⟩⟩
  · exact .inr ⟨later, .inr (.inl ⟨hhost, rfl, rfl⟩)⟩
  · rw [ht]
    exact .inl ⟨hst, rfl⟩
  · exact .inr ⟨later, .inr (.inr ⟨hhost, rfl, rfl⟩)⟩

/-- Settles O37: a step that enters `Failed` is of an UNPACK run, and outside `Failed` the invariant has `ERR` none. -/
theorem packRaisesNothing : Obligations.PackRaisesNothing := by
  intro s hinv hpack
  have hne : s.st ≠ .failed := fun hst => by simp [St.ofPack, hst] at hpack
  refine ⟨hinv.err_eq_none hne, fun t hstep => ?_⟩
  have hne' : t.st ≠ .failed := fun hfail => by
    obtain ⟨hunpack, -⟩ := step_failure hinv hne hstep hfail
    exact absurd ((hinv.op_of_unpack hunpack).symm.trans (hinv.op_of_pack hpack)) nofun
  exact ⟨hne', (stepKeepsTheInvariant s t hinv hstep).err_eq_none hne'⟩

end Sys2Proof.Machine
